-- ==== Sys2Proof/Word.lean ====
section
/-! DEFINITION. The word types of the block: the byte, the 6-bit bus address, and exact quantities. -/

namespace Sys2Proof

/-- A byte is 8 bits, bit 7 the most significant (R6). -/
abbrev Byte := BitVec 8

/-- A 6-bit register or command address (R50, R70). -/
abbrev Addr := BitVec 6

/-- A physical quantity offered to an encoder: an exact non-negative rational (R120). -/
structure Quantity where
  /-- the quantity in its unit -/
  val : Rat
  /-- quantities are not negative -/
  nonneg : 0 ≤ val
deriving DecidableEq, Repr

/-- The quantity `n / d`. -/
def Quantity.ofRatio (n d : Nat) : Quantity :=
  ⟨mkRat n d, by rw [Rat.mkRat_eq_div]; positivity⟩

end Sys2Proof
end

