-- ==== Sys2Proof/Config.lean ====
section
/-! DEFINITION. What an implementation fixes: the configuration record CFG of R5 with its register map, as plain data, and
the free values of the model. The functions that read a configuration stand in `Machine/RegMap.lean`. -/

namespace Sys2Proof

/-- What the chip's state register reports (R30). -/
inductive MachineState where
  | idle
  | rx
  | tx
  /-- a chip-internal transitional state, with its raw code -/
  | other (code : Byte)
deriving DecidableEq, Repr, Inhabited

/-- A bit field of a register: offset and width (R29). -/
structure Field where
  o : Nat
  w : Nat
deriving DecidableEq, Repr

/-- The class of a register map entry (R25). -/
inductive AccessClass where
  /-- read-write config -/
  | config
  /-- read-only status -/
  | status
  /-- strobe-only command -/
  | command
  /-- burst region, with its greatest burst length -/
  | region (maxlen : Nat)
deriving DecidableEq, Repr

/-- Symbolic names of the register map (R26, R27, R28); `extra` names any further entry. -/
inductive RegName where
  | freqHi | freqMid | freqLo | deviation | modemA | modemB
  | agc (i : Nat)
  | syncHi | syncLo | devAddr | pktLen
  | partNumber | version | rssi | lqiCrc | fsmState
  | cmdReset | cmdFlushRx | cmdFlushTx | cmdRx | cmdTx | cmdIdle | cmdCal | cmdPwd | cmdNop
  | fifo | patable
  | extra (i : Nat)
deriving DecidableEq, Repr

/-- Names of bit fields the spec requires of the layouts (R26, R81); `extra` names any further field. -/
inductive FieldName where
  | addrFilter | lenMode | drateE | drateM | bwE | bwM | devE | devM
  | extra (i : Nat)
deriving DecidableEq, Repr

/-- One entry of the register map (R25). -/
structure Entry where
  name : RegName
  addr : Addr
  cls : AccessClass
deriving DecidableEq, Repr

/-- One named field of one register's layout (R25). -/
structure LayoutRow where
  reg : RegName
  field : FieldName
  place : Field
deriving DecidableEq, Repr

/-- The parameter REGMAP (R25): an address for every entry the spec requires (R26, R27, R28), further entries, and the
bitfield layouts. That an address has 6 bits, invariant (i) of R25, is its type. -/
structure RegMap where
  freqHi : Addr
  freqMid : Addr
  freqLo : Addr
  deviation : Addr
  modemA : Addr
  modemB : Addr
  /-- one or more AGC registers -/
  agc : List Addr
  syncHi : Addr
  syncLo : Addr
  devAddr : Addr
  pktLen : Addr
  partNumber : Addr
  version : Addr
  rssi : Addr
  lqiCrc : Addr
  fsmState : Addr
  cmdReset : Addr
  cmdFlushRx : Addr
  cmdFlushTx : Addr
  cmdRx : Addr
  cmdTx : Addr
  cmdIdle : Addr
  cmdCal : Addr
  cmdPwd : Addr
  cmdNop : Addr
  fifo : Addr
  patable : Addr
  /-- further entries: address and class, which may be `region` (log entry 26) -/
  extra : List (Addr × AccessClass)
  /-- the bitfield layouts -/
  layout : List LayoutRow
deriving DecidableEq, Repr

/-- The framing variant, a static choice (R32, R170). -/
inductive PacketMode where
  | fixed
  | var
deriving DecidableEq, Repr

/-- A formula of a format record, in exact rational arithmetic (R9, R125). Any formula can be given: one that the other
constructors cannot write is `free i`, which stands for any function (log entry 5). -/
inductive Formula where
  | num (n : Nat)
  /-- the crystal frequency `X` -/
  | crystal
  /-- the exponent `e` -/
  | exponent
  /-- the mantissa `m` -/
  | mantissa
  /-- the target `t` -/
  | target
  | add (a b : Formula)
  | sub (a b : Formula)
  | mul (a b : Formula)
  | div (a b : Formula)
  /-- `a` to the power of the natural number below `b` -/
  | pow (a b : Formula)
  | floor (a : Formula)
  /-- `yes` where `a ≤ b`, else `no` -/
  | ifLe (a b yes no : Formula)
  | free (i : Nat)
deriving DecidableEq, Repr

/-- What the formula `free i` gives for a crystal, an exponent, a mantissa and a target: any function (log entry 5). -/
opaque Config.freeFormula : Nat → Nat → Nat → Nat → Rat → Rat

/-- A format record (R125): `{ebits, mbits, K, B(e, t), V(e, m)}`. -/
structure Fmt where
  /-- exponent field width -/
  ebits : Nat
  /-- mantissa field width -/
  mbits : Nat
  /-- mantissa bias `K` -/
  bias : Nat
  /-- biased mantissa `B(e, t)` -/
  biased : Formula
  /-- value `V(e, m)` -/
  value : Formula
deriving DecidableEq, Repr

/-- `2^n` in a formula. -/
def Formula.pow2 (n : Formula) : Formula := .pow (.num 2) n

/-- The default of DRATE_FMT (R125): `B = t * 2^28 / (X * 2^e)`, `V = (256 + m) * 2^e * X / 2^28`. -/
def Fmt.drateDefault : Fmt where
  ebits := 4
  mbits := 8
  bias := 256
  biased := .div (.mul .target (.pow2 (.num 28))) (.mul .crystal (.pow2 .exponent))
  value := .div (.mul (.mul (.add (.num 256) .mantissa) (.pow2 .exponent)) .crystal) (.pow2 (.num 28))

/-- The default of DEV_FMT (R125): `B = t * 2^17 / (X * 2^e)`, `V = (8 + m) * 2^e * X / 2^17`. -/
def Fmt.devDefault : Fmt where
  ebits := 3
  mbits := 3
  bias := 8
  biased := .div (.mul .target (.pow2 (.num 17))) (.mul .crystal (.pow2 .exponent))
  value := .div (.mul (.mul (.add (.num 8) .mantissa) (.pow2 .exponent)) .crystal) (.pow2 (.num 17))

/-- The default of BW_FMT (R125): `B = X / (8 * t * 2^e)`, `V = X / (8 * (4 + m) * 2^e)`. -/
def Fmt.bwDefault : Fmt where
  ebits := 2
  mbits := 2
  bias := 4
  biased := .div .crystal (.mul (.mul (.num 8) .target) (.pow2 .exponent))
  value := .div .crystal (.mul (.mul (.num 8) (.add (.num 4) .mantissa)) (.pow2 .exponent))

/-- The hook RX_QUALITY_CHECK (R178): a procedure made of single reads of status registers and a pure verdict, as the tree of
what it does. The registers read can depend on bytes read before, and the verdict on all of them (log entry 6). -/
inductive CheckProc where
  /-- the verdict: whether there is an overflow, and whether there is a CRC failure; `ok` is neither -/
  | found (overflow crc : Bool)
  /-- a single read of register `a` -/
  | read (a : Addr) (next : CheckProc)
  /-- whether the byte of read number `idx`, masked, is `val` -/
  | test (idx : Nat) (mask val : Byte) (yes no : CheckProc)
deriving DecidableEq, Repr

/-- MODFN_FORM (R5, R97): how a modify function is presented on the command port. The spec leaves it OPEN (log entry 7). -/
inductive ModFnForm where
  /-- the function's 256 values, from byte 0 up -/
  | table
  /-- a byte string, which form number `i` reads as a function -/
  | free (i : Nat)
deriving DecidableEq, Repr

/-- The function on bytes that a byte string presents under form number `i`: any function (log entry 7). -/
opaque Config.freeModFn : Nat → List Byte → Byte → Byte

/-- The configuration record CFG (R5). -/
structure Cfg where
  /-- XTAL_HZ -/
  xtalHz : Nat
  /-- FIXED_PKT_LEN -/
  fixedPktLen : Nat
  /-- VAR_PKT_MAX -/
  varPktMax : Nat
  /-- FIFO_MAX -/
  fifoMax : Nat
  /-- PATABLE_LEN -/
  patableLen : Nat
  /-- POLL_INTERVAL_US -/
  pollIntervalUs : Nat
  /-- MAX_POLLS -/
  maxPolls : Option Nat
  /-- PACKET_MODE -/
  packetMode : PacketMode
  /-- REGMAP -/
  regmap : RegMap
  /-- STATE_DECODE, as the table of its values at bytes 0, 1, 2, ... (R82) -/
  stateDecode : List MachineState
  /-- RSSI_OFFSET_DB -/
  rssiOffsetDb : Nat
  /-- DRATE_FMT -/
  drateFmt : Fmt
  /-- BW_FMT -/
  bwFmt : Fmt
  /-- DEV_FMT -/
  devFmt : Fmt
  /-- RX_QUALITY_CHECK -/
  rxCheck : Option CheckProc
  /-- MODFN_FORM -/
  modFnForm : ModFnForm
  /-- WIRE_FORMAT, by a number: the line format lies below the byte-exchange port, and no rule of the block reads it (R51,
  R55; log entry 7) -/
  wireFormat : Nat
deriving DecidableEq, Repr

/-- TESTMAP, the register map of 95_test_vectors.md. -/
def testMap : RegMap where
  freqHi := 0x0D
  freqMid := 0x0E
  freqLo := 0x0F
  deviation := 0x15
  modemA := 0x10
  modemB := 0x11
  agc := [0x1B, 0x1C, 0x1D]
  syncHi := 0x04
  syncLo := 0x05
  devAddr := 0x09
  pktLen := 0x06
  partNumber := 0x20
  version := 0x21
  rssi := 0x24
  lqiCrc := 0x23
  fsmState := 0x25
  cmdReset := 0x30
  cmdFlushRx := 0x3A
  cmdFlushTx := 0x3B
  cmdRx := 0x34
  cmdTx := 0x35
  cmdIdle := 0x36
  cmdCal := 0x33
  cmdPwd := 0x39
  cmdNop := 0x3D
  fifo := 0x3F
  patable := 0x3E
  extra := [(0x07, .config), (0x08, .config)]
  layout := [⟨.extra 0, .addrFilter, ⟨0, 2⟩⟩, ⟨.extra 1, .lenMode, ⟨0, 2⟩⟩, ⟨.modemA, .bwE, ⟨6, 2⟩⟩, ⟨.modemA, .bwM, ⟨4, 2⟩⟩,
    ⟨.modemA, .drateE, ⟨0, 4⟩⟩, ⟨.modemB, .drateM, ⟨0, 8⟩⟩, ⟨.deviation, .devE, ⟨4, 3⟩⟩, ⟨.deviation, .devM, ⟨0, 3⟩⟩]

/-- STATE_DECODE of TESTMAP at byte `b`: the low five bits are the code. -/
def testState (b : Nat) : MachineState :=
  if b % 32 = 0x01 then .idle else if b % 32 = 0x0D then .rx else if b % 32 = 0x13 then .tx else .other (BitVec.ofNat 8 (b % 32))

/-- The default configuration: the defaults of R5 and R125; for REGMAP and STATE_DECODE, which have no default, the TESTMAP
of 95_test_vectors.md, and for MODFN_FORM and WIRE_FORMAT, which are OPEN, the table form and format 0. DESIGN CHOICE (log
entries 3 and 7); every statement is made for every configuration. -/
def Cfg.default : Cfg where
  xtalHz := 27000000
  fixedPktLen := 32
  varPktMax := 63
  fifoMax := 64
  patableLen := 8
  pollIntervalUs := 100
  maxPolls := none
  packetMode := .fixed
  regmap := testMap
  stateDecode := (List.range 256).map testState
  rssiOffsetDb := 74
  drateFmt := .drateDefault
  bwFmt := .bwDefault
  devFmt := .devDefault
  rxCheck := none
  modFnForm := .table
  wireFormat := 0

/-- The latches of R21. They are loaded while a command runs and are meaningless outside it. -/
structure Latches where
  /-- HDR: header byte of the transaction in progress -/
  hdr : Byte
  /-- RXB: byte received in the most recent BusXfer -/
  rxb : Byte
  /-- CNT: index of the next burst data byte -/
  cnt : BitVec 7
  /-- BUF: burst payload -/
  buf : Vector Byte 64
  /-- TGT: state an await is waiting for -/
  tgt : MachineState
  /-- PCNT: polls made by the current await -/
  pcnt : Nat
  /-- PIN: ready pin as sampled at command start -/
  pin : Bool
deriving DecidableEq, Repr, Inhabited

/-- What the latches hold after the `n`-th time the spec leaves them unspecified: after a command (U10, R192 "discard every
latch") and after a block reset (R210). A free value (log entry 11): nothing constrains it. -/
opaque Config.freeLatches : Nat → Latches

end Sys2Proof
end

