-- ==== Sys2Proof/Syntax.lean ====
section
/-! DEFINITION. The instructions: one constructor per row of spec/opcode_table.json (R70 to R72 for the wire level, R77 for the
commands), their operand types, and what an agent can offer the block. -/

namespace Sys2Proof

/-- The four logical modes (R30). -/
inductive RadioMode where
  | receive
  | transmit
  | idle
  | calibrate
deriving DecidableEq, Repr

/-- The polling discipline of a command (R77, R162). -/
inductive Disc where
  | busy
  | coop
  | nonblock
deriving DecidableEq, Repr

/-- A packet frame (R32): a fixed frame, or a length and that many bytes. -/
inductive Frame where
  | fixed (p : List Byte)
  | var (n : Nat) (p : List Byte)
deriving DecidableEq, Repr

/-- A register's raw byte together with the map entry whose layout names its sub-fields (R13, R29). -/
structure BitfieldValue where
  entry : Entry
  byte : Byte
deriving DecidableEq, Repr

/-- The modify function `f` of MODREG (R97), a total function on bytes, as MODFN_FORM presents it: by its 256 values, or by a
byte string that form number `i` reads (log entry 7). -/
inductive ModFn where
  | table (values : List Byte)
  | free (i : Nat) (bytes : List Byte)
deriving DecidableEq, Repr

/-- One instruction per row of the opcode table. Operands of commands are natural numbers, checked and never masked (R84). -/
inductive Instr where
  -- wire level: the transaction its header opens
  | hdrWriteSingle (a : Addr) (v : Byte)
  | hdrReadSingle (a : Addr)
  | hdrWriteBurst (a : Addr) (vs : List Byte)
  | hdrReadBurst (a : Addr) (n : Nat)
  | hdrStrobe (c : Addr)
  | strobeCmdReset
  | strobeCmdFlushRx
  | strobeCmdFlushTx
  | strobeCmdRx
  | strobeCmdTx
  | strobeCmdIdle
  | strobeCmdCal
  | strobeCmdPwd
  | strobeCmdNop
  -- Bus Framer
  | rdreg (a : Nat)
  | wrreg (a v : Nat)
  | modreg (a : Nat) (f : ModFn)
  | rdburst (a n : Nat)
  | wrburst (a : Nat) (vs : List Nat)
  | strobe (c : Nat)
  | chiprdy
  -- Register Map bitfields
  | getfield (fd : Field) (b : Nat)
  | setfield (fd : Field) (b v : Nat)
  | modfield (a : Nat) (fd : Field) (v : Nat)
  -- Parameter Codec
  | freqenc (hz : Quantity)
  | freqdec (hi mid lo : Nat)
  | drateenc (r : Quantity)
  | dratedec (e m : Nat)
  | bwenc (bw : Quantity)
  | bwdec (e m : Nat)
  | devenc (d : Quantity)
  | devdec (e m : Nat)
  | rssidec (raw : Nat)
  | syncenc (w : Nat)
  | syncdec (hi lo : Nat)
  -- Radio State Machine
  | modestrobe (mode : RadioMode)
  | awaitbusy (t : MachineState)
  | awaitcoop (t : MachineState)
  | pollstate (t : MachineState)
  | setmode (mode : RadioMode) (disc : Disc)
  -- Packet I/O
  | tx (frame : Frame) (disc : Disc)
  | txstart (frame : Frame)
  | txpoll
  | rx
deriving DecidableEq, Repr

/-- One thing offered to the block: a command as a code and operand bytes (R83), or a wire-level row as the bytes its
transaction sends. DESIGN CHOICE (log entries 8 and 9). -/
inductive Offer where
  | command (bytes : List Byte)
  | wire (bytes : List Byte)
deriving DecidableEq, Repr

end Sys2Proof
end

