-- ==== Sys2Proof/Machine/RegMap.lean ====
section
/-! DEFINITION. Reading the configuration: the register map as a table of entries, the access-class check of R90, the mode
table of R151, state decoding (R82), and what makes a configuration one the spec admits. -/

namespace Sys2Proof

/-- The table of entries of a register map, with the class of each (R25 to R28). -/
def Cfg.entries (c : Cfg) : List Entry :=
  let m := c.regmap
  [⟨.freqHi, m.freqHi, .config⟩, ⟨.freqMid, m.freqMid, .config⟩, ⟨.freqLo, m.freqLo, .config⟩, ⟨.deviation, m.deviation, .config⟩,
   ⟨.modemA, m.modemA, .config⟩, ⟨.modemB, m.modemB, .config⟩, ⟨.syncHi, m.syncHi, .config⟩, ⟨.syncLo, m.syncLo, .config⟩,
   ⟨.devAddr, m.devAddr, .config⟩, ⟨.pktLen, m.pktLen, .config⟩] ++
  [⟨.partNumber, m.partNumber, .status⟩, ⟨.version, m.version, .status⟩, ⟨.rssi, m.rssi, .status⟩, ⟨.lqiCrc, m.lqiCrc, .status⟩,
   ⟨.fsmState, m.fsmState, .status⟩] ++
  [⟨.cmdReset, m.cmdReset, .command⟩, ⟨.cmdFlushRx, m.cmdFlushRx, .command⟩, ⟨.cmdFlushTx, m.cmdFlushTx, .command⟩,
   ⟨.cmdRx, m.cmdRx, .command⟩, ⟨.cmdTx, m.cmdTx, .command⟩, ⟨.cmdIdle, m.cmdIdle, .command⟩, ⟨.cmdCal, m.cmdCal, .command⟩,
   ⟨.cmdPwd, m.cmdPwd, .command⟩, ⟨.cmdNop, m.cmdNop, .command⟩] ++
  [⟨.fifo, m.fifo, .region c.fifoMax⟩, ⟨.patable, m.patable, .region c.patableLen⟩] ++
  m.agc.zipIdx.map (fun p => ⟨.agc p.2, p.1, .config⟩) ++
  m.extra.zipIdx.map (fun p => ⟨.extra p.2, p.1.1, p.1.2⟩)

/-- The entry at an address, if there is one (R50, R75). -/
def Cfg.entryAt (c : Cfg) (a : Addr) : Option Entry :=
  c.entries.find? (fun e => e.addr == a)

/-- The class of the entry at an address. -/
def Cfg.classAt (c : Cfg) (a : Addr) : Option AccessClass :=
  (c.entryAt a).map Entry.cls

/-- The kinds of access of the table in R90. -/
inductive Access where
  | read
  | write
  | burst
  | strobe
deriving DecidableEq, Repr

/-- Which classes admit an access (R90, check 3). -/
def AccessClass.admits : AccessClass → Access → Bool
  | .config, .read => true
  | .config, .write => true
  | .status, .read => true
  | .command, .strobe => true
  | .region _, .read => true
  | .region _, .write => true
  | .region _, .burst => true
  | _, _ => false

/-- Whether an address is mapped and its class admits an access (R90, checks 2 and 3). -/
def Cfg.allows (c : Cfg) (acc : Access) (a : Addr) : Bool :=
  match c.classAt a with
  | some cls => cls.admits acc
  | none => false

/-- The greatest burst length of a class; only regions admit bursts (R25, R28). -/
def AccessClass.maxlen : AccessClass → Nat
  | .region n => n
  | _ => 0

/-- STATE_DECODE (R82). The table gives the value at each byte; past its end a byte is a transitional state of its own
code, so the function is total (log entry 4). -/
def Cfg.decodeState (c : Cfg) (b : Byte) : MachineState :=
  c.stateDecode.getD b.toNat (.other b)

/-- The strobe of each mode and the terminal state it returns (R151). -/
def Cfg.modeRow (c : Cfg) : RadioMode → Addr × MachineState
  | .receive => (c.regmap.cmdRx, .rx)
  | .transmit => (c.regmap.cmdTx, .tx)
  | .idle => (c.regmap.cmdIdle, .idle)
  | .calibrate => (c.regmap.cmdCal, .idle)

/-- A well-formed field (R29). -/
def Field.ok (f : Field) : Bool :=
  decide (1 ≤ f.w ∧ f.o + f.w ≤ 8)

/-- The bitfield layout of an entry: its named fields and their places (R25). -/
def Cfg.layoutOf (c : Cfg) (e : Entry) : List (FieldName × Field) :=
  (c.regmap.layout.filter (fun r => r.reg == e.name)).map (fun r => (r.field, r.place))

/-- Whether some register's layout names the field `f`, and each place of that name is as `ok` says. -/
def RegMap.requires (m : RegMap) (f : FieldName) (ok : LayoutRow → Bool) : Bool :=
  m.layout.any (fun r => r.field == f) && m.layout.all (fun r => r.field != f || ok r)

/-- Whether a register name is that of an entry whose class is as `p` says. -/
def Cfg.hasClass (c : Cfg) (p : AccessClass → Bool) (n : RegName) : Bool :=
  c.entries.any (fun e => e.name == n && p e.cls)

/-- The classes whose entries carry a layout (R25). -/
def AccessClass.hasLayout : AccessClass → Bool
  | .config => true
  | .status => true
  | .command => false
  | .region _ => false

/-- The two fields R26 requires without saying in which register: in registers of class `config`. -/
def Cfg.namedFieldsOk (c : Cfg) : Bool :=
  [.addrFilter, .lenMode].all (fun f => c.regmap.requires f (fun r => c.hasClass (· == .config) r.reg))

/-- The six fields of R81: in the layouts R81 says, with the widths of the format records (R125). -/
def Cfg.codecFieldsOk (c : Cfg) : Bool :=
  let modem : RegName → Bool := fun n => n == .modemA || n == .modemB
  let place : FieldName → (RegName → Bool) → Nat → Bool :=
    fun f p w => c.regmap.requires f (fun r => p r.reg && r.place.w == w)
  place .drateE modem c.drateFmt.ebits && place .drateM modem c.drateFmt.mbits &&
  place .bwE modem c.bwFmt.ebits && place .bwM modem c.bwFmt.mbits &&
  place .devE (· == .deviation) c.devFmt.ebits && place .devM (· == .deviation) c.devFmt.mbits

/-- The registers a receive-quality check can read (R178). -/
def CheckProc.regs : CheckProc → List Addr
  | .found _ _ => []
  | .read a rest => a :: rest.regs
  | .test _ _ _ yes no => yes.regs ++ no.regs

/-- What makes a configuration one the model admits: positive XTAL_HZ, POLL_INTERVAL_US and MAX_POLLS (R5), the invariants of the
register map (R25), the required fields (R26, R81), a state decoding that reaches each of the three target states (R82), format
records with `K = 2^mbits` (R125), a quality check that reads status registers (R178), and lengths that fit the 64-byte buffer
(R21). What R125 and R126 say of the formulas of a record is no Bool: `LawfulFmt` in Safety.lean. Whether REGMAP may hold a region
beside FIFO and PATABLE the spec leaves open (R50 counts two, R25 and R28 only require these two): further entries of class
`region`, with bursts up to the 64 bytes of BUF, are admitted. DESIGN CHOICE (log entry 26). The other bounds on lengths are the model's
too, for R5 gives none and R170 speaks of the frames of the active mode: FIFO_MAX, PATABLE_LEN, FIXED_PKT_LEN and VAR_PKT_MAX are at
least 1, and FIXED_PKT_LEN and VAR_PKT_MAX + 1 are at most FIFO_MAX, whatever PACKET_MODE is. DESIGN CHOICE (log entry 27). -/
def Cfg.valid (c : Cfg) : Bool :=
  decide (1 ≤ c.xtalHz) && decide (1 ≤ c.pollIntervalUs) && decide (c.maxPolls ≠ some 0) &&
  decide ((c.entries.map Entry.addr).Nodup) && decide (c.regmap.agc ≠ []) &&
  decide (1 ≤ c.fifoMax ∧ c.fifoMax ≤ 64) && decide (1 ≤ c.patableLen ∧ c.patableLen ≤ 64) &&
  c.entries.all (fun e => decide (e.cls.maxlen ≤ 64)) &&
  decide (1 ≤ c.fixedPktLen ∧ c.fixedPktLen ≤ c.fifoMax) && decide (1 ≤ c.varPktMax ∧ c.varPktMax + 1 ≤ c.fifoMax) &&
  c.regmap.layout.all (fun r => r.place.ok && c.hasClass AccessClass.hasLayout r.reg) &&
  c.namedFieldsOk && c.codecFieldsOk &&
  decide (c.stateDecode.length = 256) && [.idle, .rx, .tx].all (fun t => c.stateDecode.contains t) &&
  [c.drateFmt, c.bwFmt, c.devFmt].all (fun f => decide (f.bias = 2 ^ f.mbits)) &&
  (match c.rxCheck with
   | none => true
   | some q => q.regs.all (fun a => c.classAt a == some .status))

end Sys2Proof
end

