-- ==== Sys2Proof/WellFormed.lean ====
section
/-! DEFINITION. Which instructions have an encoding: the conditions a constructor's type does not already carry. An ill-formed
instruction is still executed as its rule says; it only has no words of its own. -/

namespace Sys2Proof

/-- The nine strobes of R27 with their addresses, in the order of the opcode table. -/
def Cfg.namedStrobes (c : Cfg) : List (Addr × Instr) :=
  [(c.regmap.cmdReset, .strobeCmdReset), (c.regmap.cmdFlushRx, .strobeCmdFlushRx), (c.regmap.cmdFlushTx, .strobeCmdFlushTx),
   (c.regmap.cmdRx, .strobeCmdRx), (c.regmap.cmdTx, .strobeCmdTx), (c.regmap.cmdIdle, .strobeCmdIdle),
   (c.regmap.cmdCal, .strobeCmdCal), (c.regmap.cmdPwd, .strobeCmdPwd), (c.regmap.cmdNop, .strobeCmdNop)]

/-- Whether an address is a `command` entry, so that a header with it is a strobe (R75). -/
def Cfg.isCommand (c : Cfg) (a : Addr) : Bool :=
  c.classAt a == some .command

/-- A modify function is presented as MODFN_FORM says; a table has 256 values (R97: total on bytes). -/
def ModFn.ok (form : ModFnForm) (f : ModFn) : Bool :=
  match form, f with
  | .table, .table t => t.length == 256
  | .free i, .free j _ => i == j
  | .table, .free _ _ => false
  | .free _, .table _ => false

/-- Whether an instruction has an encoding under a configuration: wire-level accesses are told from strobes by the class of
their address (R75), the unnamed strobe row stands for the other `command` entries, and a modify function has the form of
MODFN_FORM. -/
def Instr.wf (c : Cfg) : Instr → Bool
  | .hdrWriteSingle a _ => !c.isCommand a
  | .hdrReadSingle a => !c.isCommand a
  | .hdrWriteBurst a _ => !c.isCommand a
  | .hdrReadBurst a _ => !c.isCommand a
  | .hdrStrobe a => c.isCommand a && !(c.namedStrobes.map Prod.fst).contains a
  | .modreg _ f => f.ok c.modFnForm
  | .strobeCmdReset | .strobeCmdFlushRx | .strobeCmdFlushTx | .strobeCmdRx | .strobeCmdTx | .strobeCmdIdle | .strobeCmdCal
  | .strobeCmdPwd | .strobeCmdNop => true
  | .rdreg _ | .wrreg _ _ | .rdburst _ _ | .wrburst _ _ | .strobe _ | .chiprdy => true
  | .getfield _ _ | .setfield _ _ _ | .modfield _ _ _ => true
  | .freqenc _ | .freqdec _ _ _ | .drateenc _ | .dratedec _ _ | .bwenc _ | .bwdec _ _ | .devenc _ | .devdec _ _ | .rssidec _
  | .syncenc _ | .syncdec _ _ => true
  | .modestrobe _ | .awaitbusy _ | .awaitcoop _ | .pollstate _ | .setmode _ _ => true
  | .tx _ _ | .txstart _ | .txpoll | .rx => true

end Sys2Proof
end

