-- ==== Sys2Proof/Decode.lean ====
section
/-! DEFINITION. Header bytes (R70 to R75), command codes (R83), and the decoder and encoder of what is offered to the block.
The spec does not fix how operands accompany a command code (R83); the operand bytes here are the model's own (log entry 8). -/

namespace Sys2Proof

/-! ## The header byte -/

/-- Header assembly (R70, R71): bit 7 the read flag, bit 6 the burst flag, bits 5:0 the address. -/
def hdr (rw b : Bool) (a : Addr) : Byte :=
  BitVec.ofBool rw ++ BitVec.ofBool b ++ a

/-- `A = h[5:0]` (R75). -/
def hdrAddr (h : Byte) : Addr := h.extractLsb' 0 6

/-- `B = h[6]` (R75). -/
def hdrBurst (h : Byte) : Bool := h.getLsbD 6

/-- `RW = h[7]` (R75). -/
def hdrRead (h : Byte) : Bool := h.getLsbD 7

/-! ## Operand bytes -/

/-- A natural number in groups of seven bits, the lowest first; every byte but the last has bit 7 set. -/
def putNatFuel : Nat → Nat → List Byte
  | 0, n => [BitVec.ofNat 8 n]
  | k + 1, n => if n < 128 then [BitVec.ofNat 8 n] else BitVec.ofNat 8 (n % 128 + 128) :: putNatFuel k (n / 128)

def putNat (n : Nat) : List Byte := putNatFuel n n

def getNat : List Byte → Option (Nat × List Byte)
  | [] => none
  | b :: r =>
    if b.toNat < 128 then some (b.toNat, r)
    else match getNat r with
      | some (n, r') => some (b.toNat - 128 + 128 * n, r')
      | none => none

/-- The next `n` bytes as they stand. -/
def getRaw (n : Nat) (r : List Byte) : Option (List Byte × List Byte) :=
  if n ≤ r.length then some (r.take n, r.drop n) else none

def putBytes (l : List Byte) : List Byte := putNat l.length ++ l

def getBytes (r : List Byte) : Option (List Byte × List Byte) :=
  match getNat r with
  | some (n, r') => getRaw n r'
  | none => none

def putNats : List Nat → List Byte
  | [] => []
  | n :: l => putNat n ++ putNats l

def getNats : Nat → List Byte → Option (List Nat × List Byte)
  | 0, r => some ([], r)
  | k + 1, r =>
    match getNat r with
    | some (n, r') => match getNats k r' with
      | some (l, r'') => some (n :: l, r'')
      | none => none
    | none => none

def getNatList (r : List Byte) : Option (List Nat × List Byte) :=
  match getNat r with
  | some (n, r') => getNats n r'
  | none => none

/-- A quantity as numerator and denominator less one. -/
def putQuantity (q : Quantity) : List Byte := putNat q.val.num.toNat ++ putNat (q.val.den - 1)

def getQuantity (r : List Byte) : Option (Quantity × List Byte) :=
  match getNat r with
  | some (n, r') => match getNat r' with
    | some (d, r'') => some (Quantity.ofRatio n (d + 1), r'')
    | none => none
  | none => none

def putField (f : Field) : List Byte := putNat f.o ++ putNat f.w

def getField? (r : List Byte) : Option (Field × List Byte) :=
  match getNat r with
  | some (o, r') => match getNat r' with
    | some (w, r'') => some (⟨o, w⟩, r'')
    | none => none
  | none => none

def putState : MachineState → List Byte
  | .idle => [0]
  | .rx => [1]
  | .tx => [2]
  | .other b => [3, b]

def getState : List Byte → Option (MachineState × List Byte)
  | [] => none
  | t :: r =>
    if t = 0 then some (.idle, r) else if t = 1 then some (.rx, r) else if t = 2 then some (.tx, r)
    else if t = 3 then match r with | b :: r' => some (.other b, r') | [] => none
    else none

def putMode : RadioMode → List Byte
  | .receive => [0]
  | .transmit => [1]
  | .idle => [2]
  | .calibrate => [3]

def getMode : List Byte → Option (RadioMode × List Byte)
  | [] => none
  | t :: r =>
    if t = 0 then some (.receive, r) else if t = 1 then some (.transmit, r) else if t = 2 then some (.idle, r)
    else if t = 3 then some (.calibrate, r) else none

def putDisc : Disc → List Byte
  | .busy => [0]
  | .coop => [1]
  | .nonblock => [2]

def getDisc : List Byte → Option (Disc × List Byte)
  | [] => none
  | t :: r =>
    if t = 0 then some (.busy, r) else if t = 1 then some (.coop, r) else if t = 2 then some (.nonblock, r) else none

def putModFn : ModFn → List Byte
  | .table t => t
  | .free _ d => putBytes d

def putFrame : Frame → List Byte
  | .fixed p => 0 :: putBytes p
  | .var n p => 1 :: (putNat n ++ putBytes p)

def getFrame : List Byte → Option (Frame × List Byte)
  | [] => none
  | t :: r =>
    if t = 0 then match getBytes r with
      | some (p, r') => some (.fixed p, r')
      | none => none
    else if t = 1 then match getNat r with
      | some (n, r') => match getBytes r' with
        | some (p, r'') => some (.var n p, r'')
        | none => none
      | none => none
    else none

/-! ## Commands -/

/-- Why an offer is no instruction. -/
inductive DecodeError where
  /-- the code is none of R83's -/
  | unassignedCode
  /-- the operand bytes, or the data phase of a wire-level row, are not of the form the code takes -/
  | operandForm
deriving DecidableEq, Repr

/-- The codes of R83. -/
def commandCodes : List Byte :=
  [0x01, 0x02, 0x03, 0x04, 0x05, 0x06, 0x07, 0x08, 0x09, 0x0A, 0x10, 0x11, 0x12, 0x13, 0x14, 0x15, 0x16, 0x17, 0x18, 0x19,
   0x1A, 0x20, 0x21, 0x22, 0x23, 0x24, 0x30, 0x31, 0x32, 0x33]

def get1 (g : List Byte → Option (α × List Byte)) (k : α → Instr) (r : List Byte) : Option Instr :=
  match g r with
  | some (x, _) => some (k x)
  | none => none

def get2 (g : List Byte → Option (α × List Byte)) (h : List Byte → Option (β × List Byte)) (k : α → β → Instr)
    (r : List Byte) : Option Instr :=
  match g r with
  | some (x, r') => get1 h (k x) r'
  | none => none

def get3 (g : List Byte → Option (α × List Byte)) (h : List Byte → Option (β × List Byte))
    (i : List Byte → Option (γ × List Byte)) (k : α → β → γ → Instr) (r : List Byte) : Option Instr :=
  match g r with
  | some (x, r') => get2 h i (k x) r'
  | none => none

/-- A modify function as MODFN_FORM presents it (log entry 7). -/
def getModFn (form : ModFnForm) (r : List Byte) : Option (ModFn × List Byte) :=
  match form with
  | .table => match getRaw 256 r with
    | some (t, r') => some (.table t, r')
    | none => none
  | .free i => match getBytes r with
    | some (d, r') => some (.free i d, r')
    | none => none

/-- The operands of a command with an assigned code (R77, R83). -/
def decodeOperands (c : Cfg) (code : Byte) (r : List Byte) : Option Instr :=
  if code = 0x01 then get1 getNat .rdreg r
  else if code = 0x02 then get2 getNat getNat .wrreg r
  else if code = 0x03 then get2 getNat (getModFn c.modFnForm) .modreg r
  else if code = 0x04 then get2 getNat getNat .rdburst r
  else if code = 0x05 then get2 getNat getNatList .wrburst r
  else if code = 0x06 then get1 getNat .strobe r
  else if code = 0x07 then some .chiprdy
  else if code = 0x08 then get2 getField? getNat .getfield r
  else if code = 0x09 then get3 getField? getNat getNat .setfield r
  else if code = 0x0A then get3 getNat getField? getNat .modfield r
  else if code = 0x10 then get1 getQuantity .freqenc r
  else if code = 0x11 then get3 getNat getNat getNat .freqdec r
  else if code = 0x12 then get1 getQuantity .drateenc r
  else if code = 0x13 then get2 getNat getNat .dratedec r
  else if code = 0x14 then get1 getQuantity .bwenc r
  else if code = 0x15 then get2 getNat getNat .bwdec r
  else if code = 0x16 then get1 getQuantity .devenc r
  else if code = 0x17 then get2 getNat getNat .devdec r
  else if code = 0x18 then get1 getNat .rssidec r
  else if code = 0x19 then get1 getNat .syncenc r
  else if code = 0x1A then get2 getNat getNat .syncdec r
  else if code = 0x20 then get1 getMode .modestrobe r
  else if code = 0x21 then get1 getState .awaitbusy r
  else if code = 0x22 then get1 getState .awaitcoop r
  else if code = 0x23 then get1 getState .pollstate r
  else if code = 0x24 then get2 getMode getDisc .setmode r
  else if code = 0x30 then get2 getFrame getDisc .tx r
  else if code = 0x31 then get1 getFrame .txstart r
  else if code = 0x32 then some .txpoll
  else if code = 0x33 then some .rx
  else none

/-- Decode what stands on the command port: an unassigned code is an error of its own (R83). Bytes after the operands are
not looked at (log entry 8). -/
def decodeCommand (c : Cfg) : List Byte → Except DecodeError Instr
  | [] => .error .operandForm
  | code :: r =>
    if commandCodes.contains code then
      match decodeOperands c code r with
      | some i => .ok i
      | none => .error .operandForm
    else .error .unassignedCode

/-! ## Wire-level rows -/

/-- The strobe row of a `command` address: the named row where it is one of the nine of R27, else the unnamed one. -/
def strobeRow (c : Cfg) (a : Addr) : Instr :=
  match c.namedStrobes.find? (fun p => p.1 == a) with
  | some p => p.2
  | none => .hdrStrobe a

/-- Decode the bytes of one transaction by its header, as an observer does (R73, R74, R75): an address of class `command`
is a strobe, which has no data phase and whose two flag bits are not looked at; a header of class `config`, `status` or
`region` is told by `(RW, B)`. R75 gives no instruction to a header at an address with no entry, which the block never
emits; telling it by `(RW, B)` too, for execution to refuse it as Unmapped, is the model's. DESIGN CHOICE (log entry 25). -/
def decodeWire (c : Cfg) : List Byte → Except DecodeError Instr
  | [] => .error .operandForm
  | h :: d =>
    let a := hdrAddr h
    if c.isCommand a then
      match d with
      | [] => .ok (strobeRow c a)
      | _ :: _ => .error .operandForm
    else match hdrRead h, hdrBurst h with
      | false, false => match d with
        | [v] => .ok (.hdrWriteSingle a v)
        | _ => .error .operandForm
      | true, false => if d = [0x00] then .ok (.hdrReadSingle a) else .error .operandForm
      | false, true => .ok (.hdrWriteBurst a d)
      | true, true => if d = List.replicate d.length 0x00 then .ok (.hdrReadBurst a d.length) else .error .operandForm

/-- The instruction offered, or why there is none. -/
def decodeOffer (c : Cfg) : Offer → Except DecodeError Instr
  | .command bs => decodeCommand c bs
  | .wire bs => decodeWire c bs

/-! ## The encoder -/

/-- The bytes of an instruction: a command's code (R83) and operands, or the bytes a wire-level row sends (R71, R72, R74). -/
def encode (c : Cfg) : Instr → Offer
  | .hdrWriteSingle a v => .wire [hdr false false a, v]
  | .hdrReadSingle a => .wire [hdr true false a, 0x00]
  | .hdrWriteBurst a vs => .wire (hdr false true a :: vs)
  | .hdrReadBurst a n => .wire (hdr true true a :: List.replicate n 0x00)
  | .hdrStrobe a => .wire [hdr false false a]
  | .strobeCmdReset => .wire [hdr false false c.regmap.cmdReset]
  | .strobeCmdFlushRx => .wire [hdr false false c.regmap.cmdFlushRx]
  | .strobeCmdFlushTx => .wire [hdr false false c.regmap.cmdFlushTx]
  | .strobeCmdRx => .wire [hdr false false c.regmap.cmdRx]
  | .strobeCmdTx => .wire [hdr false false c.regmap.cmdTx]
  | .strobeCmdIdle => .wire [hdr false false c.regmap.cmdIdle]
  | .strobeCmdCal => .wire [hdr false false c.regmap.cmdCal]
  | .strobeCmdPwd => .wire [hdr false false c.regmap.cmdPwd]
  | .strobeCmdNop => .wire [hdr false false c.regmap.cmdNop]
  | .rdreg a => .command (0x01 :: putNat a)
  | .wrreg a v => .command (0x02 :: (putNat a ++ putNat v))
  | .modreg a f => .command (0x03 :: (putNat a ++ putModFn f))
  | .rdburst a n => .command (0x04 :: (putNat a ++ putNat n))
  | .wrburst a vs => .command (0x05 :: (putNat a ++ (putNat vs.length ++ putNats vs)))
  | .strobe a => .command (0x06 :: putNat a)
  | .chiprdy => .command [0x07]
  | .getfield fd b => .command (0x08 :: (putField fd ++ putNat b))
  | .setfield fd b v => .command (0x09 :: (putField fd ++ (putNat b ++ putNat v)))
  | .modfield a fd v => .command (0x0A :: (putNat a ++ (putField fd ++ putNat v)))
  | .freqenc q => .command (0x10 :: putQuantity q)
  | .freqdec hi mid lo => .command (0x11 :: (putNat hi ++ (putNat mid ++ putNat lo)))
  | .drateenc q => .command (0x12 :: putQuantity q)
  | .dratedec e m => .command (0x13 :: (putNat e ++ putNat m))
  | .bwenc q => .command (0x14 :: putQuantity q)
  | .bwdec e m => .command (0x15 :: (putNat e ++ putNat m))
  | .devenc q => .command (0x16 :: putQuantity q)
  | .devdec e m => .command (0x17 :: (putNat e ++ putNat m))
  | .rssidec raw => .command (0x18 :: putNat raw)
  | .syncenc w => .command (0x19 :: putNat w)
  | .syncdec hi lo => .command (0x1A :: (putNat hi ++ putNat lo))
  | .modestrobe m => .command (0x20 :: putMode m)
  | .awaitbusy t => .command (0x21 :: putState t)
  | .awaitcoop t => .command (0x22 :: putState t)
  | .pollstate t => .command (0x23 :: putState t)
  | .setmode m d => .command (0x24 :: (putMode m ++ putDisc d))
  | .tx f d => .command (0x30 :: (putFrame f ++ putDisc d))
  | .txstart f => .command (0x31 :: putFrame f)
  | .txpoll => .command [0x32]
  | .rx => .command [0x33]

/-! ## Instructions by their table word -/

/-- The `n` lowest bytes of a number, the lowest first. -/
def leBytes : Nat → Nat → List Byte
  | 0, _ => []
  | n + 1, w => BitVec.ofNat 8 w :: leBytes n (w / 256)

/-- The offer that stands for an opcode-table word (log entry 9): an assigned command code is a command, and zeros follow up
to the longest command that zeros can make; any other first byte is a header, and a lone header of an access is followed
by one data byte 0. -/
def offerOfWord (c : Cfg) (nbits w : Nat) : Offer :=
  match leBytes ((nbits + 7) / 8) w with
  | [] => .command []
  | b :: r =>
    if commandCodes.contains b then .command (b :: r ++ List.replicate (257 - r.length) 0)
    else if c.isCommand (hdrAddr b) then .wire (b :: r)
    else if r = [] then .wire [b, 0] else .wire (b :: r)

/-- The instruction read from an opcode-table word, under the default configuration. -/
def decodeTableWord (nbits w : Nat) : Option Instr :=
  match decodeOffer Cfg.default (offerOfWord Cfg.default nbits w) with
  | .ok i => some i
  | .error _ => none

end Sys2Proof
end

