-- ==== Sys2Proof/Machine/State.lean ====
section
/-! DEFINITION. The state of the block as plain data (R20, R21, R23), its inputs and outputs (R11), its faults and refusals, and
the state after reset (R34, R210). -/

namespace Sys2Proof.Machine

/-- The three micro-operations of the bus port (R51). -/
inductive BusOp where
  | busBegin
  | busXfer
  | busEnd
deriving DecidableEq, Repr

/-- A bus error value: opaque to the block and passed through unchanged (R51, R186). A number stands for it (log entry 17). -/
abbrev BusError := Nat

/-- The bus port's answer to one micro-operation (R51): done, with the byte received if it is an exchange, or failed. -/
inductive BusAnswer where
  | done (rx : Byte)
  | fail (e : BusError)
deriving DecidableEq, Repr

/-- The events of the trace (R64, R210). -/
inductive Event where
  | begin
  | xfer (tx rx : Byte)
  | finish
  | fail (op : BusOp) (e : BusError)
  | wait (us : Nat)
  | pin (level : Bool)
  | reset
deriving DecidableEq, Repr

/-- Reasons of InvalidArgument (R90, R110, R111, R124, R160, R170), and two whose names are the model's. -/
inductive Reason where
  | addressRange
  | unmapped
  | accessClass
  | byteRange
  | length
  | field
  | fieldValue
  | frame
  | discipline
  /-- an unassigned command code (R83, R186): the spec gives this check no reason name, and the one recorded is the model's own.
  DESIGN CHOICE (log entry 28) -/
  | commandCode
  /-- the model's own, DESIGN CHOICE (log entry 8): the operand bytes of an offer do not have the form its code takes -/
  | operandForm
deriving DecidableEq, Repr

/-- On which side of the encodable values a target lies (R121). -/
inductive Side where
  | below
  | above
deriving DecidableEq, Repr

/-- Error kinds with the information each records (R186). -/
inductive ErrKind where
  | transport (e : BusError)
  | rxOverflow (info : List Byte)
  | crcMismatch (info : List Byte)
  | timeout (target : MachineState) (polls : Nat)
  | invalidArgument (r : Reason)
  | outOfRange (side : Side)
deriving DecidableEq, Repr

/-- Result values carried by Ok (R77). -/
inductive Value where
  | unit
  | byte (b : Byte)
  | bytes (l : List Byte)
  | bool (b : Bool)
  | field (v : Nat)
  | triple (hi mid lo : Byte)
  | expMant (e m : Nat)
  | pair (hi lo : Byte)
  | word (w : BitVec 16)
  | rational (q : Rat)
  | mstate (t : MachineState)
  | packet (n : Nat) (l : List Byte)
deriving DecidableEq, Repr

/-- The outcome of a command (R8, R185). -/
inductive CmdOutcome where
  | ok (v : Value)
  | wouldBlock
  | err (k : ErrKind)
deriving DecidableEq, Repr

/-- One micro-operation of a transaction, with where its byte comes from and goes to (R53). -/
inductive Op where
  /-- `x[HDR] <- h; BusBegin()` -/
  | begin (h : Byte)
  /-- `BusXfer(x[HDR])` -/
  | header
  /-- `BusXfer(x[HDR])`, then `x[CNT] <- 0` for the burst loop -/
  | burstHeader
  /-- the data byte of a single write -/
  | send (v : Byte)
  /-- the data byte of a single read: the filler 0x00 is sent -/
  | recv
  /-- `BusXfer(x[BUF][x[CNT]]); x[CNT] <- x[CNT] + 1` -/
  | sendBuf
  /-- `x[BUF][x[CNT]] <- BusXfer(0x00); x[CNT] <- x[CNT] + 1` -/
  | recvBuf
  /-- `BusEnd()` -/
  | finish
  /-- the one closing `BusEnd()` of an abort with error `k` (R192) -/
  | closing (k : ErrKind)
deriving DecidableEq, Repr

/-- What the command does when its current transaction has ended. -/
inductive Post where
  /-- go on with the next phase -/
  | proceed
  /-- the poll step of an await, with a wait after a mismatch if `coop` (R153, R154, R156) -/
  | poll (coop : Bool)
  /-- one poll: go on if the state is `t`, else WouldBlock (R157, R174); the target is here and not in TGT (log entry 30) -/
  | pollOnce (t : MachineState)
  /-- a read of the receive-quality check: what the check does after it, and the bytes read before (R178) -/
  | check (rest : CheckProc) (seen : List Byte)
  /-- the length byte of a variable frame has been read (R176) -/
  | len
deriving DecidableEq, Repr

/-- Which result a command returns from the latches. -/
inductive Ret where
  | unit
  /-- the byte of a strobe's header exchange or of a single read -/
  | rxb
  /-- bit 7 of the status byte is 0 (R96) -/
  | ready
  /-- `x[BUF][0 .. n-1]` -/
  | bytes (n : Nat)
  /-- `(n, x[BUF][0 .. n-1])` -/
  | packet (n : Nat)
  | state (t : MachineState)
deriving DecidableEq, Repr

/-- The phases a command's pseudocode is made of (R79): at most one transaction each, but for an await and a check. -/
inductive Phase where
  /-- `SamplePin()`; with the pin false the command is WouldBlock (R171, R175) -/
  | pin
  | strobe (c : Addr)
  | read (a : Addr)
  | write (a : Addr) (v : Byte)
  /-- write back `f` of the byte just read (R97) -/
  | writeBack (a : Addr) (f : ModFn)
  | readBurst (a : Addr) (n : Nat)
  | writeBurst (a : Addr) (vs : List Byte)
  /-- `x[TGT] <- t; x[PCNT] <- 0` and the poll loop -/
  | await (t : MachineState) (coop : Bool)
  | pollOnce (t : MachineState)
  | check (p : CheckProc)
  | readLen
  | ret (r : Ret)
deriving DecidableEq, Repr

/-- A transaction in progress: the micro-operation to perform next, the rest of the transaction, what follows it, and the
phases after that. The operands latched at acceptance (R62) are in it. -/
structure Job where
  op : Op
  ops : List Op
  post : Post
  code : List Phase
deriving DecidableEq, Repr

/-- What the next step of a running command performs (R23): one bus micro-operation, a pin sample, or a wait; with the phases
after it. -/
inductive Task where
  | bus (j : Job)
  /-- `SamplePin()` (R171) -/
  | pin (code : List Phase)
  /-- `Wait(POLL_INTERVAL_US)` after a poll that missed; then the await polls again (R156) -/
  | wait (code : List Phase)
deriving DecidableEq, Repr

/-- The sequencer phase SEQ (R23). In `RUN(k)`, `k` counts the micro-operations, waits and pin samples completed, and the
task is the one numbered `k`. WAITING keeps `k` and the phases after the await, to resume with (log entry 12). -/
inductive Seq where
  | ready
  | run (k : Nat) (task : Task)
  | waiting (k : Nat) (code : List Phase)
deriving DecidableEq, Repr

/-- The state of the block. -/
structure State where
  /-- CFG (R5), never changed by a step (R33); held here as the only place `exec` can read it (log entry 3) -/
  cfg : Cfg
  /-- SEQ (R20 b, R23) -/
  seq : Seq
  /-- BUS.open (R20 a, R51) -/
  busOpen : Bool
  /-- the latches of R21 -/
  lat : Latches
  /-- the trace (R64), oldest event first -/
  trace : List Event
  /-- the outcomes delivered on the command port (R8, R213), oldest first -/
  outcomes : List CmdOutcome
  /-- the command offered on the command port and not yet accepted (R11 a); the port holds one (R65, R226; log entry 14) -/
  port : Option Offer
  /-- answers the bus port gives to the coming micro-operations (R11 b, R51), in order -/
  bus : List BusAnswer
  /-- the level the ready pin has now (R11 c, R171) -/
  pinLevel : Bool
  /-- how many of the coming waits the wait port has already ended (R11 d, R156) -/
  resumes : Nat
  /-- the block reset input (R210) -/
  resetIn : Bool
  /-- the model's own: how many free values have been drawn (log entry 11) -/
  fresh : Nat
deriving DecidableEq, Repr

/-- Faults: moves the spec calls undefined, which it refuses to give a result. -/
inductive Fault where
  /-- Raised by the host's move of an offer outside READY, which R226 calls a fault of the host (R65, U1), and by every meaning
  executed outside READY. SAFE: the offer gets no result, and `step` executes a command in READY only. -/
  | offeredOutsideReady
  /-- Raised by the host's move of an offer in READY while another stands on the command port: a concurrent offer too (R65, R226;
  log entry 14). SAFE: it gets no result. -/
  | portOccupied
  /-- Raised by BusBegin on an open bus (R51 "Requires `BUS.open = false`"). SAFE: not reached from a state that meets the
  invariant of Safety.lean. -/
  | beginOnOpenBus
  /-- Raised by BusXfer on a closed bus (R51 "requires `BUS.open = true`"). SAFE: as above. -/
  | xferOnClosedBus
  /-- Raised by BusEnd on a closed bus (R51 "Requires `BUS.open = true`"). SAFE: as above. -/
  | endOnClosedBus
deriving DecidableEq, Repr

/-- Refusals. -/
inductive Refusal where
  /-- Raised by `exec`'s arm of an instruction that has no meaning yet; no arm raises it. SAFE: the machine stops. -/
  | notModelled (mnemonic : String)
deriving DecidableEq, Repr

/-- The state after reset (R34, R210): READY, bus closed, nothing offered. The latches' values, which the spec leaves
unspecified, are the model's (log entry 10). -/
def State.reset : State where
  cfg := Cfg.default
  seq := .ready
  busOpen := false
  lat := ⟨0, 0, 0, Vector.replicate 64 0, .idle, 0, false⟩
  trace := []
  outcomes := []
  port := none
  bus := []
  pinLevel := false
  resumes := 0
  resetIn := false
  fresh := 0

end Sys2Proof.Machine
end

