-- ==== Sys2Proof/Machine/Flags.lean ====
section
/-! DEFINITION. The three one-bit conditions of R24, computed and consumed inside one command, and the codes of outcomes. -/

namespace Sys2Proof.Machine

/-- chip-not-ready (R24 a, R80): bit 7 of a status byte. -/
def chipNotReady (status : Byte) : Bool := status.getLsbD 7

/-- state-reached (R24 b, R153): equality of MachineStates (R30). -/
def stateReached (cfg : Cfg) (b : Byte) (t : MachineState) : Bool := cfg.decodeState b == t

/-- packet-ready (R24 c, R171): the ready pin as sampled. -/
def packetReady (lat : Latches) : Bool := lat.pin

/-- The bound of an await is used up (R153, R155). -/
def pollsUsedUp (cfg : Cfg) (pcnt : Nat) : Bool :=
  match cfg.maxPolls with
  | none => false
  | some n => decide (n ≤ pcnt)

/-- The response code of an outcome (R186, R187). -/
def CmdOutcome.code : CmdOutcome → Nat
  | .ok _ => 0
  | .err (.transport _) => 1
  | .err (.rxOverflow _) => 2
  | .err (.crcMismatch _) => 3
  | .err (.timeout _ _) => 4
  | .err (.invalidArgument _) => 5
  | .err (.outOfRange _) => 6
  | .wouldBlock => 7

/-- What a receive-quality check does next (R178). -/
inductive CheckStep where
  /-- a single read of register `a`, then `rest` -/
  | read (a : Addr) (rest : CheckProc)
  /-- the verdict -/
  | found (overflow crc : Bool)
deriving DecidableEq, Repr

/-- A test of a check on the bytes read so far (R178): the byte of its read, masked, is the one it looks for. -/
def testFires (idx : Nat) (mask val : Byte) (seen : List Byte) : Bool :=
  match seen[idx]? with
  | some b => b &&& mask == val
  | none => false

/-- What a check does next, when it has read the bytes `seen` (R178). -/
def checkNext (seen : List Byte) : CheckProc → CheckStep
  | .found o c => .found o c
  | .read a rest => .read a rest
  | .test idx mask val yes no => if testFires idx mask val seen then checkNext seen yes else checkNext seen no

/-- The error of a verdict: when both apply, RxOverflow (R178, R191). It records the bytes read (R186, log entry 18). -/
def checkError (overflow crc : Bool) (seen : List Byte) : Option ErrKind :=
  if overflow then some (.rxOverflow seen) else if crc then some (.crcMismatch seen) else none

end Sys2Proof.Machine
end

