-- ==== Sys2Proof/Machine/Operands.lean ====
section
/-! DEFINITION. Operand forms: the checks of R90 in their order, fields (R29, R110, R111), modify functions (R97), frames
(R170), and the results read from the latches. -/

namespace Sys2Proof.Machine

/-- Checks 1 to 3 of R90: the address is at most 63, it is mapped, and its class admits the access. -/
def checkAddr (c : Cfg) (acc : Access) (a : Nat) : Except Reason Addr :=
  if 63 < a then .error .addressRange
  else match c.classAt (BitVec.ofNat 6 a) with
    | none => .error .unmapped
    | some cls => if cls.admits acc then .ok (BitVec.ofNat 6 a) else .error .accessClass

/-- Check 4 of R90. -/
def checkByte (v : Nat) : Except Reason Byte :=
  if 255 < v then .error .byteRange else .ok (BitVec.ofNat 8 v)

/-- Check 4 of R90 on every element of a burst (log entry 13). -/
def checkBytes (vs : List Nat) : Except Reason (List Byte) :=
  if vs.any (fun v => decide (255 < v)) then .error .byteRange else .ok (vs.map (BitVec.ofNat 8))

/-- The greatest burst length at an address; 0 where it is no region (R56). -/
def maxBurst (c : Cfg) (a : Addr) : Nat :=
  match c.classAt a with
  | some cls => cls.maxlen
  | none => 0

/-- Check 5 of R90. -/
def checkLength (c : Cfg) (a : Addr) (n : Nat) : Except Reason Unit :=
  if 1 ≤ n ∧ n ≤ maxBurst c a then .ok () else .error .length

/-- A modify function applied to a byte (R97). -/
def applyModFn (f : ModFn) (b : Byte) : Byte :=
  match f with
  | .table t => t.getD b.toNat 0
  | .free i d => Config.freeModFn i d b

/-- The table of a function on bytes. -/
def modFnOf (f : Byte → Byte) : ModFn := .table ((List.range 256).map (fun n => f (BitVec.ofNat 8 n)))

/-- The mask of a field (R29): `((1 << w) - 1) << o`. -/
def fieldMask (f : Field) : Byte := BitVec.ofNat 8 ((2 ^ f.w - 1) <<< f.o)

/-- The value of a field of a byte (R110): `(b >> o) & ((1 << w) - 1)`. -/
def getField (f : Field) (b : Byte) : Nat := (b.toNat >>> f.o) &&& (2 ^ f.w - 1)

/-- A byte with a field set (R111): `(b & ~mask) | (v << o)`. -/
def setField (f : Field) (b : Byte) (v : Nat) : Byte := (b &&& ~~~ fieldMask f) ||| BitVec.ofNat 8 (v <<< f.o)

/-- The entry at an address with a byte of it, as a BitfieldValue (R29). -/
def bitfieldValue (c : Cfg) (a : Addr) (b : Byte) : Option BitfieldValue := (c.entryAt a).map (⟨·, b⟩)

/-- The place of a named sub-field of a BitfieldValue, from its entry's layout (R25, R29). A layout may list a name more than once, as
R25 does not forbid; then the first row that has it counts. DESIGN CHOICE (log entry 29). -/
def subField (c : Cfg) (v : BitfieldValue) (n : FieldName) : Option Field :=
  (c.layoutOf v.entry).lookup n

/-- The value of a named sub-field (R29, R110). -/
def getSubField (c : Cfg) (v : BitfieldValue) (n : FieldName) : Option Nat :=
  (subField c v n).map (getField · v.byte)

/-- A BitfieldValue with a named sub-field set (R29, R111). -/
def setSubField (c : Cfg) (v : BitfieldValue) (n : FieldName) (u : Nat) : Option BitfieldValue :=
  (subField c v n).map (fun f => { v with byte := setField f v.byte u })

/-- The check of GETFIELD and the first check of SETFIELD (R110, R111). -/
def checkField (f : Field) : Except Reason Unit :=
  if f.ok then .ok () else .error .field

/-- The byte operand of the bitfield commands (R110, R111). -/
def checkFieldByte (b : Nat) : Except Reason Byte :=
  if 255 < b then .error .field else .ok (BitVec.ofNat 8 b)

/-- The field value must fit the field (R111). -/
def checkFieldValue (w v : Nat) : Except Reason Unit :=
  if 2 ^ w - 1 < v then .error .fieldValue else .ok ()

/-- The bytes a frame puts into the FIFO, or the refusal of a frame that is not of the active variant or whose length is
wrong (R32, R170). -/
def frameBytes (c : Cfg) (f : Frame) : Except Reason (List Byte) :=
  match c.packetMode, f with
  | .fixed, .fixed p => if p.length = c.fixedPktLen then .ok p else .error .frame
  | .var, .var n p =>
    if 1 ≤ n ∧ n ≤ c.varPktMax ∧ p.length = n then .ok (BitVec.ofNat 8 n :: p) else .error .frame
  | _, _ => .error .frame

/-- The discipline of a command that waits (R160, R172): whether it waits cooperatively; `nonblock` is refused. -/
def checkDisc : Disc → Except Reason Bool
  | .busy => .ok false
  | .coop => .ok true
  | .nonblock => .error .discipline

/-- The first `n` bytes of the burst buffer. -/
def bufTake (lat : Latches) (n : Nat) : List Byte := lat.buf.toList.take n

/-- The burst buffer with `vs` put at its start (R53). -/
def loadBuf (buf : Vector Byte 64) : Nat → List Byte → Vector Byte 64
  | _, [] => buf
  | i, v :: vs => loadBuf (buf.setIfInBounds i v) (i + 1) vs

end Sys2Proof.Machine
end

