-- ==== Sys2Proof/Machine/Ops.lean ====
section
/-! DEFINITION. The named operations: the bus micro-operations (R51), delivering an outcome, raising an error (R192, the
counterpart of taking an exception), block reset (R210), the transactions (R52, R53), the poll step (R153), and advancing a command
by one micro-operation, pin sample or wait (R10, R23). -/

namespace Sys2Proof.Machine

/-- What every step answers. -/
abbrev Answer := Host.Outcome State Fault Refusal

/-! ## Outcomes -/

/-- Append an event to the trace (R64). -/
def emit (e : Event) (s : State) : State := { s with trace := s.trace ++ [e] }

/-- The latches become unspecified (R34, R210, U10): a free value (log entry 11). -/
def scrub (s : State) : State := { s with lat := Config.freeLatches s.fresh, fresh := s.fresh + 1 }

/-- Deliver an outcome on the command port (R8). -/
def reply (o : CmdOutcome) (s : State) : State := { s with outcomes := s.outcomes ++ [o] }

/-- End the running command: deliver its outcome, discard the latches, `pc <- READY` (R23, R192). -/
def endCommand (o : CmdOutcome) (s : State) : State := { reply o (scrub s) with seq := .ready }

/-- Raise an error (R192): if the bus is open, one closing BusEnd comes first; then the command ends with the error. There is
no return from it (R193): the block is in READY. -/
def raise (err : ErrKind) (k : Nat) (s : State) : State :=
  if s.busOpen then { s with seq := .run k (.bus ⟨.closing err, [], .proceed, []⟩) } else endCommand (.err err) s

/-- Block reset (R210): READY, bus closed, latches unspecified, `Reset` in the trace, no outcome, no BusEnd; the reset input
has been taken. Nothing that stands at the ports is touched (log entry 22). -/
def blockReset (s : State) : State :=
  emit .reset { scrub s with seq := .ready, busOpen := false, resetIn := false }

/-! ## Micro-operations -/

/-- How a micro-operation ended (R51). -/
inductive MicroResult where
  | done (rx : Byte) (s : State)
  | failed (e : BusError) (s : State)
  | broken (f : Fault)

/-- `BusBegin()` (R51). -/
def busBegin (a : BusAnswer) (s : State) : MicroResult :=
  if s.busOpen then .broken .beginOnOpenBus
  else match a with
    | .done rx => .done rx (emit .begin { s with busOpen := true })
    | .fail e => .failed e (emit (.fail .busBegin e) s)

/-- `BusXfer(tx) -> rx` (R51). -/
def busXfer (tx : Byte) (a : BusAnswer) (s : State) : MicroResult :=
  if s.busOpen then match a with
    | .done rx => .done rx (emit (.xfer tx rx) { s with lat := { s.lat with rxb := rx } })
    | .fail e => .failed e (emit (.fail .busXfer e) s)
  else .broken .xferOnClosedBus

/-- `BusEnd()` (R51); where it fails the bus is considered closed (R192). -/
def busEnd (a : BusAnswer) (s : State) : MicroResult :=
  if s.busOpen then match a with
    | .done rx => .done rx (emit .finish { s with busOpen := false })
    | .fail e => .failed e (emit (.fail .busEnd e) { s with busOpen := false })
  else .broken .endOnClosedBus

/-- The bus micro-operation an `Op` stands for (R53). -/
def microOp (op : Op) (a : BusAnswer) (s : State) : MicroResult :=
  match op with
  | .begin h => busBegin a { s with lat := { s.lat with hdr := h } }
  | .header => busXfer s.lat.hdr a s
  | .burstHeader => busXfer s.lat.hdr a s
  | .send v => busXfer v a s
  | .recv => busXfer 0x00 a s
  | .sendBuf => busXfer (s.lat.buf.toList.getD s.lat.cnt.toNat 0) a s
  | .recvBuf => busXfer 0x00 a s
  | .finish => busEnd a s
  | .closing _ => busEnd a s

/-- What the burst loop does with its latches after a completed exchange (R53). -/
def loopLatches (op : Op) (rx : Byte) (lat : Latches) : Latches :=
  match op with
  | .burstHeader => { lat with cnt := 0 }
  | .sendBuf => { lat with cnt := lat.cnt + 1 }
  | .recvBuf => { lat with buf := lat.buf.setIfInBounds lat.cnt.toNat rx, cnt := lat.cnt + 1 }
  | _ => lat

/-! ## Transactions and phases -/

/-- Start a transaction: its header byte and the exchanges between the header and `BusEnd` (R52). -/
def start (k : Nat) (h : Byte) (hop : Op) (data : List Op) (post : Post) (code : List Phase) (s : State) : State :=
  { s with seq := .run k (.bus ⟨.begin h, hop :: (data ++ [.finish]), post, code⟩) }

/-- `Strobe(c)` (R53, R72). -/
def startStrobe (k : Nat) (c : Addr) (code : List Phase) (s : State) : State :=
  start k (hdr false false c) .header [] .proceed code s

/-- `MemRead(a, 1)` (R53). -/
def startRead (k : Nat) (a : Addr) (post : Post) (code : List Phase) (s : State) : State :=
  start k (hdr true false a) .header [.recv] post code s

/-- `MemWrite(a, 1, v)` (R53). -/
def startWrite (k : Nat) (a : Addr) (v : Byte) (code : List Phase) (s : State) : State :=
  start k (hdr false false a) .header [.send v] .proceed code s

/-- `MemRead(a, n, burst)` (R53). -/
def startReadBurst (k : Nat) (a : Addr) (n : Nat) (code : List Phase) (s : State) : State :=
  start k (hdr true true a) .burstHeader (List.replicate n .recvBuf) .proceed code s

/-- `MemWrite(a, n, v, burst)` (R53). -/
def startWriteBurst (k : Nat) (a : Addr) (vs : List Byte) (code : List Phase) (s : State) : State :=
  start k (hdr false true a) .burstHeader (List.replicate vs.length .sendBuf) .proceed code
    { s with lat := { s.lat with buf := loadBuf s.lat.buf 0 vs } }

/-- The result a command returns (R77). -/
def retValue (r : Ret) (lat : Latches) : Value :=
  match r with
  | .unit => .unit
  | .rxb => .byte lat.rxb
  | .ready => .bool (!chipNotReady lat.rxb)
  | .bytes n => .bytes (bufTake lat n)
  | .packet n => .packet n (bufTake lat n)
  | .state t => .mstate t

/-- Go on with a receive-quality check that has read the bytes `seen` (R178): its next read, or its verdict; where that is `ok`
the command goes on at `onward`, else it ends with the error. -/
def goOnCheck (p : CheckProc) (seen : List Byte) (code : List Phase) (k : Nat) (onward s : State) : State :=
  match checkNext seen p with
  | .read a rest => startRead k a (.check rest seen) code s
  | .found o c => match checkError o c seen with
    | none => onward
    | some err => raise err k s

/-- Go on with the next phase of a command; after the last one it ends with `Ok()`. A phase that polls once writes no TGT: its target
stands in the phase. R21's table names R157 among the writers of TGT, but neither R157 nor R153 writes it there. DESIGN CHOICE (log
entry 30). -/
def launch : List Phase → Nat → State → State
  | [], _, s => endCommand (.ok .unit) s
  | .ret r :: _, _, s => endCommand (.ok (retValue r s.lat)) s
  | .pin :: rest, k, s => { s with seq := .run k (.pin rest) }
  | .strobe c :: rest, k, s => startStrobe k c rest s
  | .read a :: rest, k, s => startRead k a .proceed rest s
  | .write a v :: rest, k, s => startWrite k a v rest s
  | .writeBack a f :: rest, k, s => startWrite k a (applyModFn f s.lat.rxb) rest s
  | .readBurst a n :: rest, k, s => startReadBurst k a n rest s
  | .writeBurst a vs :: rest, k, s => startWriteBurst k a vs rest s
  | .await t coop :: rest, k, s =>
    startRead k s.cfg.regmap.fsmState (.poll coop) rest { s with lat := { s.lat with tgt := t, pcnt := 0 } }
  | .pollOnce t :: rest, k, s => startRead k s.cfg.regmap.fsmState (.pollOnce t) rest s
  | .check p :: rest, k, s => goOnCheck p [] rest k (launch rest k s) s
  | .readLen :: rest, k, s => startRead k s.cfg.regmap.fifo .len rest s

/-! ## The poll step -/

/-- The tri-state of a poll (R153). -/
inductive PollResult where
  | reached
  | pending
  | timedOut
deriving DecidableEq, Repr

/-- The poll step's verdict on the byte read from FSM_STATE, with `PCNT` counting this poll (R153). -/
def pollResult (cfg : Cfg) (lat : Latches) : PollResult :=
  if stateReached cfg lat.rxb lat.tgt then .reached
  else if pollsUsedUp cfg lat.pcnt then .timedOut
  else .pending

/-- The read transaction of a poll (R152). -/
def pollJob (cfg : Cfg) (coop : Bool) (code : List Phase) : Job :=
  ⟨.begin (hdr true false cfg.regmap.fsmState), [.header, .recv, .finish], .poll coop, code⟩

/-- After the read of a poll: count it, then end the await, time out, or poll again, after a wait if `coop` (R153 to R156). -/
def afterPoll (coop : Bool) (code : List Phase) (k : Nat) (s : State) : State :=
  let s := { s with lat := { s.lat with pcnt := s.lat.pcnt + 1 } }
  match pollResult s.cfg s.lat with
  | .reached => launch code k s
  | .timedOut => raise (.timeout s.lat.tgt s.lat.pcnt) k s
  | .pending => { s with seq := .run k (if coop then .wait code else .bus (pollJob s.cfg false code)) }

/-- After the one poll of POLLSTATE and TXPOLL (R157, R174). -/
def afterPollOnce (t : MachineState) (code : List Phase) (k : Nat) (s : State) : State :=
  if stateReached s.cfg s.lat.rxb t then launch code k s else endCommand .wouldBlock s

/-- After a read of the receive-quality check (R178). -/
def afterCheck (rest : CheckProc) (seen : List Byte) (code : List Phase) (k : Nat) (s : State) : State :=
  goOnCheck rest (seen ++ [s.lat.rxb]) code k (launch code k s) s

/-- After the length byte of a variable frame (R176). -/
def afterLen (k : Nat) (s : State) : State :=
  let n := s.lat.rxb.toNat
  if n = 0 then endCommand (.ok (.packet 0 [])) s
  else if s.cfg.varPktMax < n then raise (.rxOverflow [s.lat.rxb]) k s
  else startReadBurst k s.cfg.regmap.fifo n [.ret (.packet n)] s

/-- A transaction has ended without failure: what its command does next. -/
def afterTransaction (post : Post) (code : List Phase) (k : Nat) (s : State) : State :=
  match post with
  | .proceed => launch code k s
  | .poll coop => afterPoll coop code k s
  | .pollOnce t => afterPollOnce t code k s
  | .check rest seen => afterCheck rest seen code k s
  | .len => afterLen k s

/-! ## Running a command -/

/-- A micro-operation has completed: `pc <- RUN(k+1)` (R23), on to the next of the transaction or past its end; after the
closing BusEnd of an abort the command ends with its error. -/
def completed (j : Job) (rx : Byte) (k : Nat) (s : State) : State :=
  let s := { s with lat := loopLatches j.op rx s.lat }
  match j.op with
  | .closing err => endCommand (.err err) s
  | _ => match j.ops with
    | o :: os => { s with seq := .run (k + 1) (.bus { j with op := o, ops := os }) }
    | [] => afterTransaction j.post j.code (k + 1) s

/-- A micro-operation has failed (R99, R192): Transport is raised, but a failure of the closing BusEnd is ignored. -/
def failedOp (op : Op) (e : BusError) (k : Nat) (s : State) : State :=
  match op with
  | .closing err => endCommand (.err err) s
  | _ => raise (.transport e) k s

/-- Perform the next bus micro-operation of a running command with the bus port's answer (R51). -/
def perform (a : BusAnswer) (k : Nat) (j : Job) (s : State) : Answer :=
  match microOp j.op a s with
  | .done rx s' => .next (completed j rx k s')
  | .failed e s' => .next (failedOp j.op e k s')
  | .broken f => .fault f

/-- `SamplePin()` (R171): the level goes to the trace and to `x[PIN]`. -/
def samplePin (s : State) : State :=
  emit (.pin s.pinLevel) { s with lat := { s.lat with pin := s.pinLevel } }

/-- After the pin sample: go on, or WouldBlock without touching the bus (R175, R176). -/
def afterPin (code : List Phase) (k : Nat) (s : State) : State :=
  if packetReady s.lat then launch code k s else endCommand .wouldBlock s

/-- `Wait(POLL_INTERVAL_US)` (R156): the wait is issued and `pc <- WAITING`. -/
def issueWait (code : List Phase) (k : Nat) (s : State) : State :=
  emit (.wait s.cfg.pollIntervalUs) { s with seq := .waiting k code }

/-- The wait port has ended the wait: `pc <- RUN(k+1)`, where the await polls again (R23, R156). -/
def endWait (code : List Phase) (k : Nat) (s : State) : State :=
  { s with seq := .run (k + 1) (.bus (pollJob s.cfg true code)), resumes := s.resumes - 1 }

/-- One step of a command in progress (R10, R23): the task numbered `k`, one bus micro-operation, pin sample or wait; the block
stands where the bus port has no answer yet, or the wait port has not ended the wait. -/
def advance (s : State) : Answer :=
  match s.seq with
  | .ready => .next s
  | .run k (.bus j) => match s.bus with
    | [] => .next s
    | a :: rest => perform a k j { s with bus := rest }
  | .run k (.pin code) => .next (afterPin code (k + 1) (samplePin s))
  | .run k (.wait code) => .next (issueWait code k s)
  | .waiting k code => if s.resumes = 0 then .next s else .next (endWait code k s)

/-! ## Accepting a command -/

/-- The command port accepts only in READY (R65, R226). -/
def whenReady (s : State) (t : Answer) : Answer :=
  match s.seq with
  | .ready => t
  | _ => .fault .offeredOutsideReady

/-- Accept a command made of phases: `pc <- RUN(0)` at its first task; the next step performs it (R23). -/
def accept (code : List Phase) (s : State) : Answer :=
  whenReady s (.next (launch code 0 s))

/-- A pure command ends at once with its result: no state is written and the trace stays empty (R110, R121). -/
def answer (v : Value) (s : State) : Answer :=
  whenReady s (.next (reply (.ok v) s))

/-- A command that raises an error as its first action (R90, R110, R121): `raise` (R192) with no bus activity before it. -/
def reject (err : ErrKind) (s : State) : Answer :=
  whenReady s (.next (raise err 0 s))

/-- `raise InvalidArgument(reason)` (R90). -/
def refuse (r : Reason) (s : State) : Answer :=
  reject (.invalidArgument r) s

/-- Go on with a checked operand, or refuse. -/
def checked (e : Except Reason α) (s : State) (k : α → Answer) : Answer :=
  match e with
  | .ok x => k x
  | .error r => refuse r s

/-! ## The command port -/

/-- The host offers a command (R11 a, R78): only in READY (R65, R226), where the command port holds one offer. Any other offer is a
fault of the host and gets no result (R226, U1; log entry 14). -/
def offerCommand (o : Offer) (s : State) : Answer :=
  whenReady s (match s.port with
    | none => .next { s with port := some o }
    | some _ => .fault .portOccupied)

/-- The offer that stands on the command port, taken from it (R11 a). -/
def nextOffer (s : State) : Option (Offer × State) :=
  s.port.map (fun o => (o, { s with port := none }))

/-- An offer that is no instruction is answered with InvalidArgument and no bus activity (R83). The reason names recorded are the
model's (log entries 8 and 28). -/
def refuseOffer (e : DecodeError) (s : State) : Answer :=
  match e with
  | .unassignedCode => refuse .commandCode s
  | .operandForm => refuse .operandForm s

/-- A state with an offer placed where the next step takes it: READY, bus closed, no reset, the offer on the port. -/
def placeOffer (o : Offer) (s : State) : State :=
  { s with seq := .ready, busOpen := false, resetIn := false, port := some o }

end Sys2Proof.Machine
end

