-- ==== Sys2Proof/Machine/Bitfield.lean ====
section
/-! DEFINITION. The Register Map bitfield commands (41_register_bitfields.md). -/

namespace Sys2Proof.Machine

/-- GETFIELD (R110). -/
def execGetfield (fd : Field) (b : Nat) (s : State) : Answer :=
  checked (checkField fd) s fun _ =>
  checked (checkFieldByte b) s fun b => answer (.field (getField fd b)) s

/-- SETFIELD (R111). -/
def execSetfield (fd : Field) (b v : Nat) (s : State) : Answer :=
  checked (checkField fd) s fun _ =>
  checked (checkFieldByte b) s fun b =>
  checked (checkFieldValue fd.w v) s fun _ => answer (.byte (setField fd b v)) s

/-- MODFIELD (R113): MODREG with the function that sets the field; all checks come before any bus activity. -/
def execModfield (a : Nat) (fd : Field) (v : Nat) (s : State) : Answer :=
  checked (checkAddr s.cfg .write a) s fun a =>
  checked (checkField fd) s fun _ =>
  checked (checkFieldValue fd.w v) s fun _ => accept [.read a, .writeBack a (modFnOf (fun b => setField fd b v))] s

end Sys2Proof.Machine
end

