-- ==== Sys2Proof/Machine/BusFramer.lean ====
section
/-! DEFINITION. The Bus Framer commands (40_bus_framer.md). -/

namespace Sys2Proof.Machine

/-- RDREG (R91): a single read, returning the byte received in the second exchange. -/
def execRdreg (a : Nat) (s : State) : Answer :=
  checked (checkAddr s.cfg .read a) s fun a => accept [.read a, .ret .rxb] s

/-- WRREG (R92): a single write. -/
def execWrreg (a v : Nat) (s : State) : Answer :=
  checked (checkAddr s.cfg .write a) s fun a =>
  checked (checkByte v) s fun v => accept [.write a v] s

/-- MODREG (R97): a single read, then a single write of `f` of the byte read. -/
def execModreg (a : Nat) (f : ModFn) (s : State) : Answer :=
  checked (checkAddr s.cfg .write a) s fun a => accept [.read a, .writeBack a f] s

/-- RDBURST (R93): a burst read of `n` bytes, returned in the order received. -/
def execRdburst (a n : Nat) (s : State) : Answer :=
  checked (checkAddr s.cfg .burst a) s fun a =>
  checked (checkLength s.cfg a n) s fun _ => accept [.readBurst a n, .ret (.bytes n)] s

/-- WRBURST (R94): a burst write. -/
def execWrburst (a : Nat) (vs : List Nat) (s : State) : Answer :=
  checked (checkAddr s.cfg .burst a) s fun a =>
  checked (checkBytes vs) s fun bs =>
  checked (checkLength s.cfg a bs.length) s fun _ => accept [.writeBurst a bs] s

/-- STROBE (R95): a strobe, returning the status byte uninterpreted. -/
def execStrobe (c : Nat) (s : State) : Answer :=
  checked (checkAddr s.cfg .strobe c) s fun c => accept [.strobe c, .ret .rxb] s

/-- CHIPRDY (R96): the no-op strobe; true when bit 7 of the status byte is clear. -/
def execChiprdy (s : State) : Answer :=
  accept [.strobe s.cfg.regmap.cmdNop, .ret .ready] s

end Sys2Proof.Machine
end

