-- ==== Sys2Proof/Machine/Codec.lean ====
section
/-! DEFINITION. The Parameter Codec commands (42_parameter_codec.md): pure conversions in exact rational arithmetic. -/

namespace Sys2Proof.Machine

/-- `round(q) = floor(q + 1/2)` (R9). -/
def roundHalfUp (q : Rat) : Int := ⌊q + 1 / 2⌋

/-- `signed8(b)` (R6). -/
def signed8 (b : Byte) : Int := if b.toNat < 128 then (b.toNat : Int) else (b.toNat : Int) - 256

/-- Deliver the result of a codec command, or raise its error (R121). -/
def answerCodec (r : Except ErrKind Value) (s : State) : Answer :=
  match r with
  | .ok v => answer v s
  | .error k => reject k s

/-! ## Frequency -/

/-- `F = round(hz * 65536 / X)` (R123). -/
def freqWord (x : Nat) (hz : Rat) : Int := roundHalfUp (hz * 65536 / x)

/-- The split of the frequency word into high, middle and low byte (R54, R123). -/
def splitFreq (f : BitVec 24) : Value := .triple (f.extractLsb' 16 8) (f.extractLsb' 8 8) (f.extractLsb' 0 8)

/-- FREQENC's result (R123). -/
def freqEnc (x : Nat) (hz : Quantity) : Except ErrKind Value :=
  let f := freqWord x hz.val
  if 0xFFFFFF < f then .error (.outOfRange .above) else .ok (splitFreq (BitVec.ofNat 24 f.toNat))

/-- FREQDEC's result (R124). -/
def freqDec (x : Nat) (hi mid lo : Byte) : Rat := ((hi ++ mid ++ lo).toNat : Rat) * x / 65536

/-- FREQENC (R123). -/
def execFreqenc (hz : Quantity) (s : State) : Answer := answerCodec (freqEnc s.cfg.xtalHz hz) s

/-- FREQDEC (R124). -/
def execFreqdec (hi mid lo : Nat) (s : State) : Answer :=
  checked (checkByte hi) s fun hi =>
  checked (checkByte mid) s fun mid =>
  checked (checkByte lo) s fun lo => answer (.rational (freqDec s.cfg.xtalHz hi mid lo)) s

/-! ## Mantissa and exponent -/

/-- The value of a formula for a crystal, an exponent, a mantissa and a target, in exact rational arithmetic (R9, R125). -/
def evalFormula (x e m : Nat) (t : Rat) : Formula → Rat
  | .num n => n
  | .crystal => x
  | .exponent => e
  | .mantissa => m
  | .target => t
  | .add a b => evalFormula x e m t a + evalFormula x e m t b
  | .sub a b => evalFormula x e m t a - evalFormula x e m t b
  | .mul a b => evalFormula x e m t a * evalFormula x e m t b
  | .div a b => evalFormula x e m t a / evalFormula x e m t b
  | .pow a b => evalFormula x e m t a ^ ⌊evalFormula x e m t b⌋.toNat
  | .floor a => (⌊evalFormula x e m t a⌋ : Int)
  | .ifLe a b yes no =>
    if evalFormula x e m t a ≤ evalFormula x e m t b then evalFormula x e m t yes else evalFormula x e m t no
  | .free i => Config.freeFormula i x e m t

/-- The biased mantissa `B(e, t)` (R125); it has no mantissa to look at. -/
def biasedMantissa (f : Fmt) (x e : Nat) (t : Rat) : Rat := evalFormula x e 0 t f.biased

/-- The value `V(e, m)` (R125); it has no target to look at. -/
def fmtValue (f : Fmt) (x e m : Nat) : Rat := evalFormula x e m 0 f.value

/-- Whether a quantity grows with its mantissa, as data rate and deviation do, or falls, as bandwidth does (R126). -/
inductive Trend where
  | grows
  | falls
deriving DecidableEq, Repr

/-- `side_low` (R126). -/
def sideLow : Trend → Side
  | .grows => .below
  | .falls => .above

/-- `side_high` (R126). -/
def sideHigh : Trend → Side
  | .grows => .above
  | .falls => .below

/-- The search of R126 with `left` exponents still to try, from `e` upward. -/
def meSearch (f : Fmt) (d : Trend) (x : Nat) (t : Rat) : Nat → Nat → Except ErrKind Value
  | 0, _ => .error (.outOfRange (sideHigh d))
  | left + 1, e =>
    let m := roundHalfUp (biasedMantissa f x e t) - f.bias
    if m < 0 then .error (.outOfRange (sideLow d))
    else if m ≤ 2 ^ f.mbits - 1 then .ok (.expMant e m.toNat)
    else meSearch f d x t left (e + 1)

/-- `MEENC(fmt, t)` (R126). -/
def meEnc (f : Fmt) (d : Trend) (x : Nat) (t : Quantity) : Except ErrKind Value := meSearch f d x t.val (2 ^ f.ebits) 0

/-- BWENC's result (R131): a bandwidth of 0 is below the range. -/
def bwEnc (f : Fmt) (x : Nat) (t : Quantity) : Except ErrKind Value :=
  if t.val = 0 then .error (.outOfRange .below) else meEnc f .falls x t

/-- Operands of a decoder must fit their fields (R121, R128). -/
def checkExpMant (f : Fmt) (e m : Nat) : Except Reason Unit :=
  if e ≤ 2 ^ f.ebits - 1 ∧ m ≤ 2 ^ f.mbits - 1 then .ok () else .error .fieldValue

/-- A mantissa/exponent decoder (R128, R130, R132). -/
def meDec (f : Fmt) (e m : Nat) (s : State) : Answer :=
  checked (checkExpMant f e m) s fun _ => answer (.rational (fmtValue f s.cfg.xtalHz e m)) s

/-- DRATEENC (R127). -/
def execDrateenc (r : Quantity) (s : State) : Answer := answerCodec (meEnc s.cfg.drateFmt .grows s.cfg.xtalHz r) s

/-- DRATEDEC (R128). -/
def execDratedec (e m : Nat) (s : State) : Answer := meDec s.cfg.drateFmt e m s

/-- BWENC (R131). -/
def execBwenc (bw : Quantity) (s : State) : Answer := answerCodec (bwEnc s.cfg.bwFmt s.cfg.xtalHz bw) s

/-- BWDEC (R132). -/
def execBwdec (e m : Nat) (s : State) : Answer := meDec s.cfg.bwFmt e m s

/-- DEVENC (R129). -/
def execDevenc (d : Quantity) (s : State) : Answer := answerCodec (meEnc s.cfg.devFmt .grows s.cfg.xtalHz d) s

/-- DEVDEC (R130). -/
def execDevdec (e m : Nat) (s : State) : Answer := meDec s.cfg.devFmt e m s

/-! ## RSSI and sync word -/

/-- RSSIDEC's result (R135): half-dB steps of the signed reading, less the offset. -/
def rssiDec (offset : Nat) (raw : Byte) : Rat := (signed8 raw : Rat) / 2 - offset

/-- RSSIDEC (R135). -/
def execRssidec (raw : Nat) (s : State) : Answer :=
  checked (checkByte raw) s fun raw => answer (.rational (rssiDec s.cfg.rssiOffsetDb raw)) s

/-- The split of a sync word (R54, R137). -/
def splitSync (w : BitVec 16) : Value := .pair (w.extractLsb' 8 8) (w.extractLsb' 0 8)

/-- SYNCENC (R137). -/
def execSyncenc (w : Nat) (s : State) : Answer :=
  if 0xFFFF < w then refuse .byteRange s else answer (splitSync (BitVec.ofNat 16 w)) s

/-- SYNCDEC (R138). -/
def execSyncdec (hi lo : Nat) (s : State) : Answer :=
  checked (checkByte hi) s fun hi =>
  checked (checkByte lo) s fun lo => answer (.word (hi ++ lo)) s

end Sys2Proof.Machine
end

