-- ==== Sys2Proof/Machine/ModeFsm.lean ====
section
/-! DEFINITION. The Radio State Machine commands (43_mode_fsm.md). -/

namespace Sys2Proof.Machine

/-- MODESTROBE (R151): exactly one strobe; the terminal state is returned, the status byte discarded. -/
def execModestrobe (mode : RadioMode) (s : State) : Answer :=
  accept [.strobe (s.cfg.modeRow mode).1, .ret (.state (s.cfg.modeRow mode).2)] s

/-- AWAITBUSY (R154). -/
def execAwaitbusy (t : MachineState) (s : State) : Answer := accept [.await t false] s

/-- AWAITCOOP (R156). -/
def execAwaitcoop (t : MachineState) (s : State) : Answer := accept [.await t true] s

/-- POLLSTATE (R157). -/
def execPollstate (t : MachineState) (s : State) : Answer := accept [.pollOnce t] s

/-- The phases of a mode transition (R158), with how the terminal state is awaited; the calibrate transition routes through
Idle and cannot be non-blocking (R159, R160). -/
def setmodePhases (c : Cfg) (mode : RadioMode) (disc : Disc) : Except Reason (List Phase) :=
  match mode with
  | .calibrate =>
    match checkDisc disc with
    | .ok coop => .ok [.strobe c.regmap.cmdIdle, .await .idle coop, .strobe c.regmap.cmdCal, .await .idle coop]
    | .error r => .error r
  | mode =>
    match disc with
    | .busy => .ok [.strobe (c.modeRow mode).1, .await (c.modeRow mode).2 false]
    | .coop => .ok [.strobe (c.modeRow mode).1, .await (c.modeRow mode).2 true]
    | .nonblock => .ok [.strobe (c.modeRow mode).1, .pollOnce (c.modeRow mode).2]

/-- SETMODE (R158, R159, R160). -/
def execSetmode (mode : RadioMode) (disc : Disc) (s : State) : Answer :=
  checked (setmodePhases s.cfg mode disc) s fun code => accept code s

end Sys2Proof.Machine
end

