-- ==== Sys2Proof/Machine/PacketIo.lean ====
section
/-! DEFINITION. The Packet I/O commands (44_packet_io.md). -/

namespace Sys2Proof.Machine

/-- TX (R172): burst-write FIFO, strobe Transmit, await Idle, flush-TX strobe. The frame is checked first, then the discipline
(R191). -/
def execTx (frame : Frame) (disc : Disc) (s : State) : Answer :=
  checked (frameBytes s.cfg frame) s fun bs =>
  checked (checkDisc disc) s fun coop =>
  accept [.writeBurst s.cfg.regmap.fifo bs, .strobe s.cfg.regmap.cmdTx, .await .idle coop, .strobe s.cfg.regmap.cmdFlushTx] s

/-- TXSTART (R173): burst-write FIFO, strobe Transmit. -/
def execTxstart (frame : Frame) (s : State) : Answer :=
  checked (frameBytes s.cfg frame) s fun bs =>
  accept [.writeBurst s.cfg.regmap.fifo bs, .strobe s.cfg.regmap.cmdTx] s

/-- TXPOLL (R174): one poll; if Idle, the flush-TX strobe, else WouldBlock. -/
def execTxpoll (s : State) : Answer :=
  accept [.pollOnce .idle, .strobe s.cfg.regmap.cmdFlushTx] s

/-- The receive-quality check, if one is configured (R178). -/
def checkPhases (c : Cfg) : List Phase :=
  match c.rxCheck with
  | some p => [.check p]
  | none => []

/-- What RX reads from the FIFO in either packet mode (R175, R176). -/
def receivePhases (c : Cfg) : List Phase :=
  match c.packetMode with
  | .fixed => [.readBurst c.regmap.fifo c.fixedPktLen, .ret (.bytes c.fixedPktLen)]
  | .var => [.readLen]

/-- RX (R175, R176): the pin is sampled first; if it is not asserted the command is WouldBlock with no bus activity; then come
the check and the reads. -/
def execRx (s : State) : Answer :=
  accept (.pin :: (checkPhases s.cfg ++ receivePhases s.cfg)) s

end Sys2Proof.Machine
end

