-- ==== Sys2Proof/Machine/Wire.lean ====
section
/-! DEFINITION. The wire-level rows of the opcode table (R71, R72, R95): each is the one transaction its header opens (R52, R53),
with the checks of R90 and R76 before it. -/

namespace Sys2Proof.Machine

/-- HDR_WRITE_SINGLE (R71, R74): a single write; the address must be of class config or region. -/
def execHdrWriteSingle (a : Addr) (v : Byte) (s : State) : Answer :=
  checked (checkAddr s.cfg .write a.toNat) s fun a => accept [.write a v] s

/-- HDR_READ_SINGLE (R71, R74): a single read; the address must be of class config, status or region. -/
def execHdrReadSingle (a : Addr) (s : State) : Answer :=
  checked (checkAddr s.cfg .read a.toNat) s fun a => accept [.read a, .ret .rxb] s

/-- HDR_WRITE_BURST (R71, R74): a burst write of 1 to maxlen bytes on a region. -/
def execHdrWriteBurst (a : Addr) (vs : List Byte) (s : State) : Answer :=
  checked (checkAddr s.cfg .burst a.toNat) s fun a =>
  checked (checkLength s.cfg a vs.length) s fun _ => accept [.writeBurst a vs] s

/-- HDR_READ_BURST (R71, R74): a burst read of 1 to maxlen bytes on a region. -/
def execHdrReadBurst (a : Addr) (n : Nat) (s : State) : Answer :=
  checked (checkAddr s.cfg .burst a.toNat) s fun a =>
  checked (checkLength s.cfg a n) s fun _ => accept [.readBurst a n, .ret (.bytes n)] s

/-- A strobe of a command address, returning the status byte (R72, R95). -/
def strobeTransaction (c : Addr) (s : State) : Answer :=
  checked (checkAddr s.cfg .strobe c.toNat) s fun c => accept [.strobe c, .ret .rxb] s

/-- HDR_STROBE (R72). -/
def execHdrStrobe (c : Addr) (s : State) : Answer := strobeTransaction c s

/-- STROBE_CMD_RESET (R27, R95, R211). -/
def execStrobeCmdReset (s : State) : Answer := strobeTransaction s.cfg.regmap.cmdReset s

/-- STROBE_CMD_FLUSH_RX (R27, R95). -/
def execStrobeCmdFlushRx (s : State) : Answer := strobeTransaction s.cfg.regmap.cmdFlushRx s

/-- STROBE_CMD_FLUSH_TX (R27, R95). -/
def execStrobeCmdFlushTx (s : State) : Answer := strobeTransaction s.cfg.regmap.cmdFlushTx s

/-- STROBE_CMD_RX (R27, R95). -/
def execStrobeCmdRx (s : State) : Answer := strobeTransaction s.cfg.regmap.cmdRx s

/-- STROBE_CMD_TX (R27, R95). -/
def execStrobeCmdTx (s : State) : Answer := strobeTransaction s.cfg.regmap.cmdTx s

/-- STROBE_CMD_IDLE (R27, R95). -/
def execStrobeCmdIdle (s : State) : Answer := strobeTransaction s.cfg.regmap.cmdIdle s

/-- STROBE_CMD_CAL (R27, R95). -/
def execStrobeCmdCal (s : State) : Answer := strobeTransaction s.cfg.regmap.cmdCal s

/-- STROBE_CMD_PWD (R27, R95, R202). -/
def execStrobeCmdPwd (s : State) : Answer := strobeTransaction s.cfg.regmap.cmdPwd s

/-- STROBE_CMD_NOP (R27, R95, R80). -/
def execStrobeCmdNop (s : State) : Answer := strobeTransaction s.cfg.regmap.cmdNop s

end Sys2Proof.Machine
end

