-- ==== Sys2Proof/Machine/Dispatch.lean ====
section
/-! DEFINITION. One arm per row of the opcode table, each a direct call of its meaning. -/

namespace Sys2Proof.Machine

def exec (i : Instr) (s : State) : Host.Outcome State Fault Refusal :=
  match i with
  -- wire level: the transaction its header opens
  | .hdrWriteSingle a v => Sys2Proof.Machine.execHdrWriteSingle a v s
  | .hdrReadSingle a => Sys2Proof.Machine.execHdrReadSingle a s
  | .hdrWriteBurst a vs => Sys2Proof.Machine.execHdrWriteBurst a vs s
  | .hdrReadBurst a n => Sys2Proof.Machine.execHdrReadBurst a n s
  | .hdrStrobe c => Sys2Proof.Machine.execHdrStrobe c s
  | .strobeCmdReset => Sys2Proof.Machine.execStrobeCmdReset s
  | .strobeCmdFlushRx => Sys2Proof.Machine.execStrobeCmdFlushRx s
  | .strobeCmdFlushTx => Sys2Proof.Machine.execStrobeCmdFlushTx s
  | .strobeCmdRx => Sys2Proof.Machine.execStrobeCmdRx s
  | .strobeCmdTx => Sys2Proof.Machine.execStrobeCmdTx s
  | .strobeCmdIdle => Sys2Proof.Machine.execStrobeCmdIdle s
  | .strobeCmdCal => Sys2Proof.Machine.execStrobeCmdCal s
  | .strobeCmdPwd => Sys2Proof.Machine.execStrobeCmdPwd s
  | .strobeCmdNop => Sys2Proof.Machine.execStrobeCmdNop s
  -- Bus Framer
  | .rdreg a => Sys2Proof.Machine.execRdreg a s
  | .wrreg a v => Sys2Proof.Machine.execWrreg a v s
  | .modreg a f => Sys2Proof.Machine.execModreg a f s
  | .rdburst a n => Sys2Proof.Machine.execRdburst a n s
  | .wrburst a vs => Sys2Proof.Machine.execWrburst a vs s
  | .strobe c => Sys2Proof.Machine.execStrobe c s
  | .chiprdy => Sys2Proof.Machine.execChiprdy s
  -- Register Map bitfields
  | .getfield fd b => Sys2Proof.Machine.execGetfield fd b s
  | .setfield fd b v => Sys2Proof.Machine.execSetfield fd b v s
  | .modfield a fd v => Sys2Proof.Machine.execModfield a fd v s
  -- Parameter Codec
  | .freqenc hz => Sys2Proof.Machine.execFreqenc hz s
  | .freqdec hi mid lo => Sys2Proof.Machine.execFreqdec hi mid lo s
  | .drateenc r => Sys2Proof.Machine.execDrateenc r s
  | .dratedec e m => Sys2Proof.Machine.execDratedec e m s
  | .bwenc bw => Sys2Proof.Machine.execBwenc bw s
  | .bwdec e m => Sys2Proof.Machine.execBwdec e m s
  | .devenc d => Sys2Proof.Machine.execDevenc d s
  | .devdec e m => Sys2Proof.Machine.execDevdec e m s
  | .rssidec raw => Sys2Proof.Machine.execRssidec raw s
  | .syncenc w => Sys2Proof.Machine.execSyncenc w s
  | .syncdec hi lo => Sys2Proof.Machine.execSyncdec hi lo s
  -- Radio State Machine
  | .modestrobe mode => Sys2Proof.Machine.execModestrobe mode s
  | .awaitbusy t => Sys2Proof.Machine.execAwaitbusy t s
  | .awaitcoop t => Sys2Proof.Machine.execAwaitcoop t s
  | .pollstate t => Sys2Proof.Machine.execPollstate t s
  | .setmode mode disc => Sys2Proof.Machine.execSetmode mode disc s
  -- Packet I/O
  | .tx frame disc => Sys2Proof.Machine.execTx frame disc s
  | .txstart frame => Sys2Proof.Machine.execTxstart frame s
  | .txpoll => Sys2Proof.Machine.execTxpoll s
  | .rx => Sys2Proof.Machine.execRx s

end Sys2Proof.Machine
end

