-- ==== Sys2Proof/Machine/Step.lean ====
section
/-! DEFINITION. One step of the block, and an opcode-table word placed for the next step. -/

namespace Sys2Proof.Machine

/-- One step: a raised reset input first (R210); in READY the command offered is accepted and executed, and with none the block
waits (R34); a running or waiting command advances by one bus micro-operation, pin sample or wait (R10,
R23). -/
def step (s : State) : Host.Outcome State Fault Refusal :=
  if s.resetIn then .next (blockReset s)
  else match s.seq with
    | .ready => match nextOffer s with
      | none => .next s
      | some (o, s') => match decodeOffer s.cfg o with
        | .ok i => exec i s'
        | .error e => refuseOffer e s'
    | _ => advance s

/-- The state with the instruction of an opcode-table word on the command port, in READY (log entry 19). -/
def State.withFetchWord (s : State) (nbits w : Nat) : State := placeOffer (offerOfWord s.cfg nbits w) s

end Sys2Proof.Machine
end

