-- ==== Sys2Proof/Machine/Env.lean ====
section
/-! DEFINITION. The moves of the agents other than the block (R10, R11): they touch the inputs only. -/

namespace Sys2Proof.Machine

/-- What the host, the chip and the environment can do to the block. -/
inductive Move where
  /-- the host offers a command (R11 a, R78), which it can do in READY only (R226) -/
  | offer (o : Offer)
  /-- the bus port answers a coming micro-operation (R11 b, R51, R63) -/
  | answer (a : BusAnswer)
  /-- the chip drives the ready pin (R11 c, R171) -/
  | pin (level : Bool)
  /-- the wait port ends a wait (R11 d, R156) -/
  | resume
  /-- the environment resets the block (R210) -/
  | reset
deriving DecidableEq, Repr

/-- A move: the state after it, or the fault of a host that offers a command where it cannot (R226). -/
def State.move (m : Move) (s : State) : Answer :=
  match m with
  | .offer o => offerCommand o s
  | .answer a => .next { s with bus := s.bus ++ [a] }
  | .pin level => .next { s with pinLevel := level }
  | .resume => .next { s with resumes := s.resumes + 1 }
  | .reset => .next { s with resetIn := true }

end Sys2Proof.Machine
end

