-- ==== Sys2Proof/Safety.lean ====
section
/-! DEFINITION. What claims speak of: well-framed and legal traces, the invariants of a state, and the events and answers of whole
transactions, polls and commands. -/

namespace Sys2Proof

/-- The waiting discipline, by whether it is cooperative (R162). -/
def Disc.waiting (coop : Bool) : Disc := if coop then .coop else .busy

/-- The bytes a frame of the active variant puts into the FIFO (R170). -/
def Frame.Gives (c : Cfg) (f : Frame) (bs : List Byte) : Prop :=
  match f with
  | .fixed p => c.packetMode = .fixed ∧ p.length = c.fixedPktLen ∧ bs = p
  | .var n p => c.packetMode = .var ∧ 1 ≤ n ∧ n ≤ c.varPktMax ∧ p.length = n ∧ bs = BitVec.ofNat 8 n :: p

end Sys2Proof

namespace Sys2Proof.Machine

/-! ## Several steps -/

/-- `n` steps, one after the other (R10). -/
def runs : Nat → State → Answer
  | 0, s => .next s
  | n + 1, s => match step s with
    | .next t => runs n t
    | .fault f => .fault f
    | .refused r => .refused r

/-- `u` is `s` with a command accepted: `RUN(0)` at some task (R23), the latches set up for it, and nothing else changed: no
micro-operation has been performed. -/
def State.Accepted (s u : State) : Prop :=
  ∃ task, u = { s with seq := .run 0 task, lat := u.lat }

/-- A command that uses the bus or the pin: `exec` accepts it and answers a next state, and `n` steps later the state is `t`. -/
def Completes (i : Instr) (s : State) (n : Nat) (t : State) : Prop :=
  ∃ u, exec i s = .next u ∧ s.Accepted u ∧ runs n u = .next t

/-! ## Framing -/

/-- Where a trace stands between transactions (R98, R192). -/
inductive Framing where
  /-- no transaction is open -/
  | closed
  /-- `Begin` was the last event: the header exchange is due -/
  | begun
  /-- the header has been exchanged -/
  | opened
  /-- an exchange has failed: only the closing event is due -/
  | dying
deriving DecidableEq, Repr

/-- Whether the bus is open there (R20, R51). -/
@[simp]
def Framing.isOpen : Framing → Bool
  | .closed => false
  | .begun => true
  | .opened => true
  | .dying => true

/-- One event after a framing; `none` where the spec's traces have no such event there (R52, R60, R98, R192, R210). `ok` says
which header bytes may be sent. -/
def frameStep (ok : Byte → Bool) (f : Framing) (e : Event) : Option Framing :=
  match e with
  | .reset => some .closed
  | .begin => if f = .closed then some .begun else none
  | .wait _ => if f = .closed then some .closed else none
  | .pin _ => if f = .closed then some .closed else none
  | .xfer tx _ =>
    match f with
    | .begun => if ok tx then some .opened else none
    | .opened => some .opened
    | .closed => none
    | .dying => none
  | .finish => if f = .opened ∨ f = .dying then some .closed else none
  | .fail op _ =>
    match op with
    | .busBegin => if f = .closed then some .closed else none
    | .busXfer => if f = .begun ∨ f = .opened then some .dying else none
    | .busEnd => if f = .opened ∨ f = .dying then some .closed else none

/-- The framing a trace ends in, from a framing it starts in; `none` if it is not well framed. -/
def framingFrom (ok : Byte → Bool) : Framing → List Event → Option Framing
  | f, [] => some f
  | f, e :: es =>
    match frameStep ok f e with
    | some f' => framingFrom ok f' es
    | none => none

/-- The framing of a whole trace. -/
def framing (ok : Byte → Bool) (t : List Event) : Option Framing := framingFrom ok .closed t

/-- The exchanges left in a transaction, then `BusEnd` (R52). -/
def dataShape : List Op → Bool
  | [] => false
  | [.finish] => true
  | .send _ :: os => dataShape os
  | .recv :: os => dataShape os
  | .sendBuf :: os => dataShape os
  | .recvBuf :: os => dataShape os
  | _ :: _ => false

/-- The micro-operations left in a job are the rest of one transaction, or the closing `BusEnd` of an abort (R52, R192). -/
def Job.shaped (j : Job) : Bool :=
  match j.op with
  | .begin _ => match j.ops with
    | .header :: os => dataShape os
    | .burstHeader :: os => dataShape os
    | _ => false
  | .header => dataShape j.ops
  | .burstHeader => dataShape j.ops
  | .send _ => dataShape j.ops
  | .recv => dataShape j.ops
  | .sendBuf => dataShape j.ops
  | .recvBuf => dataShape j.ops
  | .finish => j.ops == []
  | .closing _ => j.ops == []

/-- The framing that goes with a job's next micro-operation. -/
def Job.framing (j : Job) : Framing :=
  match j.op with
  | .begin _ => .closed
  | .header => .begun
  | .burstHeader => .begun
  | .closing _ => .dying
  | _ => .opened

/-- The framing that goes with a sequencer phase: pin samples and waits come between transactions (R57, R60). -/
def Seq.framing : Seq → Framing
  | .ready => .closed
  | .run _ (.bus j) => j.framing
  | .run _ (.pin _) => .closed
  | .run _ (.wait _) => .closed
  | .waiting _ _ => .closed

/-- The transaction a phase is in, if it is in one, is shaped. -/
def Seq.shaped : Seq → Bool
  | .run _ (.bus j) => j.shaped
  | .ready | .run _ (.pin _) | .run _ (.wait _) | .waiting _ _ => true

/-- The framing invariant: every transaction in the trace has one Begin, then its header, and one closing event (R98), the bus is
open exactly between them (R20, R51), and the sequencer stands where the trace does. -/
def State.Framed (s : State) : Prop :=
  framing (fun _ => true) s.trace = some s.seq.framing ∧ s.busOpen = s.seq.framing.isOpen ∧ s.seq.shaped = true

/-- No command is offered while one runs: the port is empty outside READY (R65, R226). -/
def State.Serial (s : State) : Prop := s.seq ≠ .ready → s.port = none

/-! ## Legal headers -/

/-- The headers the block may emit (R75, R76): a strobe with both flags clear; a single access of a config register; a single
read of a status register; any access of a region; none at an unmapped address. -/
def legalHeader (c : Cfg) (h : Byte) : Bool :=
  match c.classAt (hdrAddr h) with
  | some .command => !hdrRead h && !hdrBurst h
  | some .config => !hdrBurst h
  | some .status => hdrRead h && !hdrBurst h
  | some (.region _) => true
  | none => false

/-- The transactions a phase can start are legal. -/
def Phase.legal (c : Cfg) : Phase → Bool
  | .strobe a => Cfg.allows c .strobe a
  | .read a => Cfg.allows c .read a
  | .write a _ => Cfg.allows c .write a
  | .writeBack a _ => Cfg.allows c .write a
  | .readBurst a _ => Cfg.allows c .burst a
  | .writeBurst a _ => Cfg.allows c .burst a
  | .check p => p.regs.all (Cfg.allows c .read)
  | .pin | .await _ _ | .pollOnce _ | .readLen | .ret _ => true

/-- What follows a transaction is legal. -/
def Post.legal (c : Cfg) : Post → Bool
  | .check rest _ => rest.regs.all (Cfg.allows c .read)
  | .proceed | .poll _ | .pollOnce _ | .len => true

/-- A job's header, and everything it can start later, are legal; `h` is the header latch. -/
def Job.legal (c : Cfg) (h : Byte) (j : Job) : Bool :=
  (match j.op with
   | .begin h' => legalHeader c h'
   | .header => legalHeader c h
   | .burstHeader => legalHeader c h
   | _ => true) && j.post.legal c && j.code.all (Phase.legal c)

/-- The legality invariant: no trace of the block contains a header that R76 says is never emitted. -/
def State.Legal (s : State) : Prop :=
  framing (legalHeader s.cfg) s.trace = some s.seq.framing ∧
  match s.seq with
  | .ready => True
  | .run _ (.bus j) => j.legal s.cfg s.lat.hdr = true
  | .run _ (.pin code) => code.all (Phase.legal s.cfg) = true
  | .run _ (.wait code) => code.all (Phase.legal s.cfg) = true
  | .waiting _ code => code.all (Phase.legal s.cfg) = true

/-! ## Single micro-operations -/

/-- The byte an exchange sends (R53). -/
def Op.tx (lat : Latches) : Op → Option Byte
  | .header => some lat.hdr
  | .burstHeader => some lat.hdr
  | .send v => some v
  | .recv => some 0x00
  | .sendBuf => some (lat.buf.toList.getD lat.cnt.toNat 0)
  | .recvBuf => some 0x00
  | .begin _ | .finish | .closing _ => none

/-- The bus micro-operation of an `Op` (R51). -/
def Op.kind : Op → BusOp
  | .begin _ => .busBegin
  | .finish | .closing _ => .busEnd
  | .header | .burstHeader | .send _ | .recv | .sendBuf | .recvBuf => .busXfer

/-- The event of a micro-operation that completes with `rx` (R51, R64). -/
def Op.event (lat : Latches) (rx : Byte) (op : Op) : Event :=
  match op.kind with
  | .busBegin => .begin
  | .busXfer => .xfer ((op.tx lat).getD 0) rx
  | .busEnd => .finish

/-! ## Whole transactions -/

/-- The state after a command that used the bus: the answers left, the events and the outcome added, the latches unspecified,
everything else as before. -/
def State.after (s : State) (rest : List BusAnswer) (evs : List Event) (o : CmdOutcome) : State :=
  { s with bus := rest, trace := s.trace ++ evs, outcomes := s.outcomes ++ [o], lat := Config.freeLatches s.fresh,
           fresh := s.fresh + 1 }

/-- The bytes received in a transaction of one exchange; what the bus port answers `BusBegin` and `BusEnd` with is no byte of
the chip's and is never looked at. -/
structure Rx1 where
  b : Byte
  h : Byte
  e : Byte

/-- The bytes received in a transaction of two exchanges. -/
structure Rx2 where
  b : Byte
  h : Byte
  v : Byte
  e : Byte

/-- The bytes received in a burst. -/
structure RxN where
  b : Byte
  h : Byte
  vs : List Byte
  e : Byte

def Rx1.answers (x : Rx1) : List BusAnswer := [.done x.b, .done x.h, .done x.e]
def Rx2.answers (x : Rx2) : List BusAnswer := [.done x.b, .done x.h, .done x.v, .done x.e]
def RxN.answers (x : RxN) : List BusAnswer := .done x.b :: .done x.h :: (x.vs.map .done ++ [.done x.e])

/-- The strobe shape (R52). -/
def strobeEvents (c : Addr) (x : Rx1) : List Event := [.begin, .xfer (hdr false false c) x.h, .finish]

/-- The single shape, reading (R52, R53). -/
def readEvents (a : Addr) (x : Rx2) : List Event := [.begin, .xfer (hdr true false a) x.h, .xfer 0x00 x.v, .finish]

/-- The single shape, writing (R52, R53). -/
def writeEvents (a : Addr) (v : Byte) (x : Rx2) : List Event := [.begin, .xfer (hdr false false a) x.h, .xfer v x.v, .finish]

/-- The burst shape, reading (R52, R53). -/
def readBurstEvents (a : Addr) (x : RxN) : List Event :=
  .begin :: .xfer (hdr true true a) x.h :: (x.vs.map (.xfer 0x00 ·) ++ [.finish])

/-- The burst shape, writing `vs` (R52, R53). -/
def writeBurstEvents (a : Addr) (vs : List Byte) (x : RxN) : List Event :=
  .begin :: .xfer (hdr false true a) x.h :: (List.zipWith .xfer vs x.vs ++ [.finish])

/-- The answers to a sequence of polls (R152). -/
def pollAnswers (ps : List Rx2) : List BusAnswer := ps.flatMap Rx2.answers

/-- The events of a sequence of polls with no wait between them (R154). -/
def busyPollEvents (c : Cfg) (ps : List Rx2) : List Event := ps.flatMap (readEvents c.regmap.fsmState)

/-- The events of polls each followed by a wait (R156). -/
def coopPollEvents (c : Cfg) (ps : List Rx2) : List Event :=
  ps.flatMap (fun p => readEvents c.regmap.fsmState p ++ [.wait c.pollIntervalUs])

/-- A poll reads state `t` (R152). -/
def Rx2.reads (c : Cfg) (t : MachineState) (p : Rx2) : Bool := c.decodeState p.v == t

/-- The polls of an await that ends: all but the last, and the last. -/
structure Awaited where
  before : List Rx2
  last : Rx2

def Awaited.answers (w : Awaited) : List BusAnswer := pollAnswers w.before ++ w.last.answers

/-- The events of polls that miss, under either discipline (R154, R156). -/
def missEvents (c : Cfg) (coop : Bool) (ps : List Rx2) : List Event :=
  if coop then coopPollEvents c ps else busyPollEvents c ps

/-- The waits of polls that miss: one after each, under the cooperative discipline only (R156). -/
def missWaits (coop : Bool) (ps : List Rx2) : Nat := if coop then ps.length else 0

/-- The events of an await under either discipline: no wait follows the last poll (R154, R156). -/
def Awaited.events (c : Cfg) (coop : Bool) (w : Awaited) : List Event :=
  missEvents c coop w.before ++ readEvents c.regmap.fsmState w.last

/-- The waits of an await: one after each poll but the last, under the cooperative discipline only (R156). -/
def Awaited.waits (coop : Bool) (w : Awaited) : Nat := missWaits coop w.before

/-- The steps of an await: four micro-operations for each poll (R52, R227), and two steps for each wait, its issue and its end (R23,
R156; log entry 1). -/
def Awaited.steps (coop : Bool) (w : Awaited) : Nat := 4 * (w.before.length + 1) + 2 * w.waits coop

/-- How far the number of RUN counts over an await: its micro-operations and its waits (R23; log entry 12). -/
def Awaited.count (coop : Bool) (w : Awaited) : Nat := 4 * (w.before.length + 1) + w.waits coop

/-- The last poll is the first to read `t`, and it comes within the bound on polling (R153, R155). -/
def Awaited.Reaches (c : Cfg) (t : MachineState) (w : Awaited) : Prop :=
  (∀ p ∈ w.before, p.reads c t = false) ∧ w.last.reads c t = true ∧ ∀ n, c.maxPolls = some n → w.before.length < n

/-- No poll reads `t` and the last uses up the bound on polling (R155). -/
def Awaited.TimesOut (c : Cfg) (t : MachineState) (w : Awaited) : Prop :=
  (∀ p ∈ w.before, p.reads c t = false) ∧ w.last.reads c t = false ∧ c.maxPolls = some (w.before.length + 1)

/-- The state with `n` of the resumptions at the wait port taken (R156). -/
def State.waited (s : State) (n : Nat) : State := { s with resumes := s.resumes - n }

/-- Command `i`, executed in `s`, has made the polls `ps` of an await for `t`, none of which reads it, and goes on: with no outcome
delivered it stands in RUN before its next poll, with the phases `code` after the await. Before the await came `k`
micro-operations and waits, of these `used` waits, with the events `evs`. The number in RUN is log entry 12's, and a wait takes two
steps (log entry 1). -/
def PollsOn (i : Instr) (s : State) (coop : Bool) (t : MachineState) (ps : List Rx2) (k used : Nat) (evs : List Event)
    (code : List Phase) : Prop :=
  ∃ lat : Latches, lat.tgt = t ∧ lat.pcnt = ps.length ∧
    Completes i s (k + used + (4 * ps.length + 2 * missWaits coop ps))
      { s with seq := .run (k + (4 * ps.length + missWaits coop ps)) (.bus (pollJob s.cfg coop code)), lat := lat,
               trace := s.trace ++ (evs ++ missEvents s.cfg coop ps), bus := [],
               resumes := s.resumes - (used + missWaits coop ps) }

/-- READY with the bus closed: how the block stands between commands (R20). -/
def State.Poised (s : State) : Prop := s.seq = .ready ∧ s.busOpen = false

/-- The state after a command refused before any bus activity: no event is added and no answer taken (R90, R192). -/
def State.refused (s : State) (r : Reason) : State := s.after s.bus [] (.err (.invalidArgument r))

/-- The state after a pure command: only the outcome is added (R110, R121). -/
def State.answered (s : State) (v : Value) : State := { s with outcomes := s.outcomes ++ [.ok v] }

/-- The state after an abort: the bus is closed and the block is in READY (R192). -/
def State.aborted (s : State) (rest : List BusAnswer) (evs : List Event) (err : ErrKind) : State :=
  { s.after rest evs (.err err) with seq := .ready, busOpen := false }

/-- The kind of access and the address that a command asks for, where it names an address (R90). -/
def addressing : Instr → Option (Access × Nat)
  | .hdrWriteSingle a _ => some (.write, a.toNat)
  | .hdrReadSingle a => some (.read, a.toNat)
  | .hdrWriteBurst a _ => some (.burst, a.toNat)
  | .hdrReadBurst a _ => some (.burst, a.toNat)
  | .hdrStrobe a => some (.strobe, a.toNat)
  | .rdreg a => some (.read, a)
  | .wrreg a _ => some (.write, a)
  | .modreg a _ => some (.write, a)
  | .rdburst a _ => some (.burst, a)
  | .wrburst a _ => some (.burst, a)
  | .strobe a => some (.strobe, a)
  | .modfield a _ _ => some (.write, a)
  | .strobeCmdReset | .strobeCmdFlushRx | .strobeCmdFlushTx | .strobeCmdRx | .strobeCmdTx | .strobeCmdIdle | .strobeCmdCal
  | .strobeCmdPwd | .strobeCmdNop | .chiprdy | .getfield _ _ | .setfield _ _ _ => none
  | .freqenc _ | .freqdec _ _ _ | .drateenc _ | .dratedec _ _ | .bwenc _ | .bwdec _ _ | .devenc _ | .devdec _ _ | .rssidec _
  | .syncenc _ | .syncdec _ _ => none
  | .modestrobe _ | .awaitbusy _ | .awaitcoop _ | .pollstate _ | .setmode _ _ | .tx _ _ | .txstart _ | .txpoll | .rx => none

/-- What `MEENC` gives target `t` on format `f` with crystal `x` (R126), said of an encoder that delivers its result through
`ok` and its error through `out`: the exponents are tried in ascending order and the first whose rounded mantissa is not too
large decides, by the mantissa if it is not negative, else out of range on the low side; with no such exponent it is out of
range on the high side. One of the three cases holds. -/
def Encodes (f : Fmt) (d : Trend) (x : Nat) (t : Rat) (ok : Value → Prop) (out : Side → Prop) : Prop :=
  let b : Nat → Int := fun e => roundHalfUp (biasedMantissa f x e t)
  let tooLarge : Nat → Prop := fun e => (f.bias + 2 ^ f.mbits : Int) ≤ b e
  (∀ e m : Nat, e < 2 ^ f.ebits → (∀ e' < e, tooLarge e') → b e = f.bias + m → m < 2 ^ f.mbits → ok (.expMant e m)) ∧
  (∀ e : Nat, e < 2 ^ f.ebits → (∀ e' < e, tooLarge e') → b e < f.bias → out (sideLow d)) ∧
  ((∀ e < 2 ^ f.ebits, tooLarge e) → out (sideHigh d)) ∧
  ((∃ e m : Nat, e < 2 ^ f.ebits ∧ (∀ e' < e, tooLarge e') ∧ b e = f.bias + m ∧ m < 2 ^ f.mbits) ∨
   (∃ e : Nat, e < 2 ^ f.ebits ∧ (∀ e' < e, tooLarge e') ∧ b e < f.bias) ∨ ∀ e < 2 ^ f.ebits, tooLarge e)

/-- The targets of a quantity: none is negative (R120), and a biased mantissa of a bandwidth of 0 is undefined (R131). -/
def Trend.target : Trend → Rat → Prop
  | .grows, t => 0 ≤ t
  | .falls, t => 0 < t

/-- What the spec says of the formulas of a format record for crystal `x` (R125, R126): `B(e, V(e, m)) = K + m` for every pair
in the fields, values are positive, and for every target the biased mantissa halves with each exponent of the field, and it
grows with the target where the quantity grows and falls where it falls. -/
structure LawfulFmt (f : Fmt) (d : Trend) (x : Nat) : Prop where
  inverse : ∀ e m : Nat, e < 2 ^ f.ebits → m < 2 ^ f.mbits → biasedMantissa f x e (fmtValue f x e m) = f.bias + m
  positive : ∀ e m : Nat, e < 2 ^ f.ebits → m < 2 ^ f.mbits → 0 < fmtValue f x e m
  halves : ∀ (e : Nat) (t : Rat), e + 1 < 2 ^ f.ebits → d.target t → biasedMantissa f x (e + 1) t = biasedMantissa f x e t / 2
  trend : ∀ (e : Nat) (t u : Rat), e < 2 ^ f.ebits → d.target t → t ≤ u → match d with
    | .grows => biasedMantissa f x e t ≤ biasedMantissa f x e u
    | .falls => biasedMantissa f x e u ≤ biasedMantissa f x e t

/-- The three format records of a configuration are as the spec says (R125). -/
structure LawfulFormats (c : Cfg) : Prop where
  drate : LawfulFmt c.drateFmt .grows c.xtalHz
  dev : LawfulFmt c.devFmt .grows c.xtalHz
  bw : LawfulFmt c.bwFmt .falls c.xtalHz

/-- The registers a receive-quality check reads and its verdict, overflow and CRC, when its reads give the bytes of `xs` after
the bytes `seen` (R178); `none` if `xs` is not as many reads as the check makes. -/
def checkRun : CheckProc → List Byte → List Rx2 → Option (List Addr × Bool × Bool)
  | .found o c, _, [] => some ([], o, c)
  | .found _ _, _, _ :: _ => none
  | .read _ _, _, [] => none
  | .read a rest, seen, x :: xs => (checkRun rest (seen ++ [x.v]) xs).map (fun r => (a :: r.1, r.2))
  | .test idx mask val yes no, seen, xs =>
    if testFires idx mask val seen then checkRun yes seen xs else checkRun no seen xs

/-- The events of the reads of a receive-quality check (R178). -/
def checkEvents (regs : List Addr) (xs : List Rx2) : List Event := (List.zipWith readEvents regs xs).flatten

end Sys2Proof.Machine
end

