-- ==== Sys2Proof/Certificates/Slice0/Obligations.lean ====
section
/-! DEFINITION. The statements put to the provers. They are made for every configuration, every state that meets their hypotheses
and every byte the chip answers with (R63). `State.after`, `State.refused`, `State.answered` and `State.aborted` name the whole
next state, so each equation with one of them is also a frame: what it does not mention is as before. `Completes i s n t` says
that `exec i s` answers a next state, RUN(0) with no micro-operation performed, and that `n` steps of one micro-operation, pin
sample or wait each (R10, R23) lead from it to `t`. That accepting a command is a step of its own is the model's (log entry 1), that the bus port's answers stand ready in a queue is the model's (log
entry 2), that latches hold a free value between commands too (log entry 11); no statement says what a free value is. -/

open Sys2Proof Sys2Proof.Machine

/-! ## Encoding -/

/-- R71: the header byte is the read flag in bit 7, the burst flag in bit 6 and the address in bits 5:0, in all four modes. -/
def Obligations.HeaderByteIsFlagsAndAddress : Prop :=
  ∀ (rw b : Bool) (a : Addr),
    (hdr rw b a).toNat = rw.toNat * 128 + b.toNat * 64 + a.toNat ∧
    hdrAddr (hdr rw b a) = a ∧ hdrBurst (hdr rw b a) = b ∧ hdrRead (hdr rw b a) = rw ∧
    hdr false false a = a.setWidth 8 ∧ hdr true false a = a.setWidth 8 ||| 0x80 ∧
    hdr false true a = a.setWidth 8 ||| 0x40 ∧ hdr true true a = a.setWidth 8 ||| 0xC0

/-- R75: an observer tells the transaction from its header. At a `command` address it is that command's strobe and the two flag
bits are not looked at; at any other address the flags select one of the four accesses. The rows of the nine strobes of R27
are found by their addresses (log entry 9). That the flags tell it at an address with no REGMAP entry too, where R75 gives no
decoding and says only that the header is never emitted, is the model's choice (log entry 25). -/
def Obligations.HeaderDecodesByClass : Prop :=
  ∀ (c : Cfg) (h : Byte),
    (c.isCommand (hdrAddr h) = true → decodeWire c [h] = .ok (strobeRow c (hdrAddr h))) ∧
    (c.valid = true → ∀ p ∈ c.namedStrobes, hdrAddr h = p.1 → decodeWire c [h] = .ok p.2) ∧
    (c.isCommand (hdrAddr h) = false →
      (hdrRead h = false → hdrBurst h = false → ∀ v, decodeWire c [h, v] = .ok (.hdrWriteSingle (hdrAddr h) v)) ∧
      (hdrRead h = true → hdrBurst h = false → decodeWire c [h, 0x00] = .ok (.hdrReadSingle (hdrAddr h))) ∧
      (hdrRead h = false → hdrBurst h = true → ∀ vs, decodeWire c (h :: vs) = .ok (.hdrWriteBurst (hdrAddr h) vs)) ∧
      (hdrRead h = true → hdrBurst h = true → ∀ n,
        decodeWire c (h :: List.replicate n 0x00) = .ok (.hdrReadBurst (hdrAddr h) n)))

/-- Words written out from the spec decode to their instructions: headers of 95_test_vectors.md V1 and V2 under TESTMAP, and
command codes of R83. The operand bytes after a code are the model's own (log entry 8). So is how a word becomes an offer: that
a lone access header stands with one data byte 0, so that 0xFE is a read-burst of exactly one byte, and that 0x07, which is a
header too, is read as a command code (log entry 9). -/
def Obligations.SpecWordsDecode : Prop :=
  decodeTableWord 8 0xA5 = some (.hdrReadSingle 0x25) ∧ decodeTableWord 16 0x100D = some (.hdrWriteSingle 0x0D 0x10) ∧
  decodeTableWord 24 0x00C07E = some (.hdrWriteBurst 0x3E [0xC0, 0x00]) ∧ decodeTableWord 8 0xFE = some (.hdrReadBurst 0x3E 1) ∧
  decodeTableWord 8 0x36 = some .strobeCmdIdle ∧ decodeTableWord 8 0x3D = some .strobeCmdNop ∧
  decodeTableWord 8 0x07 = some .chiprdy ∧ decodeTableWord 16 0x2501 = some (.rdreg 0x25) ∧
  decodeTableWord 24 0x100D02 = some (.wrreg 0x0D 0x10) ∧ decodeTableWord 32 0x47030408 = some (.getfield ⟨4, 3⟩ 0x47) ∧
  decodeTableWord 24 0x750A13 = some (.dratedec 10 117) ∧ decodeTableWord 24 0x000324 = some (.setmode .calibrate .busy) ∧
  decodeTableWord 8 0x32 = some .txpoll

/-- Decoding the encoding of a well-formed instruction gives it back, every operand at every value. Header bytes are R71's and R72's,
command codes R83's. The rest of the encoding is the model's: the operand bytes after a code (log entry 8), the bytes of MODREG's `f`
(log entry 7), that wire-level rows are offered as the bytes they send, and the row of a strobe (log entry 9), and the decoding of a
header at an address with no REGMAP entry (log entry 25). -/
def Obligations.DecodeOfEncode : Prop :=
  ∀ (c : Cfg) (i : Instr), c.valid = true → i.wf c = true → decodeOffer c (encode c i) = .ok i

/-- R83: a code that R83 assigns to no command is answered InvalidArgument with no bus activity, whatever bytes follow. The reason
name commandCode is the model's (log entry 28); the latches are then free (log entry 11). -/
def Obligations.UnassignedCodeRefused : Prop :=
  ∀ (s : State) (code : Byte) (bs : List Byte), s.Poised → s.resetIn = false → code ∉ commandCodes →
    s.port = some (.command (code :: bs)) → step s = .next (State.refused { s with port := none } .commandCode)

/-! ## The machine -/

/-- R34: after reset the block is READY with its bus closed, and waits. The latches, which the spec leaves unspecified, are not
spoken of. -/
def Obligations.ResetIsReady : Prop :=
  State.reset.seq = .ready ∧ State.reset.busOpen = false ∧ State.reset.trace = [] ∧ State.reset.outcomes = [] ∧
  step State.reset = .next State.reset

/-- R210: a reset in any phase makes the block READY, where it accepts commands, and closes its bus; the latches become unspecified
(a free value, log entry 11); `Reset` is all that the trace gains, no outcome is delivered and no BusEnd performed. Neither a
command nor the block raises it. That a reset is taken at the start of a step, and that offers, bus answers, the pin level and
ended waits standing at the ports survive it, is the model's (log entry 22). -/
def Obligations.BlockResetInAnyPhase : Prop :=
  (∀ s : State, s.resetIn = true → step s = .next
    { s with seq := .ready, busOpen := false, lat := Config.freeLatches s.fresh, fresh := s.fresh + 1,
             trace := s.trace ++ [.reset], resetIn := false }) ∧
  (∀ s t : State, step s = .next t → t.resetIn = false) ∧
  (∀ (i : Instr) (s t : State), exec i s = .next t → t.resetIn = s.resetIn)

/-- In READY, with no reset, a step takes the offer from the command port and executes what it decodes to (R11, R65). An offer whose
operand bytes do not have the form of any instruction is answered InvalidArgument with no bus activity: the form, and the reason
operandForm, are the model's (log entry 8), and the latches are then free (log entry 11). -/
def Obligations.StepRunsDecodedInstruction : Prop :=
  ∀ (s : State) (o : Offer), s.seq = .ready → s.resetIn = false → s.port = some o →
    (∀ i, decodeOffer s.cfg o = .ok i → step s = exec i { s with port := none }) ∧
    (decodeOffer s.cfg o = .error .operandForm → s.busOpen = false →
      step s = .next (State.refused { s with port := none } .operandForm))

/-- An opcode-table word placed for the next step is the instruction the next step executes, with its offer taken from the command
port; nothing else the instruction sees is changed (log entry 19). -/
def Obligations.FetchWordIsFetched : Prop :=
  ∀ (s : State) (nbits w : Nat) (i : Instr), decodeOffer s.cfg (offerOfWord s.cfg nbits w) = .ok i →
    step (s.withFetchWord nbits w) = exec i { s with seq := .ready, busOpen := false, resetIn := false, port := none }

/-- A block that no input reaches stays as it is: READY with nothing offered (R34, R60 iii), at a bus micro-operation with no
answer from the bus port, WAITING with the wait port silent (R156). -/
def Obligations.NothingWithoutInput : Prop :=
  ∀ s : State, s.resetIn = false →
    (s.seq = .ready → s.port = none → step s = .next s) ∧
    (∀ k j, s.seq = .run k (.bus j) → s.bus = [] → step s = .next s) ∧
    (∀ k code, s.seq = .waiting k code → s.resumes = 0 → step s = .next s)

/-- R10, R23: in RUN(k) a step performs exactly the one task numbered `k`, however many answers stand at the bus port: one bus
micro-operation with the oldest answer, or the pin sample, or the issue of a wait; that is all that the trace gains, and where
the command goes on in RUN its number is `k + 1`. A wait is counted when it has ended, and WAITING keeps `k` (log entry 12);
that it is issued in one step and ended in another (log entry 1), by a resumption counted at the wait port (log entry 21), is the
model's too. -/
def Obligations.OneStepOneMicroOperation : Prop :=
  ∀ (s : State) (k : Nat), s.Framed → s.resetIn = false →
    (∀ (j : Job) (rx : Byte) (rest : List BusAnswer), s.seq = .run k (.bus j) → s.bus = .done rx :: rest →
      ∃ t, step s = .next t ∧ t.bus = rest ∧ t.resumes = s.resumes ∧ t.trace = s.trace ++ [j.op.event s.lat rx] ∧
        (t.seq = .ready ∨ ∃ task, t.seq = .run (k + 1) task)) ∧
    (∀ code, s.seq = .run k (.pin code) →
      ∃ t, step s = .next t ∧ t.bus = s.bus ∧ t.resumes = s.resumes ∧ t.trace = s.trace ++ [.pin s.pinLevel] ∧
        (t.seq = .ready ∨ ∃ task, t.seq = .run (k + 1) task)) ∧
    (∀ code, s.seq = .run k (.wait code) →
      step s = .next { s with seq := .waiting k code, trace := s.trace ++ [.wait s.cfg.pollIntervalUs] }) ∧
    (∀ code, s.seq = .waiting k code → s.resumes ≠ 0 →
      step s = .next { s with seq := .run (k + 1) (.bus (pollJob s.cfg true code)), resumes := s.resumes - 1 })

/-- Every step keeps the framing invariant: one Begin, its header first, one closing event, and BUS.open exactly in between (R98,
R20, R51, R52). -/
def Obligations.StepKeepsFramed : Prop :=
  ∀ s t : State, s.Framed → step s = .next t → t.Framed

/-- From a state that meets the framing invariant no step ends in a fault or a refusal: no micro-operation meets a bus that is
open or closed against its requirement (R51), and no command is executed outside READY (R65). -/
def Obligations.FramedStepNeverStops : Prop :=
  ∀ s : State, s.Framed → ∃ t, step s = .next t

/-- The state after reset meets the three invariants, and its configuration is one the spec admits. The configuration is the model's
choice (log entry 3), and so are the bounds on its lengths (log entry 27). -/
def Obligations.ResetMeetsInvariants : Prop :=
  State.reset.Framed ∧ State.reset.Legal ∧ State.reset.Serial ∧ State.reset.cfg.valid = true

/-- R76: no trace of the block contains a header that R76 says is never emitted: from a state that meets the framing invariant,
every step keeps the legality invariant. -/
def Obligations.StepKeepsLegal : Prop :=
  ∀ s t : State, s.cfg.valid = true → s.Framed → s.Legal → step s = .next t → t.Legal

/-- What the host, the chip and the environment do touches inputs only: the invariants, the trace and the outcomes stay (R10,
R11). Every move but an offer can be made in every state. -/
def Obligations.MovesTouchInputsOnly : Prop :=
  (∀ (s t : State) (m : Move), s.move m = .next t → (s.Framed → t.Framed) ∧ (s.Legal → t.Legal) ∧
    t.seq = s.seq ∧ t.busOpen = s.busOpen ∧ t.lat = s.lat ∧ t.trace = s.trace ∧ t.outcomes = s.outcomes) ∧
  (∀ (s : State) (m : Move), (∀ o, m ≠ .offer o) → ∃ t, s.move m = .next t)

/-- R33: neither a step nor a move of another agent changes the configuration. -/
def Obligations.ConfigurationNeverChanges : Prop :=
  (∀ s t : State, step s = .next t → t.cfg = s.cfg) ∧ (∀ (s t : State) (m : Move), s.move m = .next t → t.cfg = s.cfg)

/-- R8, R185, R213: a step adds to the trace and delivers at most one outcome; delivering it leaves the block READY. Outside a block
reset a step that leaves it READY has delivered exactly one wherever a command was running, or was offered and taken: a command
that ends in the step that accepts it, whatever its offer decodes to, ends with exactly one too. Of an offer whose operand bytes have the
form of no instruction R8 and R185 do not speak, and R83 only of unassigned codes: that it is answered, and so ends with one
outcome, is the model's (log entry 8). -/
def Obligations.OneOutcomeEndsACommand : Prop :=
  ∀ s t : State, step s = .next t →
    ∃ evs os, t.trace = s.trace ++ evs ∧ t.outcomes = s.outcomes ++ os ∧ os.length ≤ 1 ∧
      (os ≠ [] → s.Framed → t.seq = .ready ∧ t.busOpen = false) ∧
      (s.seq ≠ .ready → s.resetIn = false → t.seq = .ready → os.length = 1) ∧
      (∀ o, s.seq = .ready → s.resetIn = false → s.port = some o → t.port = none ∧ (t.seq = .ready → os.length = 1))

/-- R65, R226: a command can be offered only in READY, to a command port with no offer on it. Outside READY an offer is a fault of
the host and gets no result, and from a state where none stands outside READY neither a step nor a move leads to one where one
does; a step takes no offer while a command runs, and executing one there is a fault. The fault's form, and that an offer while
another stands is one too, are the model's (log entry 14). -/
def Obligations.AcceptedOnlyInReady : Prop :=
  (∀ (s : State) (o : Offer),
    (s.seq = .ready → s.port = none → s.move (.offer o) = .next { s with port := some o }) ∧
    (s.seq = .ready → s.port ≠ none → s.move (.offer o) = .fault .portOccupied) ∧
    (s.seq ≠ .ready → s.move (.offer o) = .fault .offeredOutsideReady)) ∧
  (∀ (s t : State), s.Serial → (step s = .next t ∨ ∃ m, s.move m = .next t) → t.Serial) ∧
  (∀ s t : State, s.seq ≠ .ready → step s = .next t → t.port = s.port) ∧
  (∀ (i : Instr) (s : State), s.seq ≠ .ready → exec i s = .fault .offeredOutsideReady)

/-! ## Errors -/

/-- R90: the checks of an addressed command in their order, each before any bus activity: range, mapping, class, then the byte
operand (every element of a burst, log entry 13), then the length of every burst, of the wire-level rows too (R56); and which
classes admit which access. -/
def Obligations.RefusedBeforeBusActivity : Prop :=
  (∀ (s : State) (i : Instr) (acc : Access) (a : Nat), s.Poised → addressing i = some (acc, a) →
    (63 < a → exec i s = .next (s.refused .addressRange)) ∧
    (a ≤ 63 → s.cfg.classAt (BitVec.ofNat 6 a) = none → exec i s = .next (s.refused .unmapped)) ∧
    (∀ cls, a ≤ 63 → s.cfg.classAt (BitVec.ofNat 6 a) = some cls → cls.admits acc = false →
      exec i s = .next (s.refused .accessClass))) ∧
  (∀ (s : State) (a : Addr) (v : Nat), s.Poised → s.cfg.allows .write a = true → 255 < v →
    exec (.wrreg a.toNat v) s = .next (s.refused .byteRange)) ∧
  (∀ (s : State) (a : Addr) (vs : List Nat), s.Poised → s.cfg.allows .burst a = true →
    ((∃ v ∈ vs, 255 < v) → exec (.wrburst a.toNat vs) s = .next (s.refused .byteRange)) ∧
    ((∀ v ∈ vs, v ≤ 255) → ¬ (1 ≤ vs.length ∧ vs.length ≤ maxBurst s.cfg a) →
      exec (.wrburst a.toNat vs) s = .next (s.refused .length))) ∧
  (∀ (s : State) (a : Addr) (n : Nat), s.Poised → s.cfg.allows .burst a = true → ¬ (1 ≤ n ∧ n ≤ maxBurst s.cfg a) →
    exec (.rdburst a.toNat n) s = .next (s.refused .length) ∧ exec (.hdrReadBurst a n) s = .next (s.refused .length)) ∧
  (∀ (s : State) (a : Addr) (vs : List Byte), s.Poised → s.cfg.allows .burst a = true →
    ¬ (1 ≤ vs.length ∧ vs.length ≤ maxBurst s.cfg a) → exec (.hdrWriteBurst a vs) s = .next (s.refused .length)) ∧
  (∀ cls : AccessClass, (cls.admits .read = true ↔ cls ≠ .command) ∧
    (cls.admits .write = true ↔ cls = .config ∨ ∃ n, cls = .region n) ∧ (cls.admits .burst = true ↔ ∃ n, cls = .region n) ∧
    (cls.admits .strobe = true ↔ cls = .command))

/-- R99, R192: a micro-operation that fails adds `Fail` to the trace and is not tried again. After a failed BusBegin or BusEnd the
command has ended with `Transport(e)`. After a failed BusXfer the block stands in RUN, bus open and no outcome delivered, before
one closing BusEnd: it stays there while the bus port is silent, and when that BusEnd completes or fails, which is recorded and
ignored, the command ends with `Transport(e)`. An end leaves the block READY, the bus closed and the latches discarded,
whatever the command had received. That RUN keeps its number `k` at the closing BusEnd is the model's (log entry 12), that discarded
latches hold a free value too (log entry 11). -/
def Obligations.FailedMicroOperationAborts : Prop :=
  ∀ (s : State) (k : Nat) (j : Job) (rest : List BusAnswer), s.seq = .run k (.bus j) → s.Framed → s.resetIn = false →
    (∀ e, s.bus = .fail e :: rest →
      (j.op.kind = .busBegin → step s = .next (s.aborted rest [.fail .busBegin e] (.transport e))) ∧
      (j.op = .finish → step s = .next (s.aborted rest [.fail .busEnd e] (.transport e))) ∧
      (j.op.kind = .busXfer → ∃ u, step s = .next u ∧ s.busOpen = true ∧
        u = { s with seq := .run k (.bus ⟨.closing (.transport e), [], .proceed, []⟩), bus := rest,
                     trace := s.trace ++ [.fail .busXfer e] } ∧
        (rest = [] → step u = .next u) ∧
        (∀ x left, rest = .done x :: left →
          step u = .next (s.aborted left [.fail .busXfer e, .finish] (.transport e))) ∧
        (∀ e2 left, rest = .fail e2 :: left →
          step u = .next (s.aborted left [.fail .busXfer e, .fail .busEnd e2] (.transport e)))) ∧
      (∀ err, j.op = .closing err → step s = .next (s.aborted rest [.fail .busEnd e] err))) ∧
    (∀ err x, s.bus = .done x :: rest → j.op = .closing err → step s = .next (s.aborted rest [.finish] err))

/-! ## Bus Framer commands, and the wire-level rows they are made of -/

/-- R91: a single read sends the header and a zero byte and returns the byte received in the second exchange. -/
def Obligations.RdregReads : Prop :=
  ∀ (s : State) (a : Addr) (x : Rx2) (rest : List BusAnswer), s.Poised → s.resetIn = false →
    s.cfg.allows .read a = true → s.bus = x.answers ++ rest →
    Completes (.rdreg a.toNat) s 4 (s.after rest (readEvents a x) (.ok (.byte x.v))) ∧
    Completes (.hdrReadSingle a) s 4 (s.after rest (readEvents a x) (.ok (.byte x.v)))

/-- R92: a single write sends the header and the byte, and discards both bytes received. -/
def Obligations.WrregWrites : Prop :=
  ∀ (s : State) (a : Addr) (v : Byte) (x : Rx2) (rest : List BusAnswer), s.Poised → s.resetIn = false →
    s.cfg.allows .write a = true → s.bus = x.answers ++ rest →
    Completes (.wrreg a.toNat v.toNat) s 4 (s.after rest (writeEvents a v x) (.ok .unit)) ∧
    Completes (.hdrWriteSingle a v) s 4 (s.after rest (writeEvents a v x) (.ok .unit))

/-- R97: a modify reads the register and writes `f` of the byte read, even where that is the byte read; any total function on
bytes can be `f`, and under another MODFN_FORM `f` is what its byte string presents (log entry 7). -/
def Obligations.ModregReadsThenWrites : Prop :=
  (∀ (s : State) (a : Addr) (f : ModFn) (x y : Rx2) (rest : List BusAnswer), s.Poised → s.resetIn = false →
    s.cfg.allows .write a = true → s.bus = x.answers ++ (y.answers ++ rest) →
    Completes (.modreg a.toNat f) s 8
      (s.after rest (readEvents a x ++ writeEvents a (applyModFn f x.v) y) (.ok .unit))) ∧
  (∀ (g : Byte → Byte) (b : Byte), applyModFn (modFnOf g) b = g b)

/-- R93: a burst read returns the `n` bytes received after the header, in the order received. -/
def Obligations.RdburstReads : Prop :=
  ∀ (s : State) (a : Addr) (x : RxN) (rest : List BusAnswer), s.Poised → s.resetIn = false → s.cfg.valid = true →
    s.cfg.allows .burst a = true → 1 ≤ x.vs.length → x.vs.length ≤ maxBurst s.cfg a → s.bus = x.answers ++ rest →
    Completes (.rdburst a.toNat x.vs.length) s (x.vs.length + 3) (s.after rest (readBurstEvents a x) (.ok (.bytes x.vs))) ∧
    Completes (.hdrReadBurst a x.vs.length) s (x.vs.length + 3) (s.after rest (readBurstEvents a x) (.ok (.bytes x.vs)))

/-- R94: a burst write sends the header and the payload, element 0 first, and discards every byte received. -/
def Obligations.WrburstWrites : Prop :=
  ∀ (s : State) (a : Addr) (vs : List Byte) (x : RxN) (rest : List BusAnswer), s.Poised → s.resetIn = false →
    s.cfg.valid = true → s.cfg.allows .burst a = true → 1 ≤ vs.length → vs.length ≤ maxBurst s.cfg a →
    x.vs.length = vs.length → s.bus = x.answers ++ rest →
    Completes (.wrburst a.toNat (vs.map BitVec.toNat)) s (vs.length + 3) (s.after rest (writeBurstEvents a vs x) (.ok .unit)) ∧
    Completes (.hdrWriteBurst a vs) s (vs.length + 3) (s.after rest (writeBurstEvents a vs x) (.ok .unit))

/-- R95: a strobe is one exchange with no data phase and returns the byte received in it, uninterpreted. -/
def Obligations.StrobeReturnsStatus : Prop :=
  ∀ (s : State) (c : Addr) (x : Rx1) (rest : List BusAnswer), s.Poised → s.resetIn = false →
    s.cfg.allows .strobe c = true → s.bus = x.answers ++ rest →
    Completes (.strobe c.toNat) s 3 (s.after rest (strobeEvents c x) (.ok (.byte x.h))) ∧
    Completes (.hdrStrobe c) s 3 (s.after rest (strobeEvents c x) (.ok (.byte x.h)))

/-- R27, R72, R95: each of the nine named strobes is the strobe of its own address; `p` runs over their rows STROBE_CMD_RESET,
STROBE_CMD_FLUSH_RX, STROBE_CMD_FLUSH_TX, STROBE_CMD_RX, STROBE_CMD_TX, STROBE_CMD_IDLE, STROBE_CMD_CAL, STROBE_CMD_PWD and
STROBE_CMD_NOP. -/
def Obligations.NamedStrobesAreStrobes : Prop :=
  ∀ (s : State) (p : Addr × Instr) (x : Rx1) (rest : List BusAnswer), s.Poised → s.resetIn = false → s.cfg.valid = true →
    p ∈ s.cfg.namedStrobes → s.bus = x.answers ++ rest →
    Completes p.2 s 3 (s.after rest (strobeEvents p.1 x) (.ok (.byte x.h)))

/-- R96: CHIPRDY is one no-op strobe and is true exactly when bit 7 of the status byte is 0. -/
def Obligations.ChiprdyTestsBitSeven : Prop :=
  ∀ (s : State) (x : Rx1) (rest : List BusAnswer), s.Poised → s.resetIn = false → s.bus = x.answers ++ rest →
    Completes .chiprdy s 3 (s.after rest (strobeEvents s.cfg.regmap.cmdNop x) (.ok (.bool (decide (x.h.toNat < 128)))))

/-! ## Bitfields -/

/-- R110: GETFIELD is pure and returns `(b >> o) & ((1 << w) - 1)`; an ill-formed field or byte is refused. -/
def Obligations.GetfieldExtracts : Prop :=
  ∀ (s : State) (f : Field) (b : Nat),
    (s.seq = .ready → 1 ≤ f.w → f.o + f.w ≤ 8 → b ≤ 255 →
      exec (.getfield f b) s = .next (s.answered (.field (b / 2 ^ f.o % 2 ^ f.w)))) ∧
    (s.Poised → ¬ (1 ≤ f.w ∧ f.o + f.w ≤ 8 ∧ b ≤ 255) → exec (.getfield f b) s = .next (s.refused .field))

/-- R111: SETFIELD is pure; bit `i` of its result is bit `i - o` of `v` inside the field and bit `i` of `b` outside; an ill-formed
field or byte is refused first, then a value too wide for the field. -/
def Obligations.SetfieldReplacesField : Prop :=
  ∀ (s : State) (f : Field) (b v : Nat),
    (s.seq = .ready → 1 ≤ f.w → f.o + f.w ≤ 8 → b ≤ 255 → v < 2 ^ f.w →
      ∃ r : Byte, exec (.setfield f b v) s = .next (s.answered (.byte r)) ∧
        ∀ i < 8, r.getLsbD i = if f.o ≤ i ∧ i < f.o + f.w then v.testBit (i - f.o) else b.testBit i) ∧
    (s.Poised → ¬ (1 ≤ f.w ∧ f.o + f.w ≤ 8 ∧ b ≤ 255) → exec (.setfield f b v) s = .next (s.refused .field)) ∧
    (s.Poised → 1 ≤ f.w → f.o + f.w ≤ 8 → b ≤ 255 → 2 ^ f.w ≤ v →
      exec (.setfield f b v) s = .next (s.refused .fieldValue))

/-- R112: reading back a field that was set gives the value set; bits outside the field keep their values; fields that do not
overlap can be set in either order. R29: so it is with the named sub-fields of a BitfieldValue, whose places are those of its
entry's layout. -/
def Obligations.FieldLocality : Prop :=
  (∀ (f : Field) (b : Byte) (v : Nat), f.ok = true → v < 2 ^ f.w →
    getField f (setField f b v) = v ∧
    (∀ i < 8, ¬ (f.o ≤ i ∧ i < f.o + f.w) → (setField f b v).getLsbD i = b.getLsbD i) ∧
    (∀ (g : Field) (u : Nat), g.ok = true → u < 2 ^ g.w → f.o + f.w ≤ g.o ∨ g.o + g.w ≤ f.o →
      setField g (setField f b v) u = setField f (setField g b u) v)) ∧
  (∀ (c : Cfg) (v : BitfieldValue) (n : FieldName) (f : Field) (u : Nat), subField c v n = some f → f.ok = true → u < 2 ^ f.w →
    ∃ w, setSubField c v n u = some w ∧ w.entry = v.entry ∧ getSubField c w n = some u ∧
      ∀ (n' : FieldName) (g : Field), subField c v n' = some g → g.ok = true → f.o + f.w ≤ g.o ∨ g.o + g.w ≤ f.o →
        getSubField c w n' = getSubField c v n')

/-- R113: MODFIELD reads the register and writes back the byte read with the field set; its field and value are checked after its
address and before any bus activity. -/
def Obligations.ModfieldSetsField : Prop :=
  ∀ (s : State) (a : Addr) (f : Field) (v : Nat), s.Poised → s.cfg.allows .write a = true →
    (∀ (x y : Rx2) (rest : List BusAnswer), s.resetIn = false → f.ok = true → v < 2 ^ f.w →
      s.bus = x.answers ++ (y.answers ++ rest) →
      Completes (.modfield a.toNat f v) s 8
        (s.after rest (readEvents a x ++ writeEvents a (setField f x.v v) y) (.ok .unit))) ∧
    (f.ok = false → exec (.modfield a.toNat f v) s = .next (s.refused .field)) ∧
    (f.ok = true → 2 ^ f.w ≤ v → exec (.modfield a.toNat f v) s = .next (s.refused .fieldValue))

/-! ## The codec -/

/-- R123: FREQENC splits `round(hz * 65536 / X)` into its high, middle and low byte, and is OutOfRange(Above) exactly from
`(2^24 - 1/2) * X / 65536` on. -/
def Obligations.FreqencSplitsWord : Prop :=
  ∀ (s : State) (hz : Quantity), s.cfg.valid = true →
    (∀ hi mid lo : Byte, s.seq = .ready →
      ⌊hz.val * 65536 / s.cfg.xtalHz + 1 / 2⌋ = (hi.toNat * 65536 + mid.toNat * 256 + lo.toNat : Int) →
      exec (.freqenc hz) s = .next (s.answered (.triple hi mid lo))) ∧
    (s.Poised → (2 ^ 24 - 1 / 2) * s.cfg.xtalHz / 65536 ≤ hz.val →
      exec (.freqenc hz) s = .next (s.after s.bus [] (.err (.outOfRange .above)))) ∧
    (hz.val < (2 ^ 24 - 1 / 2) * s.cfg.xtalHz / 65536 →
      ∃ hi mid lo : Byte, ⌊hz.val * 65536 / s.cfg.xtalHz + 1 / 2⌋ = (hi.toNat * 65536 + mid.toNat * 256 + lo.toNat : Int))

/-- R124: FREQDEC is exact, `F * X / 65536`; it undoes FREQENC within half a step, and FREQENC undoes it exactly. -/
def Obligations.FreqdecInverts : Prop :=
  ∀ (s : State) (hi mid lo : Nat),
    (s.seq = .ready → hi ≤ 255 → mid ≤ 255 → lo ≤ 255 →
      exec (.freqdec hi mid lo) s =
        .next (s.answered (.rational ((hi * 65536 + mid * 256 + lo) * s.cfg.xtalHz / 65536)))) ∧
    (s.Poised → 255 < hi ∨ 255 < mid ∨ 255 < lo → exec (.freqdec hi mid lo) s = .next (s.refused .byteRange)) ∧
    (s.cfg.valid = true → ∀ (hz : Quantity) (h m l : Byte),
      (s.seq = .ready → hz.val = freqDec s.cfg.xtalHz h m l → exec (.freqenc hz) s = .next (s.answered (.triple h m l))) ∧
      (exec (.freqenc hz) s = .next (s.answered (.triple h m l)) →
        |freqDec s.cfg.xtalHz h m l - hz.val| ≤ s.cfg.xtalHz / 131072))

/-- R125: the default format records have the formulas of the rule's table, `K = 2^mbits` and `B(e, V(e, m)) = K + m`; data rate
and deviation grow with `e` and with `m`, bandwidth shrinks. -/
def Obligations.DefaultFormatRecords : Prop :=
  ∀ x : Nat, 1 ≤ x →
    (∀ f ∈ [Fmt.drateDefault, Fmt.devDefault, Fmt.bwDefault], f.bias = 2 ^ f.mbits ∧
      ∀ e m, biasedMantissa f x e (fmtValue f x e m) = f.bias + m) ∧
    (∀ (e m : Nat) (t : Rat),
      biasedMantissa .drateDefault x e t = t * 2 ^ 28 / (x * 2 ^ e) ∧
      fmtValue .drateDefault x e m = (256 + m) * 2 ^ e * x / 2 ^ 28 ∧
      biasedMantissa .devDefault x e t = t * 2 ^ 17 / (x * 2 ^ e) ∧
      fmtValue .devDefault x e m = (8 + m) * 2 ^ e * x / 2 ^ 17 ∧
      biasedMantissa .bwDefault x e t = x / (8 * t * 2 ^ e) ∧
      fmtValue .bwDefault x e m = x / (8 * (4 + m) * 2 ^ e)) ∧
    (∀ f ∈ [Fmt.drateDefault, Fmt.devDefault], ∀ e m : Nat,
      fmtValue f x e m < fmtValue f x e (m + 1) ∧ fmtValue f x e m < fmtValue f x (e + 1) m) ∧
    (∀ e m : Nat, fmtValue .bwDefault x e (m + 1) < fmtValue .bwDefault x e m ∧
      fmtValue .bwDefault x (e + 1) m < fmtValue .bwDefault x e m)

/-- R126: DRATEENC, DEVENC and BWENC follow the search rule over their format records, whatever formulas these have; where the
formulas are as R125 and R126 say, a negative mantissa arises only at exponent 0. -/
def Obligations.EncodersTakeSmallestExponent : Prop :=
  ∀ (s : State) (q : Quantity), s.Poised →
    Encodes s.cfg.drateFmt .grows s.cfg.xtalHz q.val (fun v => exec (.drateenc q) s = .next (s.answered v))
      (fun d => exec (.drateenc q) s = .next (s.after s.bus [] (.err (.outOfRange d)))) ∧
    Encodes s.cfg.devFmt .grows s.cfg.xtalHz q.val (fun v => exec (.devenc q) s = .next (s.answered v))
      (fun d => exec (.devenc q) s = .next (s.after s.bus [] (.err (.outOfRange d)))) ∧
    (q.val ≠ 0 → Encodes s.cfg.bwFmt .falls s.cfg.xtalHz q.val (fun v => exec (.bwenc q) s = .next (s.answered v))
      (fun d => exec (.bwenc q) s = .next (s.after s.bus [] (.err (.outOfRange d))))) ∧
    (q.val = 0 → exec (.bwenc q) s = .next (s.after s.bus [] (.err (.outOfRange .below)))) ∧
    (s.cfg.valid = true → LawfulFormats s.cfg →
      ∀ p ∈ [(s.cfg.drateFmt, Trend.grows), (s.cfg.devFmt, .grows), (s.cfg.bwFmt, .falls)], p.2.target q.val →
        ∀ e < 2 ^ p.1.ebits,
          (∀ e' < e, (p.1.bias + 2 ^ p.1.mbits : Int) ≤ roundHalfUp (biasedMantissa p.1 s.cfg.xtalHz e' q.val)) →
          roundHalfUp (biasedMantissa p.1 s.cfg.xtalHz e q.val) < p.1.bias → e = 0)

/-- R127, R129, R131: the accepted range of each encoder under the default format record of R125, for every crystal. -/
def Obligations.EncoderRanges : Prop :=
  ∀ (s : State) (q : Quantity), s.Poised → s.cfg.valid = true →
    (s.cfg.drateFmt = .drateDefault →
      (q.val * 2 ^ 28 / s.cfg.xtalHz < 255 + 1 / 2 →
        exec (.drateenc q) s = .next (s.after s.bus [] (.err (.outOfRange .below)))) ∧
      (511 + 1 / 2 ≤ q.val * 2 ^ 28 / (s.cfg.xtalHz * 2 ^ 15) →
        exec (.drateenc q) s = .next (s.after s.bus [] (.err (.outOfRange .above)))) ∧
      (255 + 1 / 2 ≤ q.val * 2 ^ 28 / s.cfg.xtalHz → q.val * 2 ^ 28 / (s.cfg.xtalHz * 2 ^ 15) < 511 + 1 / 2 →
        ∃ e m, e ≤ 15 ∧ m ≤ 255 ∧ exec (.drateenc q) s = .next (s.answered (.expMant e m)))) ∧
    (s.cfg.devFmt = .devDefault →
      (q.val * 2 ^ 17 / s.cfg.xtalHz < 7 + 1 / 2 →
        exec (.devenc q) s = .next (s.after s.bus [] (.err (.outOfRange .below)))) ∧
      (15 + 1 / 2 ≤ q.val * 2 ^ 17 / (s.cfg.xtalHz * 2 ^ 7) →
        exec (.devenc q) s = .next (s.after s.bus [] (.err (.outOfRange .above)))) ∧
      (7 + 1 / 2 ≤ q.val * 2 ^ 17 / s.cfg.xtalHz → q.val * 2 ^ 17 / (s.cfg.xtalHz * 2 ^ 7) < 15 + 1 / 2 →
        ∃ e m, e ≤ 7 ∧ m ≤ 7 ∧ exec (.devenc q) s = .next (s.answered (.expMant e m)))) ∧
    (s.cfg.bwFmt = .bwDefault →
      ((s.cfg.xtalHz : Rat) / 28 < q.val → exec (.bwenc q) s = .next (s.after s.bus [] (.err (.outOfRange .above)))) ∧
      (q.val ≤ (s.cfg.xtalHz : Rat) / 480 → exec (.bwenc q) s = .next (s.after s.bus [] (.err (.outOfRange .below)))) ∧
      ((s.cfg.xtalHz : Rat) / 480 < q.val → q.val ≤ (s.cfg.xtalHz : Rat) / 28 →
        ∃ e m, e ≤ 3 ∧ m ≤ 3 ∧ exec (.bwenc q) s = .next (s.answered (.expMant e m))))

/-- R128, R130, R132: each decoder returns exactly the value of its format record, which under the default record of R125 is the
value its rule gives; an operand outside its field is refused. -/
def Obligations.DecodersAreExact : Prop :=
  ∀ (s : State) (e m : Nat),
    (s.seq = .ready →
      (e < 2 ^ s.cfg.drateFmt.ebits → m < 2 ^ s.cfg.drateFmt.mbits →
        exec (.dratedec e m) s = .next (s.answered (.rational (fmtValue s.cfg.drateFmt s.cfg.xtalHz e m)))) ∧
      (e < 2 ^ s.cfg.devFmt.ebits → m < 2 ^ s.cfg.devFmt.mbits →
        exec (.devdec e m) s = .next (s.answered (.rational (fmtValue s.cfg.devFmt s.cfg.xtalHz e m)))) ∧
      (e < 2 ^ s.cfg.bwFmt.ebits → m < 2 ^ s.cfg.bwFmt.mbits →
        exec (.bwdec e m) s = .next (s.answered (.rational (fmtValue s.cfg.bwFmt s.cfg.xtalHz e m))))) ∧
    (s.Poised →
      (2 ^ s.cfg.drateFmt.ebits ≤ e ∨ 2 ^ s.cfg.drateFmt.mbits ≤ m → exec (.dratedec e m) s = .next (s.refused .fieldValue)) ∧
      (2 ^ s.cfg.devFmt.ebits ≤ e ∨ 2 ^ s.cfg.devFmt.mbits ≤ m → exec (.devdec e m) s = .next (s.refused .fieldValue)) ∧
      (2 ^ s.cfg.bwFmt.ebits ≤ e ∨ 2 ^ s.cfg.bwFmt.mbits ≤ m → exec (.bwdec e m) s = .next (s.refused .fieldValue))) ∧
    (s.cfg.drateFmt = .drateDefault →
      (s.seq = .ready → e ≤ 15 → m ≤ 255 →
        exec (.dratedec e m) s = .next (s.answered (.rational ((256 + m) * 2 ^ e * s.cfg.xtalHz / 2 ^ 28)))) ∧
      (s.Poised → 15 < e ∨ 255 < m → exec (.dratedec e m) s = .next (s.refused .fieldValue))) ∧
    (s.cfg.devFmt = .devDefault →
      (s.seq = .ready → e ≤ 7 → m ≤ 7 →
        exec (.devdec e m) s = .next (s.answered (.rational ((8 + m) * 2 ^ e * s.cfg.xtalHz / 2 ^ 17)))) ∧
      (s.Poised → 7 < e ∨ 7 < m → exec (.devdec e m) s = .next (s.refused .fieldValue))) ∧
    (s.cfg.bwFmt = .bwDefault →
      (s.seq = .ready → e ≤ 3 → m ≤ 3 →
        exec (.bwdec e m) s = .next (s.answered (.rational (s.cfg.xtalHz / (8 * (4 + m) * 2 ^ e))))) ∧
      (s.Poised → 3 < e ∨ 3 < m → exec (.bwdec e m) s = .next (s.refused .fieldValue)))

/-- R133 (b): encoding the value a pair stands for gives the pair back, for every pair of in-field operands of each codec and
every format record whose formulas are as R125 and R126 say. -/
def Obligations.EncodeAfterDecode : Prop :=
  ∀ (s : State) (q : Quantity) (e m : Nat), s.seq = .ready → s.cfg.valid = true → LawfulFormats s.cfg →
    (e < 2 ^ s.cfg.drateFmt.ebits → m < 2 ^ s.cfg.drateFmt.mbits → q.val = fmtValue s.cfg.drateFmt s.cfg.xtalHz e m →
      exec (.drateenc q) s = .next (s.answered (.expMant e m))) ∧
    (e < 2 ^ s.cfg.devFmt.ebits → m < 2 ^ s.cfg.devFmt.mbits → q.val = fmtValue s.cfg.devFmt s.cfg.xtalHz e m →
      exec (.devenc q) s = .next (s.answered (.expMant e m))) ∧
    (e < 2 ^ s.cfg.bwFmt.ebits → m < 2 ^ s.cfg.bwFmt.mbits → q.val = fmtValue s.cfg.bwFmt s.cfg.xtalHz e m →
      exec (.bwenc q) s = .next (s.answered (.expMant e m)))

/-- R133 (c): the decoded value never falls as the accepted target grows, for all three codecs and every format record whose
formulas are as R125 and R126 say. -/
def Obligations.DecodedValueIsMonotone : Prop :=
  ∀ (s : State) (q r : Quantity) (e m e' m' : Nat), s.seq = .ready → s.cfg.valid = true →
    LawfulFormats s.cfg → q.val ≤ r.val →
    (exec (.drateenc q) s = .next (s.answered (.expMant e m)) → exec (.drateenc r) s = .next (s.answered (.expMant e' m')) →
      fmtValue s.cfg.drateFmt s.cfg.xtalHz e m ≤ fmtValue s.cfg.drateFmt s.cfg.xtalHz e' m') ∧
    (exec (.devenc q) s = .next (s.answered (.expMant e m)) → exec (.devenc r) s = .next (s.answered (.expMant e' m')) →
      fmtValue s.cfg.devFmt s.cfg.xtalHz e m ≤ fmtValue s.cfg.devFmt s.cfg.xtalHz e' m') ∧
    (exec (.bwenc q) s = .next (s.answered (.expMant e m)) → exec (.bwenc r) s = .next (s.answered (.expMant e' m')) →
      fmtValue s.cfg.bwFmt s.cfg.xtalHz e m ≤ fmtValue s.cfg.bwFmt s.cfg.xtalHz e' m')

/-- R135, R136: RSSIDEC gives half-dB steps of the signed reading less the offset; the reading rises by 1/2 dB from each raw byte
to the next and from 255 to 0, and falls by 127.5 dB from 127 to 128. -/
def Obligations.RssidecIsSignedHalfSteps : Prop :=
  (∀ (s : State) (raw : Nat),
    (s.seq = .ready → raw < 128 → exec (.rssidec raw) s = .next (s.answered (.rational (raw / 2 - s.cfg.rssiOffsetDb)))) ∧
    (s.seq = .ready → 128 ≤ raw → raw ≤ 255 →
      exec (.rssidec raw) s = .next (s.answered (.rational ((raw - 256) / 2 - s.cfg.rssiOffsetDb)))) ∧
    (s.Poised → 255 < raw → exec (.rssidec raw) s = .next (s.refused .byteRange))) ∧
  (∀ (offset : Nat) (raw : Byte),
    (raw.toNat ≠ 127 → rssiDec offset (raw + 1) = rssiDec offset raw + 1 / 2) ∧
    (raw.toNat = 127 → rssiDec offset (raw + 1) = rssiDec offset raw - 255 / 2))

/-- R137, R138: SYNCENC splits a 16-bit word high byte first, SYNCDEC joins two bytes, each undoes the other, and operands out of
range are refused. -/
def Obligations.SyncWordSplitsAndJoins : Prop :=
  ∀ (s : State) (hi lo : Byte),
    (s.seq = .ready → exec (.syncenc (hi.toNat * 256 + lo.toNat)) s = .next (s.answered (.pair hi lo))) ∧
    (s.seq = .ready → ∃ w : BitVec 16, w.toNat = hi.toNat * 256 + lo.toNat ∧
      exec (.syncdec hi.toNat lo.toNat) s = .next (s.answered (.word w))) ∧
    (∀ w : Nat, s.Poised → 0xFFFF < w → exec (.syncenc w) s = .next (s.refused .byteRange)) ∧
    (∀ a b : Nat, s.Poised → 255 < a ∨ 255 < b → exec (.syncdec a b) s = .next (s.refused .byteRange))

/-! ## The radio state machine -/

/-- R151: MODESTROBE issues exactly one strobe, that of its mode, discards the status byte and returns the terminal state. -/
def Obligations.ModestrobeIssuesOneStrobe : Prop :=
  ∀ (s : State) (x : Rx1) (rest : List BusAnswer), s.Poised → s.resetIn = false → s.bus = x.answers ++ rest →
    Completes (.modestrobe .receive) s 3 (s.after rest (strobeEvents s.cfg.regmap.cmdRx x) (.ok (.mstate .rx))) ∧
    Completes (.modestrobe .transmit) s 3 (s.after rest (strobeEvents s.cfg.regmap.cmdTx x) (.ok (.mstate .tx))) ∧
    Completes (.modestrobe .idle) s 3 (s.after rest (strobeEvents s.cfg.regmap.cmdIdle x) (.ok (.mstate .idle))) ∧
    Completes (.modestrobe .calibrate) s 3 (s.after rest (strobeEvents s.cfg.regmap.cmdCal x) (.ok (.mstate .idle)))

/-- R154: AWAITBUSY polls at once again after each mismatch, however many there are within the bound, and ends with Ok at the
first poll that reads the target. -/
def Obligations.AwaitbusyPollsUntilReached : Prop :=
  ∀ (s : State) (t : MachineState) (w : Awaited) (rest : List BusAnswer), s.Poised → s.resetIn = false → w.Reaches s.cfg t →
    s.bus = w.answers ++ rest →
    Completes (.awaitbusy t) s (w.steps false) (s.after rest (w.events s.cfg false) (.ok .unit))

/-- R156: AWAITCOOP makes the same polls with a wait after each mismatch and none after the last poll, when the wait port ends
each wait. That a wait counts two steps, its issue and its end, is the model's (log entry 1); that the ends of the waits stand ready
at the wait port before they are issued too (log entry 21). -/
def Obligations.AwaitcoopWaitsBetweenPolls : Prop :=
  ∀ (s : State) (t : MachineState) (w : Awaited) (rest : List BusAnswer), s.Poised → s.resetIn = false → w.Reaches s.cfg t →
    w.waits true ≤ s.resumes → s.bus = w.answers ++ rest →
    Completes (.awaitcoop t) s (w.steps true) ((s.waited (w.waits true)).after rest (w.events s.cfg true) (.ok .unit))

/-- R156: after a mismatch the cooperative discipline is WAITING, with no bus activity, until the wait port resumes it; then it
polls again, counting the wait (log entry 12). That a wait is issued in one step and ended in another is the model's (log entry 1), and
so is that ended waits are counted (log entry 21). -/
def Obligations.CooperativeWaitSuspends : Prop :=
  ∀ (s : State) (t : MachineState) (p : Rx2) (rest : List BusAnswer), s.Poised → s.resetIn = false →
    p.reads s.cfg t = false → s.cfg.maxPolls ≠ some 1 → s.cfg.maxPolls ≠ some 0 → s.bus = p.answers ++ rest →
    ∃ u, Completes (.awaitcoop t) s 5 u ∧ u.seq = .waiting 4 [] ∧ u.busOpen = false ∧ u.bus = rest ∧
      u.trace = s.trace ++ readEvents s.cfg.regmap.fsmState p ++ [.wait s.cfg.pollIntervalUs] ∧ u.outcomes = s.outcomes ∧
      u.lat.pcnt = 1 ∧ u.lat.tgt = t ∧ u.resumes = s.resumes ∧
      (s.resumes = 0 → step u = .next u) ∧
      ∃ v, u.move .resume = .next v ∧ step v = .next { u with seq := .run 5 (.bus (pollJob s.cfg true [])) }

/-- R155: with the bound `MAX_POLLS = some(N)` every await ends with `Timeout(t, N)` after `N` polls none of which read `t`, under
either discipline, alone and in SETMODE and TX, whose later phases are not performed; in SETMODE Calibrate either of its two
awaits can end it so (R159). Under coop, that a wait counts two steps is the model's (log entry 1), and that the ends of the waits
stand ready before they are issued too (log entry 21). -/
def Obligations.AwaitTimesOutAtBound : Prop :=
  ∀ (s : State) (coop : Bool) (t : MachineState) (w : Awaited) (xs : Rx1) (rest : List BusAnswer), s.Poised → s.resetIn = false →
    w.TimesOut s.cfg t → w.waits coop ≤ s.resumes →
    (s.bus = w.answers ++ rest →
      Completes (if coop then .awaitcoop t else .awaitbusy t) s (w.steps coop)
        ((s.waited (w.waits coop)).after rest (w.events s.cfg coop) (.err (.timeout t (w.before.length + 1))))) ∧
    (∀ mode, s.bus = xs.answers ++ (w.answers ++ rest) → mode ≠ .calibrate → t = (s.cfg.modeRow mode).2 →
      Completes (.setmode mode (.waiting coop)) s (3 + w.steps coop)
        ((s.waited (w.waits coop)).after rest (strobeEvents (s.cfg.modeRow mode).1 xs ++ w.events s.cfg coop)
          (.err (.timeout t (w.before.length + 1))))) ∧
    (s.bus = xs.answers ++ (w.answers ++ rest) → t = .idle →
      Completes (.setmode .calibrate (.waiting coop)) s (3 + w.steps coop)
        ((s.waited (w.waits coop)).after rest (strobeEvents s.cfg.regmap.cmdIdle xs ++ w.events s.cfg coop)
          (.err (.timeout .idle (w.before.length + 1))))) ∧
    (∀ (v : Awaited) (ys : Rx1), t = .idle → v.Reaches s.cfg .idle → v.waits coop + w.waits coop ≤ s.resumes →
      s.bus = xs.answers ++ (v.answers ++ (ys.answers ++ (w.answers ++ rest))) →
      Completes (.setmode .calibrate (.waiting coop)) s (3 + (v.steps coop + (3 + w.steps coop)))
        ((s.waited (v.waits coop + w.waits coop)).after rest
          (strobeEvents s.cfg.regmap.cmdIdle xs ++ (v.events s.cfg coop ++
            (strobeEvents s.cfg.regmap.cmdCal ys ++ w.events s.cfg coop)))
          (.err (.timeout .idle (w.before.length + 1))))) ∧
    (∀ (f : Frame) (bs : List Byte) (xw : RxN), s.cfg.valid = true → f.Gives s.cfg bs → xw.vs.length = bs.length → t = .idle →
      s.bus = xw.answers ++ (xs.answers ++ (w.answers ++ rest)) →
      Completes (.tx f (.waiting coop)) s (bs.length + 3 + (3 + w.steps coop))
        ((s.waited (w.waits coop)).after rest
          (writeBurstEvents s.cfg.regmap.fifo bs xw ++ (strobeEvents s.cfg.regmap.cmdTx xs ++ w.events s.cfg coop))
          (.err (.timeout .idle (w.before.length + 1)))))

/-- R194, R225: with `MAX_POLLS = none` an await whose target is never reported delivers no outcome and keeps polling, however many
polls have been made, and nothing of its command after it is performed; it is neither a fault nor an end. So does each await: AWAITBUSY,
AWAITCOOP, SETMODE, of whose Calibrate the first and the second, and TX, under busy and coop. Under coop the wait port ends each wait, busy
makes no use of it. That a wait counts two steps is the model's (log entry 1), that the ends of the waits stand ready before they are
issued too (log entry 21), and so is the number in RUN (log entry 12). -/
def Obligations.AwaitNeverEnds : Prop :=
  ∀ (s : State) (coop : Bool) (t : MachineState) (ps : List Rx2), s.Poised → s.resetIn = false → s.cfg.maxPolls = none →
    (∀ p ∈ ps, p.reads s.cfg t = false) → missWaits coop ps ≤ s.resumes →
    (s.bus = pollAnswers ps → PollsOn (if coop then .awaitcoop t else .awaitbusy t) s coop t ps 0 0 [] []) ∧
    (∀ (mode : RadioMode) (xs : Rx1), mode ≠ .calibrate → t = (s.cfg.modeRow mode).2 → s.bus = xs.answers ++ pollAnswers ps →
      PollsOn (.setmode mode (.waiting coop)) s coop t ps 3 0 (strobeEvents (s.cfg.modeRow mode).1 xs) []) ∧
    (∀ xs : Rx1, t = .idle → s.bus = xs.answers ++ pollAnswers ps →
      PollsOn (.setmode .calibrate (.waiting coop)) s coop t ps 3 0 (strobeEvents s.cfg.regmap.cmdIdle xs)
        [.strobe s.cfg.regmap.cmdCal, .await .idle coop]) ∧
    (∀ (xs ys : Rx1) (v : Awaited), t = .idle → v.Reaches s.cfg .idle → v.waits coop + missWaits coop ps ≤ s.resumes →
      s.bus = xs.answers ++ (v.answers ++ (ys.answers ++ pollAnswers ps)) →
      PollsOn (.setmode .calibrate (.waiting coop)) s coop t ps (3 + v.count coop + 3) (v.waits coop)
        (strobeEvents s.cfg.regmap.cmdIdle xs ++ (v.events s.cfg coop ++ strobeEvents s.cfg.regmap.cmdCal ys)) []) ∧
    (∀ (f : Frame) (bs : List Byte) (xw : RxN) (xs : Rx1), s.cfg.valid = true → f.Gives s.cfg bs → xw.vs.length = bs.length →
      t = .idle → s.bus = xw.answers ++ (xs.answers ++ pollAnswers ps) →
      PollsOn (.tx f (.waiting coop)) s coop t ps (bs.length + 3 + 3) 0
        (writeBurstEvents s.cfg.regmap.fifo bs xw ++ strobeEvents s.cfg.regmap.cmdTx xs) [.strobe s.cfg.regmap.cmdFlushTx])

/-- R157: POLLSTATE makes exactly one poll: Ok if it reads the target, WouldBlock if not, whatever the bound on polling. -/
def Obligations.PollstatePollsOnce : Prop :=
  ∀ (s : State) (t : MachineState) (p : Rx2) (rest : List BusAnswer), s.Poised → s.resetIn = false →
    s.bus = p.answers ++ rest →
    Completes (.pollstate t) s 4 (s.after rest (readEvents s.cfg.regmap.fsmState p)
      (if p.reads s.cfg t then .ok .unit else .wouldBlock))

/-- R158: SETMODE to Receive, Transmit or Idle issues the one strobe of its mode, then awaits the mode's terminal state under its
discipline, or polls once for it. Under coop, that a wait counts two steps is the model's (log entry 1), and that the ends of the
waits stand ready before they are issued too (log entry 21). -/
def Obligations.SetmodeStrobesThenPolls : Prop :=
  ∀ (s : State) (mode : RadioMode) (xs : Rx1) (rest : List BusAnswer), s.Poised → s.resetIn = false → mode ≠ .calibrate →
    (∀ (coop : Bool) (w : Awaited), w.Reaches s.cfg (s.cfg.modeRow mode).2 → w.waits coop ≤ s.resumes →
      s.bus = xs.answers ++ (w.answers ++ rest) →
      Completes (.setmode mode (.waiting coop)) s (3 + w.steps coop)
        ((s.waited (w.waits coop)).after rest (strobeEvents (s.cfg.modeRow mode).1 xs ++ w.events s.cfg coop)
          (.ok .unit))) ∧
    (∀ p : Rx2, s.bus = xs.answers ++ (p.answers ++ rest) →
      Completes (.setmode mode .nonblock) s 7
        (s.after rest (strobeEvents (s.cfg.modeRow mode).1 xs ++ readEvents s.cfg.regmap.fsmState p)
          (if p.reads s.cfg (s.cfg.modeRow mode).2 then .ok .unit else .wouldBlock)))

/-- R159: SETMODE Calibrate strobes Idle, awaits Idle, strobes calibrate and awaits Idle again, the poll count starting afresh.
Under coop, that a wait counts two steps is the model's (log entry 1), and that the ends of the waits stand ready before they are
issued too (log entry 21). -/
def Obligations.CalibrateRoutesThroughIdle : Prop :=
  ∀ (s : State) (coop : Bool) (x y : Rx1) (v w : Awaited) (rest : List BusAnswer), s.Poised → s.resetIn = false →
    v.Reaches s.cfg .idle → w.Reaches s.cfg .idle → v.waits coop + w.waits coop ≤ s.resumes →
    s.bus = x.answers ++ (v.answers ++ (y.answers ++ (w.answers ++ rest))) →
    Completes (.setmode .calibrate (.waiting coop)) s (3 + (v.steps coop + (3 + w.steps coop)))
      ((s.waited (v.waits coop + w.waits coop)).after rest
        (strobeEvents s.cfg.regmap.cmdIdle x ++ (v.events s.cfg coop ++
          (strobeEvents s.cfg.regmap.cmdCal y ++ w.events s.cfg coop))) (.ok .unit))

/-- R160: a non-blocking calibrate is refused with no bus activity. -/
def Obligations.NonblockingCalibrateRefused : Prop :=
  ∀ s : State, s.Poised → exec (.setmode .calibrate .nonblock) s = .next (s.refused .discipline)

/-! ## Packet I/O -/

/-- R170: a frame that is not of the active variant, or whose length is wrong, is refused by TX and TXSTART with no bus activity;
so is a TX that does not wait (R172), after its frame. -/
def Obligations.BadFramesRefused : Prop :=
  ∀ (s : State) (f : Frame) (d : Disc), s.Poised →
    ((∀ bs, ¬ f.Gives s.cfg bs) →
      exec (.tx f d) s = .next (s.refused .frame) ∧ exec (.txstart f) s = .next (s.refused .frame)) ∧
    (∀ bs, f.Gives s.cfg bs → exec (.tx f .nonblock) s = .next (s.refused .discipline))

/-- R172: TX writes the frame to the FIFO in one burst, strobes Transmit, awaits Idle, and strobes flush-TX, in this order.
Under coop, that a wait counts two steps is the model's (log entry 1), and that the ends of the waits stand ready before they are
issued too (log entry 21). -/
def Obligations.TxWritesStrobesAwaitsFlushes : Prop :=
  ∀ (s : State) (f : Frame) (bs : List Byte) (coop : Bool) (xw : RxN) (xs : Rx1) (w : Awaited) (xf : Rx1)
    (rest : List BusAnswer), s.Poised → s.resetIn = false → s.cfg.valid = true → f.Gives s.cfg bs →
    xw.vs.length = bs.length → w.Reaches s.cfg .idle → w.waits coop ≤ s.resumes →
    s.bus = xw.answers ++ (xs.answers ++ (w.answers ++ (xf.answers ++ rest))) →
    Completes (.tx f (.waiting coop)) s (bs.length + 3 + (3 + (w.steps coop + 3)))
      ((s.waited (w.waits coop)).after rest
        (writeBurstEvents s.cfg.regmap.fifo bs xw ++ (strobeEvents s.cfg.regmap.cmdTx xs ++
          (w.events s.cfg coop ++ strobeEvents s.cfg.regmap.cmdFlushTx xf))) (.ok .unit))

/-- R173: TXSTART writes the frame to the FIFO and strobes Transmit, and reads no state. -/
def Obligations.TxstartWritesAndStrobes : Prop :=
  ∀ (s : State) (f : Frame) (bs : List Byte) (xw : RxN) (xs : Rx1) (rest : List BusAnswer), s.Poised → s.resetIn = false →
    s.cfg.valid = true → f.Gives s.cfg bs → xw.vs.length = bs.length → s.bus = xw.answers ++ (xs.answers ++ rest) →
    Completes (.txstart f) s (bs.length + 3 + 3)
      (s.after rest (writeBurstEvents s.cfg.regmap.fifo bs xw ++ strobeEvents s.cfg.regmap.cmdTx xs) (.ok .unit))

/-- R174: TXPOLL polls once; in Idle it strobes flush-TX and reports completion, otherwise it reports WouldBlock. -/
def Obligations.TxpollFlushesInIdle : Prop :=
  ∀ (s : State) (p : Rx2) (rest : List BusAnswer), s.Poised → s.resetIn = false →
    (∀ xf : Rx1, p.reads s.cfg .idle = true → s.bus = p.answers ++ (xf.answers ++ rest) →
      Completes .txpoll s 7
        (s.after rest (readEvents s.cfg.regmap.fsmState p ++ strobeEvents s.cfg.regmap.cmdFlushTx xf) (.ok .unit))) ∧
    (p.reads s.cfg .idle = false → s.bus = p.answers ++ rest →
      Completes .txpoll s 4 (s.after rest (readEvents s.cfg.regmap.fsmState p) .wouldBlock))

/-- R175: in fixed mode RX samples the pin first; with the pin false it reports WouldBlock without touching the bus, with the pin
true and no quality check it is exactly one burst read of the FIFO, returned as read. -/
def Obligations.RxFixedReadsOneBurst : Prop :=
  ∀ s : State, s.Poised → s.resetIn = false →
    (s.pinLevel = false → Completes .rx s 1 (s.after s.bus [.pin false] .wouldBlock)) ∧
    (∀ (x : RxN) (rest : List BusAnswer), s.pinLevel = true → s.cfg.valid = true → s.cfg.packetMode = .fixed →
      s.cfg.rxCheck = none → x.vs.length = s.cfg.fixedPktLen → s.bus = x.answers ++ rest →
      Completes .rx s (1 + (s.cfg.fixedPktLen + 3))
        (s.after rest (.pin true :: readBurstEvents s.cfg.regmap.fifo x) (.ok (.bytes x.vs))))

/-- R176: in variable mode RX reads the length by a single read, then that many bytes by a burst; length 0 returns the empty packet
and a length above the maximum is RxOverflow of that byte (log entry 18), neither with a second transaction. -/
def Obligations.RxVariableReadsLengthFirst : Prop :=
  ∀ (s : State) (p : Rx2), s.Poised → s.resetIn = false → s.pinLevel = true → s.cfg.valid = true → s.cfg.packetMode = .var →
    s.cfg.rxCheck = none →
    (∀ rest, p.v = 0 → s.bus = p.answers ++ rest →
      Completes .rx s 5 (s.after rest (.pin true :: readEvents s.cfg.regmap.fifo p) (.ok (.packet 0 [])))) ∧
    (∀ rest, s.cfg.varPktMax < p.v.toNat → s.bus = p.answers ++ rest →
      Completes .rx s 5 (s.after rest (.pin true :: readEvents s.cfg.regmap.fifo p) (.err (.rxOverflow [p.v])))) ∧
    (∀ (x : RxN) (rest : List BusAnswer), p.v ≠ 0 → p.v.toNat ≤ s.cfg.varPktMax → x.vs.length = p.v.toNat →
      s.bus = p.answers ++ (x.answers ++ rest) →
      Completes .rx s (5 + (p.v.toNat + 3)) (s.after rest
        (.pin true :: (readEvents s.cfg.regmap.fifo p ++ readBurstEvents s.cfg.regmap.fifo x))
        (.ok (.packet p.v.toNat x.vs))))

/-- R178, R191: a configured quality check makes its reads of status registers before the FIFO is read, whichever they are; on
overflow, and else on a CRC failure, the command ends with that error and the FIFO is not read; with verdict `ok` RX goes on in
its mode (R175, R176). The errors carry the bytes read (log entry 18). -/
def Obligations.RxQualityCheckComesFirst : Prop :=
  ∀ (s : State) (q : CheckProc) (regs : List Addr) (o c : Bool) (xs : List Rx2) (rest : List BusAnswer), s.Poised →
    s.resetIn = false → s.pinLevel = true → s.cfg.valid = true → s.cfg.rxCheck = some q →
    checkRun q [] xs = some (regs, o, c) →
    (∀ a ∈ regs, s.cfg.classAt a = some .status) ∧
    (o = true → s.bus = pollAnswers xs ++ rest →
      Completes .rx s (1 + 4 * xs.length)
        (s.after rest (.pin true :: checkEvents regs xs) (.err (.rxOverflow (xs.map Rx2.v))))) ∧
    (o = false → c = true → s.bus = pollAnswers xs ++ rest →
      Completes .rx s (1 + 4 * xs.length)
        (s.after rest (.pin true :: checkEvents regs xs) (.err (.crcMismatch (xs.map Rx2.v))))) ∧
    (∀ x : RxN, o = false → c = false → s.cfg.packetMode = .fixed → x.vs.length = s.cfg.fixedPktLen →
      s.bus = pollAnswers xs ++ (x.answers ++ rest) →
      Completes .rx s (1 + (4 * xs.length + (s.cfg.fixedPktLen + 3))) (s.after rest
        (.pin true :: (checkEvents regs xs ++ readBurstEvents s.cfg.regmap.fifo x)) (.ok (.bytes x.vs)))) ∧
    (∀ p : Rx2, o = false → c = false → s.cfg.packetMode = .var →
      (p.v = 0 → s.bus = pollAnswers xs ++ (p.answers ++ rest) →
        Completes .rx s (1 + (4 * xs.length + 4)) (s.after rest
          (.pin true :: (checkEvents regs xs ++ readEvents s.cfg.regmap.fifo p)) (.ok (.packet 0 [])))) ∧
      (s.cfg.varPktMax < p.v.toNat → s.bus = pollAnswers xs ++ (p.answers ++ rest) →
        Completes .rx s (1 + (4 * xs.length + 4)) (s.after rest
          (.pin true :: (checkEvents regs xs ++ readEvents s.cfg.regmap.fifo p)) (.err (.rxOverflow [p.v])))) ∧
      (∀ x : RxN, p.v ≠ 0 → p.v.toNat ≤ s.cfg.varPktMax → x.vs.length = p.v.toNat →
        s.bus = pollAnswers xs ++ (p.answers ++ (x.answers ++ rest)) →
        Completes .rx s (1 + (4 * xs.length + (4 + (p.v.toNat + 3)))) (s.after rest
          (.pin true :: (checkEvents regs xs ++ (readEvents s.cfg.regmap.fifo p ++ readBurstEvents s.cfg.regmap.fifo x)))
          (.ok (.packet p.v.toNat x.vs)))))
end

