-- ==== Sys2Proof/Laws/State.lean ====
section
/-! SUPPORT. One lemma per field of State per update, each true by unfolding, so that no later proof unfolds an update. -/

namespace Sys2Proof.Machine

@[simp] theorem emit_cfg (e : Event) (s : State) : (emit e s).cfg = s.cfg := rfl
@[simp] theorem emit_seq (e : Event) (s : State) : (emit e s).seq = s.seq := rfl
@[simp] theorem emit_busOpen (e : Event) (s : State) : (emit e s).busOpen = s.busOpen := rfl
@[simp] theorem emit_lat (e : Event) (s : State) : (emit e s).lat = s.lat := rfl
@[simp] theorem emit_trace (e : Event) (s : State) : (emit e s).trace = s.trace ++ [e] := rfl
@[simp] theorem emit_outcomes (e : Event) (s : State) : (emit e s).outcomes = s.outcomes := rfl
@[simp] theorem emit_port (e : Event) (s : State) : (emit e s).port = s.port := rfl
@[simp] theorem emit_bus (e : Event) (s : State) : (emit e s).bus = s.bus := rfl
@[simp] theorem emit_pinLevel (e : Event) (s : State) : (emit e s).pinLevel = s.pinLevel := rfl
@[simp] theorem emit_resumes (e : Event) (s : State) : (emit e s).resumes = s.resumes := rfl
@[simp] theorem emit_resetIn (e : Event) (s : State) : (emit e s).resetIn = s.resetIn := rfl
@[simp] theorem emit_fresh (e : Event) (s : State) : (emit e s).fresh = s.fresh := rfl

@[simp] theorem scrub_cfg (s : State) : (scrub s).cfg = s.cfg := rfl
@[simp] theorem scrub_seq (s : State) : (scrub s).seq = s.seq := rfl
@[simp] theorem scrub_busOpen (s : State) : (scrub s).busOpen = s.busOpen := rfl
@[simp] theorem scrub_lat (s : State) : (scrub s).lat = Config.freeLatches s.fresh := rfl
@[simp] theorem scrub_trace (s : State) : (scrub s).trace = s.trace := rfl
@[simp] theorem scrub_outcomes (s : State) : (scrub s).outcomes = s.outcomes := rfl
@[simp] theorem scrub_port (s : State) : (scrub s).port = s.port := rfl
@[simp] theorem scrub_bus (s : State) : (scrub s).bus = s.bus := rfl
@[simp] theorem scrub_pinLevel (s : State) : (scrub s).pinLevel = s.pinLevel := rfl
@[simp] theorem scrub_resumes (s : State) : (scrub s).resumes = s.resumes := rfl
@[simp] theorem scrub_resetIn (s : State) : (scrub s).resetIn = s.resetIn := rfl
@[simp] theorem scrub_fresh (s : State) : (scrub s).fresh = s.fresh + 1 := rfl

@[simp] theorem reply_cfg (o : CmdOutcome) (s : State) : (reply o s).cfg = s.cfg := rfl
@[simp] theorem reply_seq (o : CmdOutcome) (s : State) : (reply o s).seq = s.seq := rfl
@[simp] theorem reply_busOpen (o : CmdOutcome) (s : State) : (reply o s).busOpen = s.busOpen := rfl
@[simp] theorem reply_lat (o : CmdOutcome) (s : State) : (reply o s).lat = s.lat := rfl
@[simp] theorem reply_trace (o : CmdOutcome) (s : State) : (reply o s).trace = s.trace := rfl
@[simp] theorem reply_outcomes (o : CmdOutcome) (s : State) : (reply o s).outcomes = s.outcomes ++ [o] := rfl
@[simp] theorem reply_port (o : CmdOutcome) (s : State) : (reply o s).port = s.port := rfl
@[simp] theorem reply_bus (o : CmdOutcome) (s : State) : (reply o s).bus = s.bus := rfl
@[simp] theorem reply_pinLevel (o : CmdOutcome) (s : State) : (reply o s).pinLevel = s.pinLevel := rfl
@[simp] theorem reply_resumes (o : CmdOutcome) (s : State) : (reply o s).resumes = s.resumes := rfl
@[simp] theorem reply_resetIn (o : CmdOutcome) (s : State) : (reply o s).resetIn = s.resetIn := rfl
@[simp] theorem reply_fresh (o : CmdOutcome) (s : State) : (reply o s).fresh = s.fresh := rfl

@[simp] theorem endCommand_cfg (o : CmdOutcome) (s : State) : (endCommand o s).cfg = s.cfg := rfl
@[simp] theorem endCommand_seq (o : CmdOutcome) (s : State) : (endCommand o s).seq = .ready := rfl
@[simp] theorem endCommand_busOpen (o : CmdOutcome) (s : State) : (endCommand o s).busOpen = s.busOpen := rfl
@[simp] theorem endCommand_lat (o : CmdOutcome) (s : State) : (endCommand o s).lat = Config.freeLatches s.fresh := rfl
@[simp] theorem endCommand_trace (o : CmdOutcome) (s : State) : (endCommand o s).trace = s.trace := rfl
@[simp] theorem endCommand_outcomes (o : CmdOutcome) (s : State) : (endCommand o s).outcomes = s.outcomes ++ [o] := rfl
@[simp] theorem endCommand_port (o : CmdOutcome) (s : State) : (endCommand o s).port = s.port := rfl
@[simp] theorem endCommand_bus (o : CmdOutcome) (s : State) : (endCommand o s).bus = s.bus := rfl
@[simp] theorem endCommand_pinLevel (o : CmdOutcome) (s : State) : (endCommand o s).pinLevel = s.pinLevel := rfl
@[simp] theorem endCommand_resumes (o : CmdOutcome) (s : State) : (endCommand o s).resumes = s.resumes := rfl
@[simp] theorem endCommand_resetIn (o : CmdOutcome) (s : State) : (endCommand o s).resetIn = s.resetIn := rfl
@[simp] theorem endCommand_fresh (o : CmdOutcome) (s : State) : (endCommand o s).fresh = s.fresh + 1 := rfl

@[simp] theorem blockReset_cfg (s : State) : (blockReset s).cfg = s.cfg := rfl
@[simp] theorem blockReset_seq (s : State) : (blockReset s).seq = .ready := rfl
@[simp] theorem blockReset_busOpen (s : State) : (blockReset s).busOpen = false := rfl
@[simp] theorem blockReset_lat (s : State) : (blockReset s).lat = Config.freeLatches s.fresh := rfl
@[simp] theorem blockReset_trace (s : State) : (blockReset s).trace = s.trace ++ [.reset] := rfl
@[simp] theorem blockReset_outcomes (s : State) : (blockReset s).outcomes = s.outcomes := rfl
@[simp] theorem blockReset_port (s : State) : (blockReset s).port = s.port := rfl
@[simp] theorem blockReset_bus (s : State) : (blockReset s).bus = s.bus := rfl
@[simp] theorem blockReset_pinLevel (s : State) : (blockReset s).pinLevel = s.pinLevel := rfl
@[simp] theorem blockReset_resumes (s : State) : (blockReset s).resumes = s.resumes := rfl
@[simp] theorem blockReset_resetIn (s : State) : (blockReset s).resetIn = false := rfl
@[simp] theorem blockReset_fresh (s : State) : (blockReset s).fresh = s.fresh + 1 := rfl

@[simp] theorem samplePin_cfg (s : State) : (samplePin s).cfg = s.cfg := rfl
@[simp] theorem samplePin_seq (s : State) : (samplePin s).seq = s.seq := rfl
@[simp] theorem samplePin_busOpen (s : State) : (samplePin s).busOpen = s.busOpen := rfl
@[simp] theorem samplePin_lat (s : State) : (samplePin s).lat = { s.lat with pin := s.pinLevel } := rfl
@[simp] theorem samplePin_trace (s : State) : (samplePin s).trace = s.trace ++ [.pin s.pinLevel] := rfl
@[simp] theorem samplePin_outcomes (s : State) : (samplePin s).outcomes = s.outcomes := rfl
@[simp] theorem samplePin_port (s : State) : (samplePin s).port = s.port := rfl
@[simp] theorem samplePin_bus (s : State) : (samplePin s).bus = s.bus := rfl
@[simp] theorem samplePin_pinLevel (s : State) : (samplePin s).pinLevel = s.pinLevel := rfl
@[simp] theorem samplePin_resumes (s : State) : (samplePin s).resumes = s.resumes := rfl
@[simp] theorem samplePin_resetIn (s : State) : (samplePin s).resetIn = s.resetIn := rfl
@[simp] theorem samplePin_fresh (s : State) : (samplePin s).fresh = s.fresh := rfl

@[simp] theorem start_cfg (k : Nat) (h : Byte) (hop : Op) (data : List Op) (post : Post) (code : List Phase) (s : State) : (start k h hop data post code s).cfg = s.cfg := rfl
@[simp] theorem start_seq (k : Nat) (h : Byte) (hop : Op) (data : List Op) (post : Post) (code : List Phase) (s : State) : (start k h hop data post code s).seq = .run k (.bus ⟨.begin h, hop :: (data ++ [.finish]), post, code⟩) := rfl
@[simp] theorem start_busOpen (k : Nat) (h : Byte) (hop : Op) (data : List Op) (post : Post) (code : List Phase) (s : State) : (start k h hop data post code s).busOpen = s.busOpen := rfl
@[simp] theorem start_lat (k : Nat) (h : Byte) (hop : Op) (data : List Op) (post : Post) (code : List Phase) (s : State) : (start k h hop data post code s).lat = s.lat := rfl
@[simp] theorem start_trace (k : Nat) (h : Byte) (hop : Op) (data : List Op) (post : Post) (code : List Phase) (s : State) : (start k h hop data post code s).trace = s.trace := rfl
@[simp] theorem start_outcomes (k : Nat) (h : Byte) (hop : Op) (data : List Op) (post : Post) (code : List Phase) (s : State) : (start k h hop data post code s).outcomes = s.outcomes := rfl
@[simp] theorem start_port (k : Nat) (h : Byte) (hop : Op) (data : List Op) (post : Post) (code : List Phase) (s : State) : (start k h hop data post code s).port = s.port := rfl
@[simp] theorem start_bus (k : Nat) (h : Byte) (hop : Op) (data : List Op) (post : Post) (code : List Phase) (s : State) : (start k h hop data post code s).bus = s.bus := rfl
@[simp] theorem start_pinLevel (k : Nat) (h : Byte) (hop : Op) (data : List Op) (post : Post) (code : List Phase) (s : State) : (start k h hop data post code s).pinLevel = s.pinLevel := rfl
@[simp] theorem start_resumes (k : Nat) (h : Byte) (hop : Op) (data : List Op) (post : Post) (code : List Phase) (s : State) : (start k h hop data post code s).resumes = s.resumes := rfl
@[simp] theorem start_resetIn (k : Nat) (h : Byte) (hop : Op) (data : List Op) (post : Post) (code : List Phase) (s : State) : (start k h hop data post code s).resetIn = s.resetIn := rfl
@[simp] theorem start_fresh (k : Nat) (h : Byte) (hop : Op) (data : List Op) (post : Post) (code : List Phase) (s : State) : (start k h hop data post code s).fresh = s.fresh := rfl

@[simp] theorem issueWait_cfg (code : List Phase) (k : Nat) (s : State) : (issueWait code k s).cfg = s.cfg := rfl
@[simp] theorem issueWait_seq (code : List Phase) (k : Nat) (s : State) : (issueWait code k s).seq = .waiting k code := rfl
@[simp] theorem issueWait_busOpen (code : List Phase) (k : Nat) (s : State) : (issueWait code k s).busOpen = s.busOpen := rfl
@[simp] theorem issueWait_lat (code : List Phase) (k : Nat) (s : State) : (issueWait code k s).lat = s.lat := rfl
@[simp] theorem issueWait_trace (code : List Phase) (k : Nat) (s : State) : (issueWait code k s).trace = s.trace ++ [.wait s.cfg.pollIntervalUs] := rfl
@[simp] theorem issueWait_outcomes (code : List Phase) (k : Nat) (s : State) : (issueWait code k s).outcomes = s.outcomes := rfl
@[simp] theorem issueWait_port (code : List Phase) (k : Nat) (s : State) : (issueWait code k s).port = s.port := rfl
@[simp] theorem issueWait_bus (code : List Phase) (k : Nat) (s : State) : (issueWait code k s).bus = s.bus := rfl
@[simp] theorem issueWait_pinLevel (code : List Phase) (k : Nat) (s : State) : (issueWait code k s).pinLevel = s.pinLevel := rfl
@[simp] theorem issueWait_resumes (code : List Phase) (k : Nat) (s : State) : (issueWait code k s).resumes = s.resumes := rfl
@[simp] theorem issueWait_resetIn (code : List Phase) (k : Nat) (s : State) : (issueWait code k s).resetIn = s.resetIn := rfl
@[simp] theorem issueWait_fresh (code : List Phase) (k : Nat) (s : State) : (issueWait code k s).fresh = s.fresh := rfl

@[simp] theorem endWait_cfg (code : List Phase) (k : Nat) (s : State) : (endWait code k s).cfg = s.cfg := rfl
@[simp] theorem endWait_seq (code : List Phase) (k : Nat) (s : State) : (endWait code k s).seq = .run (k + 1) (.bus (pollJob s.cfg true code)) := rfl
@[simp] theorem endWait_busOpen (code : List Phase) (k : Nat) (s : State) : (endWait code k s).busOpen = s.busOpen := rfl
@[simp] theorem endWait_lat (code : List Phase) (k : Nat) (s : State) : (endWait code k s).lat = s.lat := rfl
@[simp] theorem endWait_trace (code : List Phase) (k : Nat) (s : State) : (endWait code k s).trace = s.trace := rfl
@[simp] theorem endWait_outcomes (code : List Phase) (k : Nat) (s : State) : (endWait code k s).outcomes = s.outcomes := rfl
@[simp] theorem endWait_port (code : List Phase) (k : Nat) (s : State) : (endWait code k s).port = s.port := rfl
@[simp] theorem endWait_bus (code : List Phase) (k : Nat) (s : State) : (endWait code k s).bus = s.bus := rfl
@[simp] theorem endWait_pinLevel (code : List Phase) (k : Nat) (s : State) : (endWait code k s).pinLevel = s.pinLevel := rfl
@[simp] theorem endWait_resumes (code : List Phase) (k : Nat) (s : State) : (endWait code k s).resumes = s.resumes - 1 := rfl
@[simp] theorem endWait_resetIn (code : List Phase) (k : Nat) (s : State) : (endWait code k s).resetIn = s.resetIn := rfl
@[simp] theorem endWait_fresh (code : List Phase) (k : Nat) (s : State) : (endWait code k s).fresh = s.fresh := rfl

@[simp] theorem placeOffer_cfg (o : Offer) (s : State) : (placeOffer o s).cfg = s.cfg := rfl
@[simp] theorem placeOffer_seq (o : Offer) (s : State) : (placeOffer o s).seq = .ready := rfl
@[simp] theorem placeOffer_busOpen (o : Offer) (s : State) : (placeOffer o s).busOpen = false := rfl
@[simp] theorem placeOffer_lat (o : Offer) (s : State) : (placeOffer o s).lat = s.lat := rfl
@[simp] theorem placeOffer_trace (o : Offer) (s : State) : (placeOffer o s).trace = s.trace := rfl
@[simp] theorem placeOffer_outcomes (o : Offer) (s : State) : (placeOffer o s).outcomes = s.outcomes := rfl
@[simp] theorem placeOffer_port (o : Offer) (s : State) : (placeOffer o s).port = some o := rfl
@[simp] theorem placeOffer_bus (o : Offer) (s : State) : (placeOffer o s).bus = s.bus := rfl
@[simp] theorem placeOffer_pinLevel (o : Offer) (s : State) : (placeOffer o s).pinLevel = s.pinLevel := rfl
@[simp] theorem placeOffer_resumes (o : Offer) (s : State) : (placeOffer o s).resumes = s.resumes := rfl
@[simp] theorem placeOffer_resetIn (o : Offer) (s : State) : (placeOffer o s).resetIn = false := rfl
@[simp] theorem placeOffer_fresh (o : Offer) (s : State) : (placeOffer o s).fresh = s.fresh := rfl

@[simp] theorem after_cfg (s : State) (rest : List BusAnswer) (evs : List Event) (o : CmdOutcome) : (s.after rest evs o).cfg = s.cfg := rfl
@[simp] theorem after_seq (s : State) (rest : List BusAnswer) (evs : List Event) (o : CmdOutcome) : (s.after rest evs o).seq = s.seq := rfl
@[simp] theorem after_busOpen (s : State) (rest : List BusAnswer) (evs : List Event) (o : CmdOutcome) : (s.after rest evs o).busOpen = s.busOpen := rfl
@[simp] theorem after_lat (s : State) (rest : List BusAnswer) (evs : List Event) (o : CmdOutcome) : (s.after rest evs o).lat = Config.freeLatches s.fresh := rfl
@[simp] theorem after_trace (s : State) (rest : List BusAnswer) (evs : List Event) (o : CmdOutcome) : (s.after rest evs o).trace = s.trace ++ evs := rfl
@[simp] theorem after_outcomes (s : State) (rest : List BusAnswer) (evs : List Event) (o : CmdOutcome) : (s.after rest evs o).outcomes = s.outcomes ++ [o] := rfl
@[simp] theorem after_port (s : State) (rest : List BusAnswer) (evs : List Event) (o : CmdOutcome) : (s.after rest evs o).port = s.port := rfl
@[simp] theorem after_bus (s : State) (rest : List BusAnswer) (evs : List Event) (o : CmdOutcome) : (s.after rest evs o).bus = rest := rfl
@[simp] theorem after_pinLevel (s : State) (rest : List BusAnswer) (evs : List Event) (o : CmdOutcome) : (s.after rest evs o).pinLevel = s.pinLevel := rfl
@[simp] theorem after_resumes (s : State) (rest : List BusAnswer) (evs : List Event) (o : CmdOutcome) : (s.after rest evs o).resumes = s.resumes := rfl
@[simp] theorem after_resetIn (s : State) (rest : List BusAnswer) (evs : List Event) (o : CmdOutcome) : (s.after rest evs o).resetIn = s.resetIn := rfl
@[simp] theorem after_fresh (s : State) (rest : List BusAnswer) (evs : List Event) (o : CmdOutcome) : (s.after rest evs o).fresh = s.fresh + 1 := rfl

@[simp] theorem move_answer (a : BusAnswer) (s : State) : s.move (.answer a) = .next { s with bus := s.bus ++ [a] } := rfl
@[simp] theorem move_pin (l : Bool) (s : State) : s.move (.pin l) = .next { s with pinLevel := l } := rfl
@[simp] theorem move_resume (s : State) : s.move .resume = .next { s with resumes := s.resumes + 1 } := rfl
@[simp] theorem move_reset (s : State) : s.move .reset = .next { s with resetIn := true } := rfl

/-- An offer in READY with none standing is put on the command port (R11 a). -/
theorem move_offer {s : State} (hr : s.seq = .ready) (hp : s.port = none) (o : Offer) :
    s.move (.offer o) = .next { s with port := some o } := by
  simp [State.move, offerCommand, whenReady, hr, hp]

/-- A move that has a next state changes an input and nothing else; an offer is one of these only in READY. -/
theorem move_cases {m : Move} {s t : State} (h : s.move m = .next t) :
    (∃ o, s.seq = .ready ∧ s.port = none ∧ t = { s with port := some o }) ∨
    (∃ b l n r, t = { s with bus := b, pinLevel := l, resumes := n, resetIn := r }) := by
  cases m with
  | offer o =>
    simp only [State.move, offerCommand, whenReady] at h
    split at h
    · split at h <;> cases h
      exact .inl ⟨o, ‹_›, ‹_›, rfl⟩
    · cases h
  | answer a | pin l | resume | reset => cases h; exact .inr ⟨_, _, _, _, rfl⟩

end Sys2Proof.Machine
end

