-- ==== Sys2Proof/Laws/Ops.lean ====
section
/-! SUPPORT. What the shared operations do, once each: acceptance, one step, and the four transaction shapes of R52 and R53 when
every micro-operation completes. -/

namespace Sys2Proof.Machine

/-! ## Acceptance -/

theorem whenReady_ready {s : State} (h : s.seq = .ready) (t : Answer) : whenReady s t = t := by
  simp [whenReady, h]

theorem whenReady_busy {s : State} (h : s.seq ≠ .ready) (t : Answer) : whenReady s t = .fault .offeredOutsideReady := by
  unfold whenReady
  split
  · contradiction
  · rfl

theorem accept_ready {s : State} (h : s.seq = .ready) (code : List Phase) : accept code s = .next (launch code 0 s) :=
  whenReady_ready h _

theorem answer_ready {s : State} (h : s.seq = .ready) (v : Value) : answer v s = .next (reply (.ok v) s) :=
  whenReady_ready h _

theorem reject_ready {s : State} (h : s.seq = .ready) (err : ErrKind) : reject err s = .next (raise err 0 s) :=
  whenReady_ready h _

/-- An error raised between commands only ends the command: the bus is closed (R192). -/
theorem reject_poised {s : State} (h : s.Poised) (err : ErrKind) : reject err s = .next (s.after s.bus [] (.err err)) := by
  obtain ⟨hr, ho⟩ := h
  rw [reject_ready hr]
  simp [raise, ho, endCommand, reply, scrub, State.after, hr]

theorem refuse_poised {s : State} (h : s.Poised) (r : Reason) : refuse r s = .next (s.refused r) :=
  reject_poised h _

@[simp] theorem checked_ok (x : α) (s : State) (k : α → Answer) : checked (.ok x) s k = k x := rfl

@[simp] theorem checked_error (r : Reason) (s : State) (k : α → Answer) : checked (.error r) s k = refuse r s := rfl

/-! ## Steps -/

theorem runs_trans {m n : Nat} {s t : State} {r : Answer} (h : runs m s = .next t) (g : runs n t = r) : runs (m + n) s = r := by
  induction m generalizing s with
  | zero => simp only [runs, Host.Outcome.next.injEq] at h; rw [Nat.zero_add, h, g]
  | succ m ih =>
    rw [Nat.succ_add]
    simp only [runs] at h ⊢
    split at h
    · exact ih h
    · cases h
    · cases h

theorem runs_one {s t : State} (h : step s = .next t) : runs 1 s = .next t := by
  simp [runs, h]

theorem runs_succ {s t : State} (h : step s = .next t) (n : Nat) : runs (n + 1) s = runs n t := by
  conv => lhs; unfold runs
  rw [h]

theorem runs_step {s t : State} {r : Answer} (n : Nat) (h : step s = .next t) (g : runs n t = r) : runs (n + 1) s = r :=
  (runs_succ h n).trans g

theorem step_ready {s : State} (hr : s.resetIn = false) (hs : s.seq = .ready) (hp : s.port = none) : step s = .next s := by
  simp [step, hr, hs, nextOffer, hp]

/-- In RUN and WAITING a step advances the command. -/
theorem step_advance {s : State} (hr : s.resetIn = false) (hs : s.seq ≠ .ready) : step s = advance s := by
  unfold step
  rw [if_neg (by simp [hr])]
  split
  · contradiction
  · rfl

/-- One answer of the bus port is for the one micro-operation that is next. -/
theorem step_bus {s : State} (hr : s.resetIn = false) {k : Nat} {j : Job} (hs : s.seq = .run k (.bus j)) {a : BusAnswer}
    {rest : List BusAnswer} (hb : s.bus = a :: rest) : step s = perform a k j { s with bus := rest } := by
  rw [step_advance hr (by simp [hs])]
  simp [advance, hs, hb]

theorem step_pin {s : State} (hr : s.resetIn = false) {k : Nat} {code : List Phase} (hs : s.seq = .run k (.pin code)) :
    step s = .next (afterPin code (k + 1) (samplePin s)) := by
  rw [step_advance hr (by simp [hs])]
  simp [advance, hs]

theorem step_wait {s : State} (hr : s.resetIn = false) {k : Nat} {code : List Phase} (hs : s.seq = .run k (.wait code)) :
    step s = .next (issueWait code k s) := by
  rw [step_advance hr (by simp [hs])]
  simp [advance, hs]

theorem step_waiting {s : State} (hr : s.resetIn = false) {k : Nat} {code : List Phase} (hs : s.seq = .waiting k code) :
    step s = .next (if s.resumes = 0 then s else endWait code k s) := by
  rw [step_advance hr (by simp [hs])]
  simp only [advance, hs]
  split <;> rfl

/-! ## What does not look at SEQ -/

theorem raise_seq (err : ErrKind) (k : Nat) (s : State) (q : Seq) : raise err k { s with seq := q } = raise err k s := by
  unfold raise; split <;> rfl

theorem goOnCheck_seq (p : CheckProc) (seen : List Byte) (code : List Phase) (k : Nat) (o s : State) (q : Seq) :
    goOnCheck p seen code k o { s with seq := q } = goOnCheck p seen code k o s := by
  unfold goOnCheck
  split
  · rfl
  · split
    · rfl
    · exact raise_seq ..

theorem launch_seq (code : List Phase) (k : Nat) (s : State) (q : Seq) : launch code k { s with seq := q } = launch code k s := by
  induction code with
  | nil => rfl
  | cons p rest ih =>
    cases p with
    | check p => simp only [launch, ih, goOnCheck_seq]
    | _ => rfl

theorem afterPoll_seq (coop : Bool) (code : List Phase) (k : Nat) (s : State) (q : Seq) :
    afterPoll coop code k { s with seq := q } = afterPoll coop code k s := by
  unfold afterPoll
  dsimp only
  split
  · exact launch_seq code k { s with lat := { s.lat with pcnt := s.lat.pcnt + 1 } } q
  · exact raise_seq _ k { s with lat := { s.lat with pcnt := s.lat.pcnt + 1 } } q
  · rfl

theorem afterTransaction_seq (post : Post) (code : List Phase) (k : Nat) (s : State) (q : Seq) :
    afterTransaction post code k { s with seq := q } = afterTransaction post code k s := by
  cases post with
  | proceed => exact launch_seq ..
  | poll coop => exact afterPoll_seq ..
  | pollOnce t =>
    simp only [afterTransaction, afterPollOnce]
    split
    · exact launch_seq ..
    · rfl
  | check rest seen => simp only [afterTransaction, afterCheck, launch_seq, goOnCheck_seq]
  | len =>
    simp only [afterTransaction, afterLen]
    split
    · rfl
    · split
      · exact raise_seq ..
      · rfl

theorem launch_congr {s t : State} (code : List Phase) (k : Nat) (h : { s with seq := t.seq } = t) :
    launch code k s = launch code k t :=
  (launch_seq code k s t.seq).symm.trans (congrArg (launch code k) h)

theorem afterTransaction_congr {s t : State} (post : Post) (code : List Phase) (k : Nat) (h : { s with seq := t.seq } = t) :
    afterTransaction post code k s = afterTransaction post code k t :=
  (afterTransaction_seq post code k s t.seq).symm.trans (congrArg (afterTransaction post code k) h)

/-! ## The four transactions -/

theorem step_begin {s : State} (hr : s.resetIn = false) {k : Nat} {h : Byte} {o : Op} {os : List Op} {post : Post}
    {code : List Phase} (hs : s.seq = .run k (.bus ⟨.begin h, o :: os, post, code⟩)) (ho : s.busOpen = false) {b : Byte}
    {as : List BusAnswer} (hb : s.bus = .done b :: as) :
    step s = .next { s with seq := .run (k + 1) (.bus ⟨o, os, post, code⟩), busOpen := true, bus := as,
                            lat := { s.lat with hdr := h }, trace := s.trace ++ [.begin] } := by
  rw [step_bus hr hs hb]
  simp [perform, microOp, busBegin, ho, completed, loopLatches, emit]

theorem step_exchange {s : State} (hr : s.resetIn = false) {k : Nat} {op o : Op} {os : List Op} {post : Post}
    {code : List Phase} {tx : Byte} (hs : s.seq = .run k (.bus ⟨op, o :: os, post, code⟩)) (ht : op.tx s.lat = some tx)
    (ho : s.busOpen = true) {rx : Byte} {as : List BusAnswer} (hb : s.bus = .done rx :: as) :
    step s = .next { s with seq := .run (k + 1) (.bus ⟨o, os, post, code⟩), bus := as,
                            lat := loopLatches op rx { s.lat with rxb := rx }, trace := s.trace ++ [.xfer tx rx] } := by
  rw [step_bus hr hs hb]
  cases op <;> simp [Op.tx] at ht <;> subst ht <;> simp [perform, microOp, busXfer, ho, completed, emit]

theorem step_finish {s : State} (hr : s.resetIn = false) {k : Nat} {post : Post} {code : List Phase}
    (hs : s.seq = .run k (.bus ⟨.finish, [], post, code⟩)) (ho : s.busOpen = true) {e : Byte} {as : List BusAnswer}
    (hb : s.bus = .done e :: as) :
    step s = .next (afterTransaction post code (k + 1) { s with busOpen := false, bus := as, trace := s.trace ++ [.finish] }) := by
  rw [step_bus hr hs hb]
  simp [perform, microOp, busEnd, ho, completed, loopLatches, emit]

/-- The state when a transaction has ended: header latch, last byte received, events, the answers left. -/
def State.traded (s : State) (h rx : Byte) (evs : List Event) (as : List BusAnswer) : State :=
  { s with lat := { s.lat with hdr := h, rxb := rx }, trace := s.trace ++ evs, bus := as }

/-- `Strobe(c)` with three completed micro-operations (R53). -/
theorem runs_startStrobe (x : Rx1) {as : List BusAnswer} (k : Nat) (c : Addr) (code : List Phase) {s : State}
    (hr : s.resetIn = false) (ho : s.busOpen = false) (hb : s.bus = x.answers ++ as) :
    runs 3 (startStrobe k c code s) = .next (launch code (k + 3) (s.traded (hdr false false c) x.h (strobeEvents c x) as)) := by
  simp only [Rx1.answers, List.cons_append, List.nil_append] at hb
  refine runs_step 2 (step_begin (by exact hr) (by rfl) (by exact ho) (by exact hb)) ?_
  refine runs_step 1 (step_exchange (by exact hr) (by rfl) (by rfl) (by rfl) (by rfl)) ?_
  refine runs_step 0 (step_finish (by exact hr) (by rfl) (by rfl) (by rfl)) ?_
  refine congrArg _ (launch_congr _ _ ?_)
  simp [startStrobe, State.traded, strobeEvents, loopLatches, ho]

/-- `MemRead(a, 1)` with four completed micro-operations (R53). -/
theorem runs_startRead (x : Rx2) {as : List BusAnswer} (k : Nat) (a : Addr) (post : Post) (code : List Phase) {s : State}
    (hr : s.resetIn = false) (ho : s.busOpen = false) (hb : s.bus = x.answers ++ as) :
    runs 4 (startRead k a post code s) =
      .next (afterTransaction post code (k + 4) (s.traded (hdr true false a) x.v (readEvents a x) as)) := by
  simp only [Rx2.answers, List.cons_append, List.nil_append] at hb
  refine runs_step 3 (step_begin (by exact hr) (by rfl) (by exact ho) (by exact hb)) ?_
  refine runs_step 2 (step_exchange (by exact hr) (by rfl) (by rfl) (by rfl) (by rfl)) ?_
  refine runs_step 1 (step_exchange (by exact hr) (by rfl) (by rfl) (by rfl) (by rfl)) ?_
  refine runs_step 0 (step_finish (by exact hr) (by rfl) (by rfl) (by rfl)) ?_
  refine congrArg _ (afterTransaction_congr _ _ _ ?_)
  simp [startRead, State.traded, readEvents, loopLatches, ho]

/-- `MemWrite(a, 1, v)` with four completed micro-operations (R53). -/
theorem runs_startWrite (x : Rx2) {as : List BusAnswer} (k : Nat) (a : Addr) (v : Byte) (code : List Phase) {s : State}
    (hr : s.resetIn = false) (ho : s.busOpen = false) (hb : s.bus = x.answers ++ as) :
    runs 4 (startWrite k a v code s) =
      .next (launch code (k + 4) (s.traded (hdr false false a) x.v (writeEvents a v x) as)) := by
  simp only [Rx2.answers, List.cons_append, List.nil_append] at hb
  refine runs_step 3 (step_begin (by exact hr) (by rfl) (by exact ho) (by exact hb)) ?_
  refine runs_step 2 (step_exchange (by exact hr) (by rfl) (by rfl) (by rfl) (by rfl)) ?_
  refine runs_step 1 (step_exchange (by exact hr) (by rfl) (by rfl) (by rfl) (by rfl)) ?_
  refine runs_step 0 (step_finish (by exact hr) (by rfl) (by rfl) (by rfl)) ?_
  refine congrArg _ (launch_congr _ _ ?_)
  simp [startWrite, State.traded, writeEvents, loopLatches, ho]

/-! ## The burst loops -/

/-- The latches after the reading loop has received `vs` (R53). -/
def recvLoop (lat : Latches) : List Byte → Latches
  | [] => lat
  | v :: vs => recvLoop (loopLatches .recvBuf v { lat with rxb := v }) vs

/-- The latches after the writing loop has received `vs` (R53). -/
def sendLoop (lat : Latches) : List Byte → Latches
  | [] => lat
  | v :: vs => sendLoop (loopLatches .sendBuf v { lat with rxb := v }) vs

/-- The events of the writing loop that receives `vs` (R53). -/
def sendEvents (lat : Latches) : List Byte → List Event
  | [] => []
  | v :: vs => .xfer (lat.buf.toList.getD lat.cnt.toNat 0) v :: sendEvents (loopLatches .sendBuf v { lat with rxb := v }) vs

theorem runs_recvBufs (vs : List Byte) {as : List BusAnswer} {s : State} (hr : s.resetIn = false) {k : Nat} {post : Post}
    {code : List Phase} (e : Byte) (v : Byte)
    (hs : s.seq = .run k (.bus ⟨.recvBuf, List.replicate vs.length .recvBuf ++ [.finish], post, code⟩)) (ho : s.busOpen = true)
    (hb : s.bus = .done v :: (vs.map .done ++ .done e :: as)) :
    runs (vs.length + 2) s = .next (afterTransaction post code (k + vs.length + 2)
        { s with busOpen := false, bus := as, trace := s.trace ++ (.xfer 0x00 v :: vs.map (.xfer 0x00 ·) ++ [.finish]),
                 lat := recvLoop s.lat (v :: vs) }) := by
  induction vs generalizing s k v with
  | nil =>
    simp only [List.map_nil, List.nil_append, List.length_nil, List.replicate_zero] at hs hb ⊢
    refine runs_step 1 (step_exchange (by exact hr) (by exact hs) (by rfl) (by exact ho) (by exact hb)) ?_
    refine runs_step 0 (step_finish (by exact hr) (by rfl) (by exact ho) (by rfl)) ?_
    refine congrArg _ (afterTransaction_congr _ _ _ ?_)
    simp [recvLoop]
  | cons w ws ih =>
    simp only [List.length_cons, List.replicate_succ, List.cons_append, List.map_cons] at hs hb ⊢
    rw [show k + (ws.length + 1) + 2 = k + 1 + ws.length + 2 by omega]
    refine runs_step (ws.length + 2) (step_exchange (by exact hr) (by exact hs) (by rfl) (by exact ho) (by exact hb)) ?_
    refine Eq.trans (ih (by exact hr) w (by rfl) (by exact ho) (by rfl)) ?_
    refine congrArg _ (afterTransaction_congr _ _ _ ?_)
    simp [recvLoop]

theorem runs_sendBufs (vs : List Byte) {as : List BusAnswer} {s : State} (hr : s.resetIn = false) {k : Nat} {post : Post}
    {code : List Phase} (e : Byte) (v : Byte)
    (hs : s.seq = .run k (.bus ⟨.sendBuf, List.replicate vs.length .sendBuf ++ [.finish], post, code⟩)) (ho : s.busOpen = true)
    (hb : s.bus = .done v :: (vs.map .done ++ .done e :: as)) :
    runs (vs.length + 2) s = .next (afterTransaction post code (k + vs.length + 2)
        { s with busOpen := false, bus := as, trace := s.trace ++ (sendEvents s.lat (v :: vs) ++ [.finish]),
                 lat := sendLoop s.lat (v :: vs) }) := by
  induction vs generalizing s k v with
  | nil =>
    simp only [List.map_nil, List.nil_append, List.length_nil, List.replicate_zero] at hs hb ⊢
    refine runs_step 1 (step_exchange (by exact hr) (by exact hs) (by rfl) (by exact ho) (by exact hb)) ?_
    refine runs_step 0 (step_finish (by exact hr) (by rfl) (by exact ho) (by rfl)) ?_
    refine congrArg _ (afterTransaction_congr _ _ _ ?_)
    simp [sendLoop, sendEvents]
  | cons w ws ih =>
    simp only [List.length_cons, List.replicate_succ, List.cons_append, List.map_cons] at hs hb ⊢
    rw [show k + (ws.length + 1) + 2 = k + 1 + ws.length + 2 by omega]
    refine runs_step (ws.length + 2) (step_exchange (by exact hr) (by exact hs) (by rfl) (by exact ho) (by exact hb)) ?_
    refine Eq.trans (ih (by exact hr) w (by rfl) (by exact ho) (by rfl)) ?_
    refine congrArg _ (afterTransaction_congr _ _ _ ?_)
    simp [sendLoop, sendEvents]

theorem cnt_succ {c : BitVec 7} {n : Nat} (h : c.toNat + (n + 1) ≤ 64) : (c + 1).toNat = c.toNat + 1 := by
  rw [BitVec.toNat_add, show (1 : BitVec 7).toNat = 1 from rfl]
  omega

/-- The reading loop leaves the received bytes in the buffer, in order, from the place CNT points to. -/
theorem recvLoop_buf (lat : Latches) (vs : List Byte) (h : lat.cnt.toNat + vs.length ≤ 64) :
    (recvLoop lat vs).buf.toList.take (lat.cnt.toNat + vs.length) = lat.buf.toList.take lat.cnt.toNat ++ vs := by
  induction vs generalizing lat with
  | nil => simp [recvLoop]
  | cons v vs ih =>
    simp only [List.length_cons] at h ⊢
    have hc := cnt_succ h
    have := ih (loopLatches .recvBuf v { lat with rxb := v }) (by simp only [loopLatches, hc]; omega)
    simp only [loopLatches, hc] at this
    rw [recvLoop, show lat.cnt.toNat + (vs.length + 1) = lat.cnt.toNat + 1 + vs.length by omega, loopLatches, this]
    have hl : lat.cnt.toNat < 64 := by omega
    rw [List.take_add_one, Vector.toList_setIfInBounds, List.take_set_of_le (by omega)]
    simp [hl]

/-- The writing loop sends the bytes of the buffer in order, from the place CNT points to. -/
theorem sendEvents_eq (lat : Latches) (vs rs : List Byte) (hl : vs.length = rs.length) (h : lat.cnt.toNat + vs.length ≤ 64)
    (hb : ∀ i, i < vs.length → lat.buf.toList.getD (lat.cnt.toNat + i) 0 = vs.getD i 0) :
    sendEvents lat rs = List.zipWith .xfer vs rs := by
  induction vs generalizing lat rs with
  | nil => cases rs <;> simp_all [sendEvents]
  | cons v vs ih =>
    cases rs with
    | nil => simp at hl
    | cons r rs =>
      simp only [List.length_cons] at h hl hb
      have hc := cnt_succ h
      simp only [sendEvents, List.zipWith_cons_cons]
      congr 1
      · have := hb 0 (by omega)
        simp at this ⊢
        exact this
      · refine ih _ rs (by omega) (by simp only [loopLatches, hc]; omega) ?_
        intro i hi
        have := hb (i + 1) (by omega)
        simp only [loopLatches, hc]
        rw [show lat.cnt.toNat + 1 + i = lat.cnt.toNat + (i + 1) by omega, this]
        simp

theorem loadBuf_other (buf : Vector Byte 64) (i j : Nat) (vs : List Byte) (h : j < i) :
    (loadBuf buf i vs).toList.getD j 0 = buf.toList.getD j 0 := by
  induction vs generalizing buf i with
  | nil => rfl
  | cons v vs ih =>
    rw [loadBuf, ih _ _ (by omega), Vector.toList_setIfInBounds]
    simp [List.getD_eq_getElem?_getD, List.getElem?_set_ne (show i ≠ j by omega)]

theorem loadBuf_getD (buf : Vector Byte 64) (i j : Nat) (vs : List Byte) (hj : j < vs.length) (hi : i + vs.length ≤ 64) :
    (loadBuf buf i vs).toList.getD (i + j) 0 = vs.getD j 0 := by
  induction vs generalizing buf i j with
  | nil => simp at hj
  | cons v vs ih =>
    simp only [List.length_cons] at hj hi
    rw [loadBuf]
    cases j with
    | zero =>
      rw [Nat.add_zero, loadBuf_other _ _ _ _ (by omega), Vector.toList_setIfInBounds]
      simp [List.getD_eq_getElem?_getD, show i < 64 by omega]
    | succ j =>
      rw [show i + (j + 1) = i + 1 + j by omega, ih _ _ _ (by omega) (by omega)]
      simp

/-- `MemRead(a, n, burst)` with `n + 3` completed micro-operations (R53): the bytes received stand at the start of BUF. -/
theorem runs_startReadBurst (x : RxN) {as : List BusAnswer} (k : Nat) (a : Addr) (n : Nat) (code : List Phase) {s : State}
    (hr : s.resetIn = false) (ho : s.busOpen = false) (hn : x.vs.length = n) (h1 : 1 ≤ n) (h64 : n ≤ 64)
    (hb : s.bus = x.answers ++ as) :
    ∃ lat, bufTake lat n = x.vs ∧ runs (n + 3) (startReadBurst k a n code s) =
      .next (launch code (k + n + 3) { s with lat := lat, bus := as, trace := s.trace ++ readBurstEvents a x }) := by
  obtain ⟨b, h, vs, e⟩ := x
  cases vs with
  | nil => simp at hn; omega
  | cons v vs =>
    simp only [List.length_cons] at hn
    subst hn
    refine ⟨recvLoop { s.lat with hdr := hdr true true a, rxb := h, cnt := 0 } (v :: vs), ?_, ?_⟩
    · have := recvLoop_buf { s.lat with hdr := hdr true true a, rxb := h, cnt := 0 } (v :: vs) (by simpa using h64)
      simpa [bufTake] using this
    · simp only [RxN.answers, List.cons_append, List.append_assoc, List.nil_append, List.map_cons] at hb
      rw [show k + (vs.length + 1) + 3 = k + 1 + 1 + vs.length + 2 by omega]
      refine runs_step (vs.length + 3) (step_begin (by exact hr) (by rfl) (by exact ho) (by exact hb)) ?_
      refine runs_step (vs.length + 2) (step_exchange (by exact hr) (by rfl) (by rfl) (by rfl) (by rfl)) ?_
      refine Eq.trans (runs_recvBufs vs (as := as) (by exact hr) e v (by rfl) (by rfl) (by rfl)) ?_
      refine congrArg _ (launch_congr _ _ ?_)
      simp [startReadBurst, readBurstEvents, loopLatches, ho]

/-- `MemWrite(a, n, v, burst)` with `n + 3` completed micro-operations (R53). -/
theorem runs_startWriteBurst (x : RxN) {as : List BusAnswer} (k : Nat) (a : Addr) (bs : List Byte) (code : List Phase) {s : State}
    (hr : s.resetIn = false) (ho : s.busOpen = false) (hn : x.vs.length = bs.length) (h1 : 1 ≤ bs.length) (h64 : bs.length ≤ 64)
    (hb : s.bus = x.answers ++ as) :
    ∃ lat, runs (bs.length + 3) (startWriteBurst k a bs code s) =
      .next (launch code (k + bs.length + 3) { s with lat := lat, bus := as, trace := s.trace ++ writeBurstEvents a bs x }) := by
  obtain ⟨b, h, vs, e⟩ := x
  cases vs with
  | nil => simp at hn; omega
  | cons v vs =>
    simp only [List.length_cons] at hn
    refine ⟨sendLoop { s.lat with hdr := hdr false true a, rxb := h, cnt := 0, buf := loadBuf s.lat.buf 0 bs } (v :: vs), ?_⟩
    have hs := sendEvents_eq { s.lat with hdr := hdr false true a, rxb := h, cnt := 0, buf := loadBuf s.lat.buf 0 bs } bs
      (v :: vs) (by simp [← hn]) (by simpa using h64) (by
        intro i hi
        have := loadBuf_getD s.lat.buf 0 i bs hi (by omega)
        simpa using this)
    simp only [RxN.answers, List.cons_append, List.append_assoc, List.nil_append, List.map_cons] at hb
    have hw : startWriteBurst k a bs code s = start k (hdr false true a) .burstHeader (List.replicate (vs.length + 1) .sendBuf)
        .proceed code { s with lat := { s.lat with buf := loadBuf s.lat.buf 0 bs } } := by
      rw [startWriteBurst, hn]
    rw [hw, ← hn]
    rw [show k + (vs.length + 1) + 3 = k + 1 + 1 + vs.length + 2 by omega]
    refine runs_step (vs.length + 3) (step_begin (by exact hr) (by rfl) (by exact ho) (by exact hb)) ?_
    refine runs_step (vs.length + 2) (step_exchange (by exact hr) (by rfl) (by rfl) (by rfl) (by rfl)) ?_
    refine Eq.trans (runs_sendBufs vs (as := as) (by exact hr) e v (by rfl) (by rfl) (by rfl)) ?_
    refine congrArg _ (launch_congr _ _ ?_)
    simp [writeBurstEvents, loopLatches, ho, ← hs]

/-! ## Accepted commands -/

/-- Whether a phase, as the first of a command, has a task to perform. -/
def Phase.opens : Phase → Bool
  | .ret _ | .check _ => false
  | .pin | .strobe _ | .read _ | .write _ _ | .writeBack _ _ | .readBurst _ _ | .writeBurst _ _ | .await _ _ | .pollOnce _
  | .readLen => true

theorem launch_accepted {p : Phase} (h : p.opens = true) (rest : List Phase) (s : State) :
    s.Accepted (launch (p :: rest) 0 s) := by
  cases p <;> first
    | exact ⟨_, rfl⟩
    | simp [Phase.opens] at h

/-- A command that is accepted with some phases completes as they do. -/
theorem completes_of_accept {i : Instr} {s t : State} {p : Phase} {rest : List Phase} {n : Nat} (hs : s.seq = .ready)
    (he : exec i s = accept (p :: rest) s) (hp : p.opens = true) (hr : runs n (launch (p :: rest) 0 s) = .next t) :
    Completes i s n t :=
  ⟨_, he.trans (accept_ready hs _), launch_accepted hp rest s, hr⟩

end Sys2Proof.Machine
end

