-- ==== Sys2Proof/Laws/RegMap.lean ====
section
/-! SUPPORT. What a valid configuration gives (R25, R5): entries found at their addresses, bursts that fit the buffer, and accesses
that the sequences of the commands may make. -/

namespace Sys2Proof

theorem Cfg.valid_nodup {c : Cfg} (h : c.valid = true) : (c.entries.map Entry.addr).Nodup := by
  simp only [Cfg.valid, Bool.and_eq_true, decide_eq_true_eq] at h
  tauto

theorem Cfg.valid_xtal {c : Cfg} (h : c.valid = true) : 1 ≤ c.xtalHz := by
  simp only [Cfg.valid, Bool.and_eq_true, decide_eq_true_eq] at h
  tauto

theorem Cfg.valid_maxlen {c : Cfg} (h : c.valid = true) : ∀ e ∈ c.entries, e.cls.maxlen ≤ 64 := by
  simp only [Cfg.valid, Bool.and_eq_true, decide_eq_true_eq, List.all_eq_true] at h
  tauto

theorem Cfg.valid_fixed {c : Cfg} (h : c.valid = true) : 1 ≤ c.fixedPktLen ∧ c.fixedPktLen ≤ c.fifoMax := by
  simp only [Cfg.valid, Bool.and_eq_true, decide_eq_true_eq] at h
  tauto

theorem Cfg.valid_var {c : Cfg} (h : c.valid = true) : 1 ≤ c.varPktMax ∧ c.varPktMax + 1 ≤ c.fifoMax := by
  simp only [Cfg.valid, Bool.and_eq_true, decide_eq_true_eq] at h
  tauto

theorem Cfg.valid_fifo {c : Cfg} (h : c.valid = true) : c.fifoMax ≤ 64 := by
  simp only [Cfg.valid, Bool.and_eq_true, decide_eq_true_eq] at h
  tauto

theorem Cfg.valid_fmts {c : Cfg} (h : c.valid = true) : c.drateFmt.bias = 2 ^ c.drateFmt.mbits ∧
    c.bwFmt.bias = 2 ^ c.bwFmt.mbits ∧ c.devFmt.bias = 2 ^ c.devFmt.mbits := by
  simp only [Cfg.valid, Bool.and_eq_true, List.all_cons, List.all_nil, decide_eq_true_eq] at h
  tauto

theorem Cfg.valid_check {c : Cfg} (h : c.valid = true) {q : CheckProc} (hq : c.rxCheck = some q) :
    ∀ a ∈ q.regs, c.classAt a = some .status := by
  simp only [Cfg.valid, Bool.and_eq_true, hq, List.all_eq_true, beq_iff_eq] at h
  exact h.2

/-- No two entries share an address (R25 iv), so an entry is the one found at its address. -/
theorem Cfg.classAt_entry {c : Cfg} (h : c.valid = true) {e : Entry} (he : e ∈ c.entries) : c.classAt e.addr = some e.cls := by
  unfold Cfg.classAt Cfg.entryAt
  have hn := Cfg.valid_nodup h
  generalize c.entries = l at he hn
  induction l with
  | nil => simp at he
  | cons d l ih =>
    simp only [List.map_cons, List.nodup_cons] at hn
    rcases List.mem_cons.mp he with rfl | he
    · simp
    · have : d.addr ≠ e.addr := fun hd => hn.1 (hd ▸ List.mem_map_of_mem he)
      simpa [List.find?_cons, this] using ih he hn.2

theorem Cfg.maxBurst_le {c : Cfg} (h : c.valid = true) (a : Addr) : Machine.maxBurst c a ≤ 64 := by
  unfold Machine.maxBurst
  split
  · rename_i cls hc
    unfold Cfg.classAt Cfg.entryAt at hc
    simp only [Option.map_eq_some_iff] at hc
    obtain ⟨e, he, rfl⟩ := hc
    exact Cfg.valid_maxlen h e (List.mem_of_find?_eq_some he)
  · omega

theorem Cfg.namedStrobes_entry {c : Cfg} {p : Addr × Instr} (hp : p ∈ c.namedStrobes) :
    ∃ e ∈ c.entries, e.addr = p.1 ∧ e.cls = .command := by
  simp only [Cfg.namedStrobes, List.mem_cons, List.not_mem_nil, or_false] at hp
  rcases hp with rfl | rfl | rfl | rfl | rfl | rfl | rfl | rfl | rfl <;> simp [Cfg.entries]

/-- Each of the nine strobes of R27 is at a `command` address. -/
theorem Cfg.classAt_namedStrobe {c : Cfg} (h : c.valid = true) {p : Addr × Instr} (hp : p ∈ c.namedStrobes) :
    c.classAt p.1 = some .command := by
  obtain ⟨e, he, ha, hc⟩ := Cfg.namedStrobes_entry hp
  rw [← ha, ← hc, Cfg.classAt_entry h he]

theorem Cfg.classAt_fifo {c : Cfg} (h : c.valid = true) : c.classAt c.regmap.fifo = some (.region c.fifoMax) :=
  Cfg.classAt_entry h (e := ⟨.fifo, c.regmap.fifo, .region c.fifoMax⟩) (by simp [Cfg.entries])

theorem Cfg.classAt_fsmState {c : Cfg} (h : c.valid = true) : c.classAt c.regmap.fsmState = some .status :=
  Cfg.classAt_entry h (e := ⟨.fsmState, c.regmap.fsmState, .status⟩) (by simp [Cfg.entries])

theorem Cfg.classAt_modeRow {c : Cfg} (h : c.valid = true) (m : RadioMode) : c.classAt (c.modeRow m).1 = some .command := by
  cases m
  · exact Cfg.classAt_namedStrobe h (p := (c.regmap.cmdRx, .strobeCmdRx)) (by simp [Cfg.namedStrobes])
  · exact Cfg.classAt_namedStrobe h (p := (c.regmap.cmdTx, .strobeCmdTx)) (by simp [Cfg.namedStrobes])
  · exact Cfg.classAt_namedStrobe h (p := (c.regmap.cmdIdle, .strobeCmdIdle)) (by simp [Cfg.namedStrobes])
  · exact Cfg.classAt_namedStrobe h (p := (c.regmap.cmdCal, .strobeCmdCal)) (by simp [Cfg.namedStrobes])

/-- The addresses of the nine strobes are distinct (R25 iv). -/
theorem Cfg.namedStrobes_nodup {c : Cfg} (h : c.valid = true) : (c.namedStrobes.map Prod.fst).Nodup := by
  have hn := Cfg.valid_nodup h
  refine hn.sublist ?_
  simp only [Cfg.entries, List.map_append, List.map_cons, List.map_nil, Cfg.namedStrobes, List.append_assoc]
  refine List.Sublist.trans ?_ (List.sublist_append_right _ _)
  refine List.Sublist.trans ?_ (List.sublist_append_right _ _)
  exact List.sublist_append_left _ _

end Sys2Proof

namespace Sys2Proof.Machine

/-- Checks 1 to 3 of R90 pass where the class admits the access. -/
theorem checkAddr_allows {c : Cfg} {acc : Access} {a : Addr} (h : c.allows acc a = true) : checkAddr c acc a.toNat = .ok a := by
  have ha : a.toNat < 64 := a.isLt
  have he : BitVec.ofNat 6 a.toNat = a := by simp
  unfold Cfg.allows at h
  unfold checkAddr
  rw [if_neg (by omega), he]
  split at h <;> simp_all

end Sys2Proof.Machine
end

