-- ==== Sys2Proof/Laws/Await.lean ====
section
/-! SUPPORT. What the await loop does: polls that miss the target, the poll that reaches it, and the poll that uses up the bound
(R153 to R156). -/

namespace Sys2Proof.Machine

/-- The latches after one poll, counted (R152, R153). -/
def polledLatches (s : State) (p : Rx2) : Latches :=
  { s.lat with hdr := hdr true false s.cfg.regmap.fsmState, rxb := p.v, pcnt := s.lat.pcnt + 1 }

/-- The state after one poll that missed, and its wait if there is one (R153, R156). -/
def State.missed (s : State) (coop : Bool) (p : Rx2) (as : List BusAnswer) : State :=
  { s with trace := s.trace ++ (readEvents s.cfg.regmap.fsmState p ++ if coop then [.wait s.cfg.pollIntervalUs] else []),
           resumes := s.resumes - (if coop then 1 else 0), lat := polledLatches s p, bus := as }

/-- The micro-operations and waits of one missed poll, as RUN counts them. -/
def missCost (coop : Bool) : Nat := if coop then 5 else 4

/-- The steps of one missed poll: a wait is issued in one and ended in another. -/
def missSteps (coop : Bool) : Nat := if coop then 6 else 4

theorem missEvents_cons (c : Cfg) (coop : Bool) (p : Rx2) (ps : List Rx2) :
    missEvents c coop (p :: ps) =
      readEvents c.regmap.fsmState p ++ ((if coop then [.wait c.pollIntervalUs] else []) ++ missEvents c coop ps) := by
  cases coop <;> simp [missEvents, coopPollEvents, busyPollEvents]

theorem pollsUsedUp_false {c : Cfg} {m : Nat} (h : ∀ n, c.maxPolls = some n → m < n) : pollsUsedUp c m = false := by
  unfold pollsUsedUp
  split
  · rfl
  · rename_i n hn
    simpa using h n hn

/-- A poll that misses the target within the bound leads back to the poll. -/
theorem runs_miss (coop : Bool) (code : List Phase) (p : Rx2) {as : List BusAnswer} (k : Nat) {s : State}
    (hr : s.resetIn = false) (ho : s.busOpen = false) (hm : p.reads s.cfg s.lat.tgt = false)
    (hn : ∀ n, s.cfg.maxPolls = some n → s.lat.pcnt + 1 < n) (hw : coop = true → 1 ≤ s.resumes)
    (hb : s.bus = p.answers ++ as) :
    runs (missSteps coop) (startRead k s.cfg.regmap.fsmState (.poll coop) code s) =
      .next (startRead (k + missCost coop) s.cfg.regmap.fsmState (.poll coop) code (s.missed coop p as)) := by
  have hp : stateReached s.cfg p.v s.lat.tgt = false := hm
  have hu := pollsUsedUp_false hn
  have h := runs_startRead p k s.cfg.regmap.fsmState (.poll coop) code hr ho hb
  rw [afterTransaction] at h
  simp only [afterPoll, pollResult, State.traded, hp, hu, Bool.false_eq_true, if_false] at h
  cases coop with
  | false =>
    refine h.trans ?_
    simp [pollJob, startRead, start, State.missed, polledLatches, missCost]
  | true =>
    have : s.resumes ≠ 0 := by have := hw rfl; omega
    refine runs_trans (n := 2) h (runs_step 1 (step_wait (by exact hr) (by rfl)) (runs_step 0 (step_waiting (by exact hr) (by rfl)) ?_))
    simp [runs, issueWait, emit, endWait, this, pollJob, startRead, start, State.missed, polledLatches, missCost]

/-- Polls that miss the target and stay within the bound lead back to the poll, with PCNT counted up. -/
theorem runs_misses (coop : Bool) (code : List Phase) (ps : List Rx2) {as : List BusAnswer} (k : Nat) {s : State}
    (hr : s.resetIn = false) (ho : s.busOpen = false) (hm : ∀ p ∈ ps, p.reads s.cfg s.lat.tgt = false)
    (hn : ∀ n, s.cfg.maxPolls = some n → s.lat.pcnt + ps.length < n) (hw : missWaits coop ps ≤ s.resumes)
    (hb : s.bus = pollAnswers ps ++ as) :
    ∃ lat, lat.tgt = s.lat.tgt ∧ lat.pcnt = s.lat.pcnt + ps.length ∧
      runs (missSteps coop * ps.length) (startRead k s.cfg.regmap.fsmState (.poll coop) code s) =
        .next (startRead (k + missCost coop * ps.length) s.cfg.regmap.fsmState (.poll coop) code
          { s with lat := lat, trace := s.trace ++ missEvents s.cfg coop ps, bus := as,
                   resumes := s.resumes - missWaits coop ps }) := by
  induction ps generalizing k s with
  | nil =>
    refine ⟨s.lat, rfl, rfl, ?_⟩
    have hb' : s.bus = as := hb
    cases coop <;> simp [runs, missWaits, missEvents, coopPollEvents, busyPollEvents, ← hb']
  | cons p ps ih =>
    simp only [missWaits, List.length_cons] at hn hw ⊢
    simp only [pollAnswers, List.flatMap_cons, List.append_assoc] at hb
    obtain ⟨lat, h1, h2, h3⟩ := ih (k + missCost coop) (s := s.missed coop p (pollAnswers ps ++ as)) hr ho
      (fun q hq => hm q (by simp [hq]))
      (fun n h => by have := hn n h; simp only [State.missed, polledLatches]; omega)
      (by cases coop <;> simp_all [State.missed, missWaits]; omega) rfl
    refine ⟨lat, h1, by rw [h2]; simp only [State.missed, polledLatches]; omega, ?_⟩
    rw [show missSteps coop * (ps.length + 1) = missSteps coop + missSteps coop * ps.length by rw [Nat.mul_add]; omega]
    refine runs_trans (runs_miss coop code p k hr ho (hm p (by simp)) (fun n h => by have := hn n h; omega)
      (fun h => by simp only [h, if_true] at hw; omega) hb) (h3.trans ?_)
    rw [missEvents_cons, show k + missCost coop + missCost coop * ps.length = k + missCost coop * (ps.length + 1) by
      rw [Nat.mul_add]; omega, show s.resumes - (if coop then ps.length + 1 else 0) =
        s.resumes - (if coop then 1 else 0) - (if coop then ps.length else 0) by cases coop <;> simp; omega]
    simp [State.missed, missWaits]

theorem Awaited.steps_eq (w : Awaited) (coop : Bool) : w.steps coop = missSteps coop * w.before.length + 4 := by
  cases coop <;> simp [Awaited.steps, Awaited.waits, missWaits, missSteps] <;> omega

theorem Awaited.count_eq (w : Awaited) (coop : Bool) : w.count coop = missCost coop * w.before.length + 4 := by
  cases coop <;> simp [Awaited.count, Awaited.waits, missWaits, missCost] <;> omega

/-- An await that is never answered with its target, and has no bound, goes on polling (R194). -/
theorem runs_polling (coop : Bool) (t : MachineState) (code : List Phase) (ps : List Rx2) (k : Nat) {s : State}
    (hi : s.resetIn = false) (ho : s.busOpen = false) (hm : ∀ p ∈ ps, p.reads s.cfg t = false) (hn : s.cfg.maxPolls = none)
    (hw : missWaits coop ps ≤ s.resumes) (hb : s.bus = pollAnswers ps) :
    ∃ lat : Latches, lat.tgt = t ∧ lat.pcnt = ps.length ∧
      runs (4 * ps.length + 2 * missWaits coop ps) (launch (.await t coop :: code) k s) =
        .next { s with seq := .run (k + (4 * ps.length + missWaits coop ps)) (.bus (pollJob s.cfg coop code)), lat := lat,
                       trace := s.trace ++ missEvents s.cfg coop ps, bus := [], resumes := s.resumes - missWaits coop ps } := by
  obtain ⟨lat, h1, h2, h3⟩ := runs_misses coop code ps (as := []) k (s := { s with lat := { s.lat with tgt := t, pcnt := 0 } })
    hi ho hm (by simp [hn]) hw (by simpa using hb)
  refine ⟨lat, h1, by simpa using h2, ?_⟩
  rw [show 4 * ps.length + 2 * missWaits coop ps = missSteps coop * ps.length by cases coop <;> simp [missWaits, missSteps]; omega,
    show 4 * ps.length + missWaits coop ps = missCost coop * ps.length by cases coop <;> simp [missWaits, missCost]; omega]
  exact h3

/-- An await whose last poll is the first to read the target, within the bound, goes on to the next phase. -/
theorem runs_await (coop : Bool) (t : MachineState) (code : List Phase) (w : Awaited) {as : List BusAnswer} (k : Nat) {s : State}
    (hi : s.resetIn = false) (ho : s.busOpen = false) (hr : w.Reaches s.cfg t) (hw : w.waits coop ≤ s.resumes)
    (hb : s.bus = w.answers ++ as) :
    ∃ lat, runs (w.steps coop) (launch (.await t coop :: code) k s) =
      .next (launch code (k + w.count coop) { s.waited (w.waits coop) with lat := lat, bus := as, trace := s.trace ++ w.events s.cfg coop }) := by
  obtain ⟨hm, hl, hn⟩ := hr
  rw [Awaited.answers, List.append_assoc] at hb
  obtain ⟨lat, h1, h2, h3⟩ := runs_misses coop code w.before k (s := { s with lat := { s.lat with tgt := t, pcnt := 0 } })
    hi ho hm (by simpa using hn) hw hb
  have h4 := runs_startRead w.last (k + missCost coop * w.before.length) s.cfg.regmap.fsmState (.poll coop) code
    (s := { s with lat := lat, trace := s.trace ++ missEvents s.cfg coop w.before, bus := w.last.answers ++ as,
                   resumes := s.resumes - missWaits coop w.before }) hi ho rfl
  have : stateReached s.cfg w.last.v t = true := hl
  simp only [afterTransaction, afterPoll, pollResult, State.traded, h1, this, if_true] at h4
  refine ⟨{ lat with hdr := hdr true false s.cfg.regmap.fsmState, rxb := w.last.v, pcnt := lat.pcnt + 1 }, ?_⟩
  rw [Awaited.steps_eq, Awaited.count_eq, ← Nat.add_assoc]
  refine runs_trans h3 (h4.trans (congrArg _ (launch_congr _ _ ?_)))
  simpa [State.waited, Awaited.waits, Awaited.events] using h1.symm

/-- An await whose polls all miss and use up the bound ends with Timeout (R155). -/
theorem runs_await_timeout (coop : Bool) (t : MachineState) (code : List Phase) (w : Awaited) {as : List BusAnswer} (k : Nat)
    {s : State} (hi : s.resetIn = false) (ho : s.busOpen = false) (hr : w.TimesOut s.cfg t) (hw : w.waits coop ≤ s.resumes)
    (hb : s.bus = w.answers ++ as) :
    runs (w.steps coop) (launch (.await t coop :: code) k s) =
      .next { (s.waited (w.waits coop)).after as (w.events s.cfg coop) (.err (.timeout t (w.before.length + 1))) with
        seq := .ready } := by
  obtain ⟨hm, hl, hn⟩ := hr
  rw [Awaited.answers, List.append_assoc] at hb
  obtain ⟨lat, h1, h2, h3⟩ := runs_misses coop code w.before k (s := { s with lat := { s.lat with tgt := t, pcnt := 0 } })
    hi ho hm (by simp [hn]) hw hb
  have h4 := runs_startRead w.last (k + missCost coop * w.before.length) s.cfg.regmap.fsmState (.poll coop) code
    (s := { s with lat := lat, trace := s.trace ++ missEvents s.cfg coop w.before, bus := w.last.answers ++ as,
                   resumes := s.resumes - missWaits coop w.before }) hi ho rfl
  have hf : stateReached s.cfg w.last.v t = false := hl
  simp only [Nat.zero_add] at h1 h2
  simp only [afterTransaction, afterPoll, pollResult, State.traded, h1, h2, hf, pollsUsedUp, hn] at h4
  rw [Awaited.steps_eq]
  refine runs_trans h3 (h4.trans ?_)
  simp [raise, ho, State.waited, Awaited.waits, Awaited.events, State.after, endCommand, reply, scrub]

end Sys2Proof.Machine
end

