-- ==== Sys2Proof/Laws/Check.lean ====
section
/-! SUPPORT. What a receive-quality check does (R178). -/

namespace Sys2Proof.Machine

/-- Where a check's verdict leads: the error of the verdict, if there is one, else `onward`. -/
def judged (v : Bool × Bool) (seen : List Byte) (k : Nat) (onward : State → State) (s : State) : State :=
  match checkError v.1 v.2 seen with
  | none => onward s
  | some err => raise err k s

/-- A check makes its reads, one transaction of four micro-operations each, and then its verdict decides. -/
theorem runs_check (p : CheckProc) (code : List Phase) (seen : List Byte) (xs : List Rx2) (r : List Addr × Bool × Bool)
    (h : checkRun p seen xs = some r) {as : List BusAnswer} (k : Nat) {s : State} (hr : s.resetIn = false)
    (ho : s.busOpen = false) (hb : s.bus = pollAnswers xs ++ as) :
    ∃ lat k' q, runs (4 * xs.length) (goOnCheck p seen code k (launch code k s) s) =
      .next (judged r.2 (seen ++ xs.map Rx2.v) k' (launch code k')
        { s with lat := lat, bus := as, trace := s.trace ++ checkEvents r.1 xs, seq := q }) := by
  induction p generalizing seen xs r k s with
  | found o c =>
    cases xs with
    | nil =>
      simp only [checkRun, Option.some.injEq] at h
      subst h
      refine ⟨s.lat, k, s.seq, ?_⟩
      have hb' : s.bus = as := hb
      simp [runs, goOnCheck, checkNext, judged, checkEvents, ← hb'] <;> rfl
    | cons x xs => simp [checkRun] at h
  | read a rest ih =>
    cases xs with
    | nil => simp [checkRun] at h
    | cons x xs =>
      simp only [checkRun, Option.map_eq_some_iff] at h
      obtain ⟨r', h', rfl⟩ := h
      simp only [pollAnswers, List.flatMap_cons, List.append_assoc] at hb
      have h1 := runs_startRead x k a (.check rest seen) code hr ho hb
      obtain ⟨lat, k', q, h2⟩ := ih (seen ++ [x.v]) xs r' h' (k + 4)
        (s := s.traded (hdr true false a) x.v (readEvents a x) (pollAnswers xs ++ as)) hr ho rfl
      refine ⟨lat, k', q, ?_⟩
      rw [show 4 * (x :: xs).length = 4 + 4 * xs.length by simp only [List.length_cons]; omega]
      refine runs_trans (t := afterCheck rest seen code (k + 4) (s.traded (hdr true false a) x.v (readEvents a x)
        (pollAnswers xs ++ as))) h1 ?_
      refine Eq.trans h2 ?_
      simp [State.traded, checkEvents]
  | test idx mask val yes no ihy ihn =>
    simp only [checkRun] at h
    split at h
    · rename_i hf
      obtain ⟨lat, k', q, h2⟩ := ihy seen xs r h k hr ho hb
      exact ⟨lat, k', q, by rw [← h2]; simp [goOnCheck, checkNext, hf]⟩
    · rename_i hf
      obtain ⟨lat, k', q, h2⟩ := ihn seen xs r h k hr ho hb
      exact ⟨lat, k', q, by rw [← h2]; simp [goOnCheck, checkNext, hf]⟩

end Sys2Proof.Machine
end

