-- ==== Sys2Proof/Laws/Codec.lean ====
section
/-! SUPPORT. Rounding (R9), the biased mantissa of R125, and what the search of R126 returns. -/

namespace Sys2Proof.Machine

theorem le_roundHalfUp {q : Rat} {n : Int} : n ≤ roundHalfUp q ↔ (n : Rat) - 1 / 2 ≤ q := by
  rw [roundHalfUp, Int.le_floor]
  constructor <;> intro h <;> linarith

theorem roundHalfUp_lt {q : Rat} {n : Int} : roundHalfUp q < n ↔ q < (n : Rat) - 1 / 2 := by
  rw [← not_le, le_roundHalfUp, not_le]

theorem roundHalfUp_mono {p q : Rat} (h : p ≤ q) : roundHalfUp p ≤ roundHalfUp q :=
  Int.floor_le_floor (by linarith)

theorem roundHalfUp_natCast (n : Nat) : roundHalfUp (n : Rat) = n := by
  rw [roundHalfUp, Int.floor_eq_iff]
  constructor <;> push_cast <;> linarith

/-- What the default record of the data rate computes (R125). -/
theorem biasedMantissa_drate (x e : Nat) (t : Rat) : biasedMantissa .drateDefault x e t = t * 2 ^ 28 / (x * 2 ^ e) := by
  simp [biasedMantissa, Fmt.drateDefault, Formula.pow2, evalFormula]

theorem fmtValue_drate (x e m : Nat) : fmtValue .drateDefault x e m = (256 + m) * 2 ^ e * x / 2 ^ 28 := by
  simp [fmtValue, Fmt.drateDefault, Formula.pow2, evalFormula]

/-- What the default record of the deviation computes (R125). -/
theorem biasedMantissa_dev (x e : Nat) (t : Rat) : biasedMantissa .devDefault x e t = t * 2 ^ 17 / (x * 2 ^ e) := by
  simp [biasedMantissa, Fmt.devDefault, Formula.pow2, evalFormula]

theorem fmtValue_dev (x e m : Nat) : fmtValue .devDefault x e m = (8 + m) * 2 ^ e * x / 2 ^ 17 := by
  simp [fmtValue, Fmt.devDefault, Formula.pow2, evalFormula]

/-- What the default record of the bandwidth computes (R125). -/
theorem biasedMantissa_bw (x e : Nat) (t : Rat) : biasedMantissa .bwDefault x e t = x / (8 * t * 2 ^ e) := by
  simp [biasedMantissa, Fmt.bwDefault, Formula.pow2, evalFormula]

theorem fmtValue_bw (x e m : Nat) : fmtValue .bwDefault x e m = x / (8 * (4 + m) * 2 ^ e) := by
  simp [fmtValue, Fmt.bwDefault, Formula.pow2, evalFormula]

theorem drateDefault_lawful {x : Nat} (hx : 1 ≤ x) : LawfulFmt .drateDefault .grows x where
  inverse e m _ _ := by
    have : (x : Rat) ≠ 0 := by positivity
    rw [biasedMantissa_drate, fmtValue_drate]
    simp only [Fmt.drateDefault]
    push_cast
    field_simp
  positive e m _ _ := by
    rw [fmtValue_drate]
    have : 0 < x := hx
    positivity
  halves e t _ _ := by
    rw [biasedMantissa_drate, biasedMantissa_drate, pow_succ]
    ring
  trend e t u _ _ h := by
    simp only [biasedMantissa_drate]
    gcongr

theorem devDefault_lawful {x : Nat} (hx : 1 ≤ x) : LawfulFmt .devDefault .grows x where
  inverse e m _ _ := by
    have : (x : Rat) ≠ 0 := by positivity
    rw [biasedMantissa_dev, fmtValue_dev]
    simp only [Fmt.devDefault]
    push_cast
    field_simp
  positive e m _ _ := by
    rw [fmtValue_dev]
    have : 0 < x := hx
    positivity
  halves e t _ _ := by
    rw [biasedMantissa_dev, biasedMantissa_dev, pow_succ]
    ring
  trend e t u _ _ h := by
    simp only [biasedMantissa_dev]
    gcongr

theorem bwDefault_lawful {x : Nat} (hx : 1 ≤ x) : LawfulFmt .bwDefault .falls x where
  inverse e m _ _ := by
    have : (x : Rat) ≠ 0 := by positivity
    have : (4 + m : Rat) ≠ 0 := by positivity
    rw [biasedMantissa_bw, fmtValue_bw]
    simp only [Fmt.bwDefault]
    push_cast
    field_simp
  positive e m _ _ := by
    rw [fmtValue_bw]
    have : 0 < x := hx
    positivity
  halves e t _ _ := by
    rw [biasedMantissa_bw, biasedMantissa_bw, pow_succ]
    ring
  trend e t u _ ht h := by
    have : 0 < t := ht
    simp only [biasedMantissa_bw]
    gcongr

/-- The rounded biased mantissa at an exponent. -/
abbrev rounded (f : Fmt) (x e : Nat) (t : Rat) : Int := roundHalfUp (biasedMantissa f x e t)

/-- An exponent whose mantissa is too large is passed over (R126). -/
theorem meSearch_skip {f : Fmt} {d : Trend} {x e : Nat} {t : Rat} (h : (f.bias + 2 ^ f.mbits : Int) ≤ rounded f x e t) (left : Nat) :
    meSearch f d x t (left + 1) e = meSearch f d x t left (e + 1) := by
  have h2 : (0 : Int) < 2 ^ f.mbits := by positivity
  rw [rounded] at h
  rw [meSearch]
  rw [if_neg (by omega), if_neg (by omega)]

theorem meSearch_skips {f : Fmt} {d : Trend} {x : Nat} {t : Rat} (i left e : Nat)
    (h : ∀ e', e ≤ e' → e' < e + i → (f.bias + 2 ^ f.mbits : Int) ≤ rounded f x e' t) :
    meSearch f d x t (left + i) e = meSearch f d x t left (e + i) := by
  induction i generalizing e with
  | zero => rfl
  | succ i ih =>
    rw [← Nat.add_assoc, meSearch_skip (h e le_rfl (by omega)), ih (e + 1) (fun e' h1 h2 => h e' (by omega) (by omega))]
    congr 1
    omega

/-- The first exponent whose mantissa fits is returned (R126). -/
theorem meEnc_fits {f : Fmt} {d : Trend} {x : Nat} {t : Quantity} {e m : Nat} (he : e < 2 ^ f.ebits) (hm : m < 2 ^ f.mbits)
    (hr : rounded f x e t.val = f.bias + m)
    (hs : ∀ e' < e, (f.bias + 2 ^ f.mbits : Int) ≤ rounded f x e' t.val) : meEnc f d x t = .ok (.expMant e m) := by
  unfold meEnc
  rw [show 2 ^ f.ebits = (2 ^ f.ebits - e) + e by omega, meSearch_skips e _ 0 (fun e' _ h2 => hs e' (by omega))]
  obtain ⟨k, hk⟩ : ∃ k, 2 ^ f.ebits - e = k + 1 := ⟨2 ^ f.ebits - e - 1, by omega⟩
  have hm' : (m : Int) < 2 ^ f.mbits := by exact_mod_cast hm
  rw [rounded] at hr
  rw [hk, Nat.zero_add, meSearch, hr, if_neg (by omega), if_pos (by omega)]
  simp

/-- A target whose mantissa is negative at the first exponent where it is not too large is out of range on the low side
(R126). -/
theorem meEnc_low {f : Fmt} {d : Trend} {x : Nat} {t : Quantity} {e : Nat} (he : e < 2 ^ f.ebits)
    (hr : rounded f x e t.val < f.bias) (hs : ∀ e' < e, (f.bias + 2 ^ f.mbits : Int) ≤ rounded f x e' t.val) :
    meEnc f d x t = .error (.outOfRange (sideLow d)) := by
  unfold meEnc
  rw [show 2 ^ f.ebits = (2 ^ f.ebits - e) + e by omega, meSearch_skips e _ 0 (fun e' _ h2 => hs e' (by omega))]
  obtain ⟨k, hk⟩ : ∃ k, 2 ^ f.ebits - e = k + 1 := ⟨2 ^ f.ebits - e - 1, by omega⟩
  rw [rounded] at hr
  rw [hk, Nat.zero_add, meSearch, if_pos (by omega)]

/-- A target whose mantissa fits at no exponent is out of range on the high side (R126). -/
theorem meEnc_high {f : Fmt} {d : Trend} {x : Nat} {t : Quantity}
    (hs : ∀ e < 2 ^ f.ebits, (f.bias + 2 ^ f.mbits : Int) ≤ rounded f x e t.val) :
    meEnc f d x t = .error (.outOfRange (sideHigh d)) := by
  unfold meEnc
  have := meSearch_skips (f := f) (d := d) (x := x) (t := t.val) (2 ^ f.ebits) 0 0 (fun e' _ h2 => hs e' (by omega))
  rw [Nat.zero_add] at this
  rw [this, meSearch]

/-- One of the three cases of the search holds (R126). -/
theorem search_cases (f : Fmt) (x : Nat) (t : Rat) :
    (∃ e m : Nat, e < 2 ^ f.ebits ∧ (∀ e' < e, (f.bias + 2 ^ f.mbits : Int) ≤ rounded f x e' t) ∧
      rounded f x e t = f.bias + m ∧ m < 2 ^ f.mbits) ∨
    (∃ e : Nat, e < 2 ^ f.ebits ∧ (∀ e' < e, (f.bias + 2 ^ f.mbits : Int) ≤ rounded f x e' t) ∧ rounded f x e t < f.bias) ∨
    ∀ e < 2 ^ f.ebits, (f.bias + 2 ^ f.mbits : Int) ≤ rounded f x e t := by
  by_cases h2 : ∀ e < 2 ^ f.ebits, (f.bias + 2 ^ f.mbits : Int) ≤ rounded f x e t
  · exact .inr (.inr h2)
  · push Not at h2
    have hex : ∃ e, e < 2 ^ f.ebits ∧ rounded f x e t < (f.bias + 2 ^ f.mbits : Int) := h2
    classical
    obtain ⟨he, hlt⟩ := Nat.find_spec hex
    have hmin : ∀ e' < Nat.find hex, (f.bias + 2 ^ f.mbits : Int) ≤ rounded f x e' t := by
      intro e' h'
      have := Nat.find_min hex h'
      push Not at this
      exact this (by omega)
    generalize Nat.find hex = e at he hlt hmin
    by_cases hge : (f.bias : Int) ≤ rounded f x e t
    · refine .inl ⟨e, (rounded f x e t - f.bias).toNat, he, hmin, by omega, ?_⟩
      have h3 : (2 ^ f.mbits : Int) = ((2 ^ f.mbits : Nat) : Int) := by push_cast; rfl
      omega
    · exact .inr (.inl ⟨e, he, hmin, by omega⟩)

/-- What an accepted target was encoded to (R126). -/
theorem meEnc_ok {f : Fmt} {d : Trend} {x : Nat} {t : Quantity} {e m : Nat} (h : meEnc f d x t = .ok (.expMant e m)) :
    e < 2 ^ f.ebits ∧ m < 2 ^ f.mbits ∧ rounded f x e t.val = f.bias + m ∧
      ∀ e' < e, (f.bias + 2 ^ f.mbits : Int) ≤ rounded f x e' t.val := by
  rcases search_cases f x t.val with ⟨e', m', h1, h2, h3, h4⟩ | ⟨e', h1, h2, h3⟩ | h1
  · rw [meEnc_fits h1 h4 h3 h2] at h
    cases h
    exact ⟨h1, h4, h3, h2⟩
  · rw [meEnc_low h1 h3 h2] at h
    cases h
  · rw [meEnc_high h1] at h
    cases h

end Sys2Proof.Machine
end

