-- ==== Sys2Proof/Laws/Decode.lean ====
section
/-! SUPPORT. Reading back each operand form from the bytes written for it, and finding a strobe's row by its address. -/

namespace Sys2Proof

theorem getNat_putNatFuel (k n : Nat) (r : List Byte) (h : n ≤ k) : getNat (putNatFuel k n ++ r) = some (n, r) := by
  induction k generalizing n with
  | zero =>
    obtain rfl : n = 0 := by omega
    simp [putNatFuel, getNat]
  | succ k ih =>
    unfold putNatFuel
    split
    · rename_i h
      simp [getNat, Nat.mod_eq_of_lt (show n < 256 by omega), h]
    · rename_i h'
      have e : (n % 128 + 128) % 256 = n % 128 + 128 := by omega
      simp only [List.cons_append, getNat, BitVec.toNat_ofNat]
      rw [show (2 : Nat) ^ 8 = 256 from rfl, e, if_neg (by omega), ih (n / 128) (by omega)]
      simp
      omega

theorem getNat_putNat (n : Nat) (r : List Byte) : getNat (putNat n ++ r) = some (n, r) :=
  getNat_putNatFuel n n r le_rfl

theorem getBytes_putBytes (l r : List Byte) : getBytes (putBytes l ++ r) = some (l, r) := by
  simp [getBytes, putBytes, getNat_putNat, getRaw]

theorem getNats_putNats (l : List Nat) (r : List Byte) : getNats l.length (putNats l ++ r) = some (l, r) := by
  induction l with
  | nil => rfl
  | cons n l ih => simp [getNats, putNats, getNat_putNat, ih]

theorem getNatList_putNats (l : List Nat) (r : List Byte) :
    getNatList (putNat l.length ++ (putNats l ++ r)) = some (l, r) := by
  simp [getNatList, getNat_putNat, getNats_putNats]

theorem Quantity.ofRatio_num_den (q : Quantity) : Quantity.ofRatio q.val.num.toNat (q.val.den - 1 + 1) = q := by
  obtain ⟨v, hv⟩ := q
  simp only [Quantity.ofRatio, Quantity.mk.injEq]
  have h1 : (v.num.toNat : Int) = v.num := Int.toNat_of_nonneg (Rat.num_nonneg.mpr hv)
  have h2 : v.den - 1 + 1 = v.den := Nat.succ_pred_eq_of_pos v.den_pos
  rw [h2, h1, Rat.mkRat_self]

theorem getQuantity_putQuantity (q : Quantity) (r : List Byte) : getQuantity (putQuantity q ++ r) = some (q, r) := by
  simp [getQuantity, putQuantity, getNat_putNat, Quantity.ofRatio_num_den]

theorem getField_putField (f : Field) (r : List Byte) : getField? (putField f ++ r) = some (f, r) := by
  simp [getField?, putField, getNat_putNat]

theorem getState_putState (t : MachineState) (r : List Byte) : getState (putState t ++ r) = some (t, r) := by
  cases t <;> simp [getState, putState]

theorem getMode_putMode (m : RadioMode) (r : List Byte) : getMode (putMode m ++ r) = some (m, r) := by
  cases m <;> simp [getMode, putMode]

theorem getDisc_putDisc (d : Disc) (r : List Byte) : getDisc (putDisc d ++ r) = some (d, r) := by
  cases d <;> simp [getDisc, putDisc]

theorem getFrame_putFrame (f : Frame) (r : List Byte) : getFrame (putFrame f ++ r) = some (f, r) := by
  cases f <;> simp [getFrame, putFrame, getNat_putNat, getBytes_putBytes]

theorem getModFn_putModFn {form : ModFnForm} {f : ModFn} (h : f.ok form = true) (r : List Byte) :
    getModFn form (putModFn f ++ r) = some (f, r) := by
  cases form <;> cases f <;> simp_all [ModFn.ok, getModFn, putModFn, getRaw, getBytes_putBytes]

/-- A command whose operands decode is decoded. -/
theorem decodeCommand_of {c : Cfg} {code : Byte} {r : List Byte} {i : Instr} (hc : code ∈ commandCodes)
    (h : decodeOperands c code r = some i) : decodeCommand c (code :: r) = .ok i := by
  simp [decodeCommand, hc, h]

theorem hdrAddr_hdr (rw b : Bool) (a : Addr) : hdrAddr (hdr rw b a) = a := by
  revert a
  cases rw <;> cases b <;> decide

theorem hdrBurst_hdr (rw b : Bool) (a : Addr) : hdrBurst (hdr rw b a) = b := by
  revert a
  cases rw <;> cases b <;> decide

theorem hdrRead_hdr (rw b : Bool) (a : Addr) : hdrRead (hdr rw b a) = rw := by
  revert a
  cases rw <;> cases b <;> decide

/-- The row of one of the nine named strobes is found by its address. -/
theorem strobeRow_named {c : Cfg} (hv : c.valid = true) {p : Addr × Instr} (hp : p ∈ c.namedStrobes) :
    strobeRow c p.1 = p.2 := by
  have hn := Cfg.namedStrobes_nodup hv
  unfold strobeRow
  generalize c.namedStrobes = l at hp hn
  have : l.find? (fun q => q.1 == p.1) = some p := by
    induction l with
    | nil => simp at hp
    | cons q l ih =>
      simp only [List.map_cons, List.nodup_cons] at hn
      rcases List.mem_cons.mp hp with rfl | hp
      · simp
      · have : q.1 ≠ p.1 := fun hd => hn.1 (hd ▸ List.mem_map_of_mem hp)
        simpa [List.find?_cons, this] using ih hp hn.2
  rw [this]

end Sys2Proof
end

