-- ==== Sys2Proof/Laws/Step.lean ====
section
/-! SUPPORT. What `exec` can do, said once: the forms of a command's execution, and when they are legal. -/

namespace Sys2Proof.Machine

/-- How a command executes in READY: it is accepted with the phases it is made of, or answers a pure result, or raises an
error. -/
def ExecForm (s : State) (a : Answer) : Prop :=
  (∃ code, a = .next (launch code 0 s) ∧ (s.cfg.valid = true → code.all (Phase.legal s.cfg) = true)) ∨
  (∃ v, a = .next (reply (.ok v) s)) ∨
  (∃ err, a = .next (raise err 0 s))

theorem checkAddr_ok {c : Cfg} {acc : Access} {n : Nat} {a : Addr} (h : checkAddr c acc n = .ok a) : c.allows acc a = true := by
  unfold checkAddr at h
  split at h
  · cases h
  · split at h
    · cases h
    · rename_i cls hc
      split at h
      · rename_i ha
        cases h
        simp [Cfg.allows, hc, ha]
      · cases h

variable {s : State}

theorem execForm_accept (hr : s.seq = .ready) {code : List Phase}
    (hl : s.cfg.valid = true → code.all (Phase.legal s.cfg) = true) : ExecForm s (accept code s) :=
  .inl ⟨code, accept_ready hr code, hl⟩

theorem execForm_answer (hr : s.seq = .ready) (v : Value) : ExecForm s (answer v s) :=
  .inr (.inl ⟨v, answer_ready hr v⟩)

theorem execForm_reject (hr : s.seq = .ready) (err : ErrKind) : ExecForm s (reject err s) :=
  .inr (.inr ⟨err, reject_ready hr err⟩)

theorem execForm_checked (hr : s.seq = .ready) {e : Except Reason α} {k : α → Answer}
    (hk : ∀ x, e = .ok x → ExecForm s (k x)) : ExecForm s (checked e s k) := by
  cases e with
  | ok x => exact hk x rfl
  | error r => exact execForm_reject hr _

theorem execForm_codec (hr : s.seq = .ready) (r : Except ErrKind Value) : ExecForm s (answerCodec r s) := by
  cases r with
  | ok v => exact execForm_answer hr v
  | error k => exact execForm_reject hr k

theorem allows_strobe {c : Cfg} {a : Addr} (h : c.classAt a = some .command) : c.allows .strobe a = true := by
  simp [Cfg.allows, h, AccessClass.admits]

theorem allows_write_read {c : Cfg} {a : Addr} (h : c.allows .write a = true) : c.allows .read a = true := by
  unfold Cfg.allows at h ⊢
  split at h
  · rename_i cls _
    cases cls <;> simp_all [AccessClass.admits]
  · cases h

theorem allows_fifo {c : Cfg} (h : c.valid = true) : c.allows .burst c.regmap.fifo = true := by
  simp [Cfg.allows, Cfg.classAt_fifo h, AccessClass.admits]

theorem allows_named {c : Cfg} (h : c.valid = true) {p : Addr × Instr} (hp : p ∈ c.namedStrobes) :
    c.allows .strobe p.1 = true :=
  allows_strobe (Cfg.classAt_namedStrobe h hp)

theorem allows_flushTx {c : Cfg} (h : c.valid = true) : c.allows .strobe c.regmap.cmdFlushTx = true :=
  allows_named h (p := (c.regmap.cmdFlushTx, .strobeCmdFlushTx)) (by simp [Cfg.namedStrobes])

theorem allows_cmdTx {c : Cfg} (h : c.valid = true) : c.allows .strobe c.regmap.cmdTx = true :=
  allows_named h (p := (c.regmap.cmdTx, .strobeCmdTx)) (by simp [Cfg.namedStrobes])

theorem allows_cmdNop {c : Cfg} (h : c.valid = true) : c.allows .strobe c.regmap.cmdNop = true :=
  allows_named h (p := (c.regmap.cmdNop, .strobeCmdNop)) (by simp [Cfg.namedStrobes])

theorem allows_modeRow {c : Cfg} (h : c.valid = true) (m : RadioMode) : c.allows .strobe (c.modeRow m).1 = true :=
  allows_strobe (Cfg.classAt_modeRow h m)

/-- The phases of every mode transition are legal. -/
theorem setmodePhases_legal {c : Cfg} (h : c.valid = true) {m : RadioMode} {d : Disc} {code : List Phase}
    (hc : setmodePhases c m d = .ok code) : code.all (Phase.legal c) = true := by
  have hm := allows_modeRow h
  have h1 := hm .idle
  have h2 := hm .calibrate
  simp only [Cfg.modeRow] at h1 h2
  unfold setmodePhases at hc
  split at hc
  · split at hc
    · cases hc
      simp [Phase.legal, h1, h2]
    · cases hc
  · split at hc <;> cases hc <;> simp [Phase.legal, hm]

/-- Every command executes in READY in one of the forms. -/
theorem exec_form (i : Instr) (hr : s.seq = .ready) : ExecForm s (exec i s) := by
  have hstr : ∀ c, ExecForm s (strobeTransaction c s) := fun c =>
    execForm_checked hr fun a ha => execForm_accept hr fun _ => by simp [Phase.legal, checkAddr_ok ha]
  cases i with
  | hdrWriteSingle a v =>
    exact execForm_checked hr fun a ha => execForm_accept hr fun _ => by simp [Phase.legal, checkAddr_ok ha]
  | hdrReadSingle a =>
    exact execForm_checked hr fun a ha => execForm_accept hr fun _ => by simp [Phase.legal, checkAddr_ok ha]
  | hdrWriteBurst a vs =>
    exact execForm_checked hr fun a ha => execForm_checked hr fun _ _ => execForm_accept hr fun _ => by
      simp [Phase.legal, checkAddr_ok ha]
  | hdrReadBurst a n =>
    exact execForm_checked hr fun a ha => execForm_checked hr fun _ _ => execForm_accept hr fun _ => by
      simp [Phase.legal, checkAddr_ok ha]
  | hdrStrobe c => exact hstr c
  | strobeCmdReset => exact hstr _
  | strobeCmdFlushRx => exact hstr _
  | strobeCmdFlushTx => exact hstr _
  | strobeCmdRx => exact hstr _
  | strobeCmdTx => exact hstr _
  | strobeCmdIdle => exact hstr _
  | strobeCmdCal => exact hstr _
  | strobeCmdPwd => exact hstr _
  | strobeCmdNop => exact hstr _
  | rdreg a => exact execForm_checked hr fun a ha => execForm_accept hr fun _ => by simp [Phase.legal, checkAddr_ok ha]
  | wrreg a v =>
    exact execForm_checked hr fun a ha => execForm_checked hr fun _ _ => execForm_accept hr fun _ => by
      simp [Phase.legal, checkAddr_ok ha]
  | modreg a f =>
    exact execForm_checked hr fun a ha => execForm_accept hr fun _ => by
      simp [Phase.legal, checkAddr_ok ha, allows_write_read (checkAddr_ok ha)]
  | rdburst a n =>
    exact execForm_checked hr fun a ha => execForm_checked hr fun _ _ => execForm_accept hr fun _ => by
      simp [Phase.legal, checkAddr_ok ha]
  | wrburst a vs =>
    exact execForm_checked hr fun a ha => execForm_checked hr fun _ _ => execForm_checked hr fun _ _ =>
      execForm_accept hr fun _ => by simp [Phase.legal, checkAddr_ok ha]
  | strobe c => exact execForm_checked hr fun a ha => execForm_accept hr fun _ => by simp [Phase.legal, checkAddr_ok ha]
  | chiprdy => exact execForm_accept hr fun hv => by simp [Phase.legal, allows_cmdNop hv]
  | getfield fd b => exact execForm_checked hr fun _ _ => execForm_checked hr fun _ _ => execForm_answer hr _
  | setfield fd b v =>
    exact execForm_checked hr fun _ _ => execForm_checked hr fun _ _ => execForm_checked hr fun _ _ => execForm_answer hr _
  | modfield a fd v =>
    exact execForm_checked hr fun a ha => execForm_checked hr fun _ _ => execForm_checked hr fun _ _ =>
      execForm_accept hr fun _ => by simp [Phase.legal, checkAddr_ok ha, allows_write_read (checkAddr_ok ha)]
  | freqenc hz => exact execForm_codec hr _
  | freqdec hi mid lo =>
    exact execForm_checked hr fun _ _ => execForm_checked hr fun _ _ => execForm_checked hr fun _ _ => execForm_answer hr _
  | drateenc r => exact execForm_codec hr _
  | dratedec e m => exact execForm_checked hr fun _ _ => execForm_answer hr _
  | bwenc bw => exact execForm_codec hr _
  | bwdec e m => exact execForm_checked hr fun _ _ => execForm_answer hr _
  | devenc d => exact execForm_codec hr _
  | devdec e m => exact execForm_checked hr fun _ _ => execForm_answer hr _
  | rssidec raw => exact execForm_checked hr fun _ _ => execForm_answer hr _
  | syncenc w =>
    simp only [exec, execSyncenc]
    split
    · exact execForm_reject hr _
    · exact execForm_answer hr _
  | syncdec hi lo => exact execForm_checked hr fun _ _ => execForm_checked hr fun _ _ => execForm_answer hr _
  | modestrobe m => exact execForm_accept hr fun hv => by simp [Phase.legal, allows_modeRow hv]
  | awaitbusy t => exact execForm_accept hr fun _ => by simp [Phase.legal]
  | awaitcoop t => exact execForm_accept hr fun _ => by simp [Phase.legal]
  | pollstate t => exact execForm_accept hr fun _ => by simp [Phase.legal]
  | setmode m d => exact execForm_checked hr fun _ hc => execForm_accept hr fun hv => setmodePhases_legal hv hc
  | tx f d =>
    exact execForm_checked hr fun _ _ => execForm_checked hr fun _ _ => execForm_accept hr fun hv => by
      simp [Phase.legal, allows_fifo hv, allows_cmdTx hv, allows_flushTx hv]
  | txstart f =>
    exact execForm_checked hr fun _ _ => execForm_accept hr fun hv => by simp [Phase.legal, allows_fifo hv, allows_cmdTx hv]
  | txpoll => exact execForm_accept hr fun hv => by simp [Phase.legal, allows_flushTx hv]
  | rx =>
    refine execForm_accept hr fun hv => ?_
    simp only [List.all_cons, List.all_append, Phase.legal, Bool.true_and, Bool.and_eq_true]
    constructor
    · unfold checkPhases
      split
      · rename_i q hq
        have := Cfg.valid_check hv hq
        simp only [List.all_cons, List.all_nil, Bool.and_true, Phase.legal, List.all_eq_true]
        exact fun b hb => by simp [Cfg.allows, this b hb, AccessClass.admits]
      · rfl
    · unfold receivePhases
      split <;> simp [Phase.legal, allows_fifo hv]

end Sys2Proof.Machine
end

