-- ==== Sys2Proof/Laws/Goes.lean ====
section
/-! SUPPORT. How far any operation can go: inputs other than the bus port's answers and the wait port's resumptions are untouched,
the trace only grows, and exactly one outcome comes with becoming READY. -/

namespace Sys2Proof.Machine

/-- The trace, with what else no micro-operation changes. -/
structure Kept (s t : State) : Prop where
  cfg : t.cfg = s.cfg
  port : t.port = s.port
  pinLevel : t.pinLevel = s.pinLevel
  resetIn : t.resetIn = s.resetIn
  trace : ∃ evs, t.trace = s.trace ++ evs

/-- A command has gone on from `s` to `t`: it is still in progress, or it has ended with one outcome. -/
structure Goes (s t : State) : Prop extends Kept s t where
  ends : (t.seq ≠ .ready ∧ t.outcomes = s.outcomes) ∨ (t.seq = .ready ∧ ∃ o, t.outcomes = s.outcomes ++ [o])

theorem Kept.refl (s : State) : Kept s s := ⟨rfl, rfl, rfl, rfl, [], (List.append_nil _).symm⟩

theorem Kept.trans {s t u : State} (h : Kept s t) (g : Kept t u) : Kept s u := by
  obtain ⟨a1, a2, a3, a4, evs, a5⟩ := h
  obtain ⟨b1, b2, b3, b4, evs', b5⟩ := g
  exact ⟨b1.trans a1, b2.trans a2, b3.trans a3, b4.trans a4, evs ++ evs', by rw [b5, a5, List.append_assoc]⟩

/-- Going on from a state with the same outcomes. -/
theorem Goes.of_kept {s t u : State} (h : Kept s t) (ho : t.outcomes = s.outcomes) (g : Goes t u) : Goes s u :=
  ⟨h.trans g.toKept, ho ▸ g.ends⟩

theorem goes_endCommand (o : CmdOutcome) (s : State) : Goes s (endCommand o s) :=
  ⟨⟨rfl, rfl, rfl, rfl, [], by simp⟩, .inr ⟨rfl, o, rfl⟩⟩

theorem goes_raise (err : ErrKind) (k : Nat) (s : State) : Goes s (raise err k s) := by
  unfold raise
  split
  · exact ⟨⟨rfl, rfl, rfl, rfl, [], by simp⟩, .inl ⟨by simp, rfl⟩⟩
  · exact goes_endCommand _ _

/-- Setting the latches, the sequencer to a running command, BUS.open and the trace is going on. -/
theorem goes_run {s : State} {k : Nat} {j : Task} {t : State} (h : Kept s t) (ho : t.outcomes = s.outcomes)
    (hs : t.seq = .run k j) : Goes s t :=
  ⟨h, .inl ⟨by simp [hs], ho⟩⟩

theorem goes_goOnCheck {p : CheckProc} {seen : List Byte} {code : List Phase} {k : Nat} {o s : State} (h : Goes s o) :
    Goes s (goOnCheck p seen code k o s) := by
  unfold goOnCheck
  split
  · exact goes_run ⟨rfl, rfl, rfl, rfl, [], by simp [startRead]⟩ rfl rfl
  · split
    · exact h
    · exact goes_raise _ _ _

theorem goes_launch (code : List Phase) (k : Nat) (s : State) : Goes s (launch code k s) := by
  have kept : ∀ (q : Seq) (l : Latches), Kept s { s with seq := q, lat := l } := fun _ _ => ⟨rfl, rfl, rfl, rfl, [], by simp⟩
  induction code with
  | nil => exact goes_endCommand _ _
  | cons p rest ih =>
    cases p <;> first
      | exact goes_endCommand _ _
      | exact goes_goOnCheck ih
      | exact goes_run (kept _ _) rfl rfl

theorem kept_lat (s : State) (l : Latches) : Kept s { s with lat := l } := ⟨rfl, rfl, rfl, rfl, [], by simp⟩

theorem goes_afterTransaction (post : Post) (code : List Phase) (k : Nat) (s : State) :
    Goes s (afterTransaction post code k s) := by
  cases post with
  | proceed => exact goes_launch _ _ _
  | poll coop =>
    simp only [afterTransaction, afterPoll]
    refine Goes.of_kept (t := { s with lat := { s.lat with pcnt := s.lat.pcnt + 1 } }) (kept_lat s _) rfl ?_
    split
    · exact goes_launch _ _ _
    · exact goes_raise _ _ _
    · exact goes_run ⟨rfl, rfl, rfl, rfl, [], by simp⟩ rfl rfl
  | pollOnce t =>
    simp only [afterTransaction, afterPollOnce]
    split
    · exact goes_launch _ _ _
    · exact goes_endCommand _ _
  | check rest seen => exact goes_goOnCheck (goes_launch _ _ _)
  | len =>
    simp only [afterTransaction, afterLen]
    split
    · exact goes_endCommand _ _
    · split
      · exact goes_raise _ _ _
      · exact goes_run ⟨rfl, rfl, rfl, rfl, [], by simp [startReadBurst, start]⟩ rfl rfl

theorem goes_completed (j : Job) (rx : Byte) (k : Nat) (s : State) : Goes s (completed j rx k s) := by
  simp only [completed]
  refine Goes.of_kept (kept_lat s (loopLatches j.op rx s.lat)) rfl ?_
  split
  · exact goes_endCommand _ _
  · split
    · exact goes_run ⟨rfl, rfl, rfl, rfl, [], by simp⟩ rfl rfl
    · exact goes_afterTransaction _ _ _ _

theorem goes_failedOp (op : Op) (e : BusError) (k : Nat) (s : State) : Goes s (failedOp op e k s) := by
  unfold failedOp
  split
  · exact goes_endCommand _ _
  · exact goes_raise _ _ _

/-- What a micro-operation itself does: it completes or fails, adds one event, and changes no outcome. -/
theorem microOp_kept {op : Op} {a : BusAnswer} {s u : State}
    (h : (∃ rx, microOp op a s = .done rx u) ∨ (∃ e, microOp op a s = .failed e u)) :
    Kept s u ∧ u.outcomes = s.outcomes ∧ u.seq = s.seq := by
  have hb : ∀ s', Kept s s' → s'.outcomes = s.outcomes → s'.seq = s.seq →
      ((∃ rx, busBegin a s' = .done rx u) ∨ (∃ e, busBegin a s' = .failed e u)) →
      Kept s u ∧ u.outcomes = s.outcomes ∧ u.seq = s.seq := by
    intro s' hk ho hq h
    unfold busBegin at h
    split at h
    · simp at h
    · split at h <;> simp at h <;> obtain ⟨_, rfl⟩ := h <;>
        exact ⟨hk.trans ⟨rfl, rfl, rfl, rfl, _, rfl⟩, ho, hq⟩
  have hx : ∀ tx, ((∃ rx, busXfer tx a s = .done rx u) ∨ (∃ e, busXfer tx a s = .failed e u)) →
      Kept s u ∧ u.outcomes = s.outcomes ∧ u.seq = s.seq := by
    intro tx h
    unfold busXfer at h
    split at h
    · split at h <;> simp at h <;> obtain ⟨_, rfl⟩ := h <;> exact ⟨⟨rfl, rfl, rfl, rfl, _, rfl⟩, rfl, rfl⟩
    · simp at h
  have he : ((∃ rx, busEnd a s = .done rx u) ∨ (∃ e, busEnd a s = .failed e u)) →
      Kept s u ∧ u.outcomes = s.outcomes ∧ u.seq = s.seq := by
    intro h
    unfold busEnd at h
    split at h
    · split at h <;> simp at h <;> obtain ⟨_, rfl⟩ := h <;> exact ⟨⟨rfl, rfl, rfl, rfl, _, rfl⟩, rfl, rfl⟩
    · simp at h
  cases op with
  | begin h' => exact hb { s with lat := { s.lat with hdr := h' } } (kept_lat s _) rfl rfl h
  | header => exact hx _ h
  | burstHeader => exact hx _ h
  | send v => exact hx _ h
  | recv => exact hx _ h
  | sendBuf => exact hx _ h
  | recvBuf => exact hx _ h
  | finish => exact he h
  | closing err => exact he h

theorem goes_perform {a : BusAnswer} {k : Nat} {j : Job} {s t : State} (h : perform a k j s = .next t) : Goes s t := by
  unfold perform at h
  split at h
  · rename_i rx u hu
    cases h
    obtain ⟨hk, ho, _⟩ := microOp_kept (.inl ⟨rx, hu⟩)
    exact Goes.of_kept hk ho (goes_completed _ _ _ _)
  · rename_i e u hu
    cases h
    obtain ⟨hk, ho, _⟩ := microOp_kept (.inr ⟨e, hu⟩)
    exact Goes.of_kept hk ho (goes_failedOp _ _ _ _)
  · cases h

/-- Advancing a command in progress goes on with it. -/
theorem goes_advance {s t : State} (hs : s.seq ≠ .ready) (h : advance s = .next t) : Goes s t := by
  unfold advance at h
  split at h
  · contradiction
  · split at h
    · cases h
      exact ⟨Kept.refl s, .inl ⟨hs, rfl⟩⟩
    · rename_i rest _
      exact Goes.of_kept (t := { s with bus := rest }) ⟨rfl, rfl, rfl, rfl, [], by simp⟩ rfl (goes_perform h)
  · cases h
    unfold afterPin
    split
    · exact Goes.of_kept (t := samplePin s) ⟨rfl, rfl, rfl, rfl, _, rfl⟩ rfl (goes_launch _ _ _)
    · exact Goes.of_kept (t := samplePin s) ⟨rfl, rfl, rfl, rfl, _, rfl⟩ rfl (goes_endCommand _ _)
  · cases h
    exact ⟨⟨rfl, rfl, rfl, rfl, _, rfl⟩, .inl ⟨by simp, rfl⟩⟩
  · split at h <;> cases h
    · exact ⟨Kept.refl s, .inl ⟨hs, rfl⟩⟩
    · exact ⟨⟨rfl, rfl, rfl, rfl, [], by simp⟩, .inl ⟨by simp, rfl⟩⟩

/-- Executing a command in READY goes on with it. -/
theorem goes_exec {i : Instr} {s t : State} (hr : s.seq = .ready) (h : exec i s = .next t) : Goes s t := by
  rcases exec_form i hr with ⟨code, he, _⟩ | ⟨v, he⟩ | ⟨e, he⟩ <;> rw [he] at h <;> cases h
  · exact goes_launch _ _ _
  · exact ⟨⟨rfl, rfl, rfl, rfl, [], by simp⟩, .inr ⟨hr, _, rfl⟩⟩
  · exact goes_raise _ _ _

end Sys2Proof.Machine
end

