-- ==== Sys2Proof/Laws/Framing.lean ====
section
/-! SUPPORT. Traces and transactions taken one event and one micro-operation at a time, and what a step of the block can do, said
once. -/

namespace Sys2Proof.Machine

/-- A trace is framed as its last event says, after the events before it. -/
theorem framing_snoc (ok : Byte → Bool) (t : List Event) (e : Event) :
    framing ok (t ++ [e]) = (framing ok t).bind (frameStep ok · e) := by
  unfold framing
  generalize Framing.closed = f
  induction t generalizing f with
  | nil => simp [framingFrom]; cases frameStep ok f e <;> rfl
  | cons d t ih =>
    simp only [List.cons_append, framingFrom]
    cases frameStep ok f d with
    | none => rfl
    | some g => exact ih g

theorem frameStep_header {ok : Byte → Bool} {tx : Byte} (h : ok tx = true) (rx : Byte) :
    frameStep ok .begun (.xfer tx rx) = some .opened := by
  simp [frameStep, h]

theorem frameStep_reset (ok : Byte → Bool) (f : Framing) : frameStep ok f .reset = some .closed := by
  cases f <;> rfl

/-- The data phase of a burst, and `BusEnd`, are the rest of a transaction. -/
theorem dataShape_replicate (n : Nat) {o : Op} (h : o = .recvBuf ∨ o = .sendBuf) :
    dataShape (List.replicate n o ++ [.finish]) = true := by
  induction n with
  | zero => rfl
  | succ n ih => rcases h with rfl | rfl <;> simpa [List.replicate_succ, dataShape] using ih

/-- The rest of a transaction is `BusEnd` alone, or starts with an exchange. -/
theorem dataShape_cons {o : Op} {os : List Op} (h : dataShape (o :: os) = true) :
    (o = .finish ∧ os = []) ∨ ((∃ v, o = .send v) ∨ o = .recv ∨ o = .sendBuf ∨ o = .recvBuf) ∧ dataShape os = true := by
  cases o <;> simp_all [dataShape]
  cases os <;> simp_all [dataShape]

theorem microOp_fail {op : Op} (hk : op.kind = .busXfer) {s : State} (ho : s.busOpen = true) (e : BusError) :
    microOp op (.fail e) s = .failed e (emit (.fail .busXfer e) s) := by
  cases op <;> first
    | (exfalso; simp [Op.kind] at hk; done)
    | simp [microOp, busXfer, ho]

theorem failedOp_xfer {op : Op} (hk : op.kind = .busXfer) (e : BusError) (k : Nat) : failedOp op e k = raise (.transport e) k := by
  cases op <;> first
    | rfl
    | simp [Op.kind] at hk

theorem checked_busy {s : State} (hr : s.seq ≠ .ready) {e : Except Reason α} {k : α → Answer}
    (hk : ∀ x, k x = .fault .offeredOutsideReady) : checked e s k = .fault .offeredOutsideReady := by
  cases e with
  | ok x => exact hk x
  | error r => exact whenReady_busy hr _

theorem answerCodec_busy {s : State} (hr : s.seq ≠ .ready) (r : Except ErrKind Value) :
    answerCodec r s = .fault .offeredOutsideReady := by
  cases r <;> exact whenReady_busy hr _

/-- What a step can do: a block reset; nothing, in READY with nothing offered; the command offered; or going on with
the command in progress. -/
theorem step_goes {s t : State} (h : step s = .next t) :
    (s.resetIn = true ∧ t = blockReset s) ∨ (s.resetIn = false ∧
      ((s.seq = .ready ∧ s.port = none ∧ t = s) ∨
       (s.seq = .ready ∧ ∃ o, s.port = some o ∧ Goes { s with port := none } t) ∨
       (s.seq ≠ .ready ∧ Goes s t))) := by
  unfold step at h
  split at h
  · rename_i hr
    cases h
    exact .inl ⟨hr, rfl⟩
  · rename_i hri
    refine .inr ⟨by simpa using hri, ?_⟩
    split at h
    · rename_i hr
      cases hp : s.port with
      | none =>
        simp only [nextOffer, hp, Option.map_none] at h
        cases h
        exact .inl ⟨hr, rfl, rfl⟩
      | some o =>
        simp only [nextOffer, hp, Option.map_some] at h
        refine .inr (.inl ⟨hr, o, rfl, ?_⟩)
        split at h
        · exact goes_exec (s := { s with port := none }) hr h
        · rename_i e _
          obtain ⟨r, hre⟩ : ∃ r, refuseOffer e { s with port := none } = refuse r { s with port := none } := by
            cases e <;> exact ⟨_, rfl⟩
          rw [hre, refuse, reject_ready (s := { s with port := none }) hr] at h
          cases h
          exact goes_raise _ _ _
    · rename_i hr
      refine .inr (.inr ⟨hr, ?_⟩)
      exact goes_advance hr h

end Sys2Proof.Machine
end

