-- ==== Sys2Proof/Laws/PerInstr.lean ====
section
/-! SUPPORT. Statements for every instruction, one lemma per constructor. FirstByte: the first byte of an instruction's encoding is
the one spec/opcode_table.json gives its row: the code of a command (R83), or the flag bits 7:6 of a header (R71, R72). -/

namespace Sys2Proof.Laws.FirstByte

open Sys2Proof

/-- The fixed bits of the first byte of a row of the opcode table: all eight of a command, the two flags of a header. -/
inductive Fixed where
  | code (b : Byte)
  | flags (f : BitVec 2)
deriving DecidableEq, Repr

/-- The fixed bits as spec/opcode_table.json gives them (match and mask of each row). -/
def fixed : Instr → Fixed
  | .hdrWriteSingle _ _ => .flags 0b00
  | .hdrReadSingle _ => .flags 0b10
  | .hdrWriteBurst _ _ => .flags 0b01
  | .hdrReadBurst _ _ => .flags 0b11
  | .hdrStrobe _ => .flags 0b00
  | .strobeCmdReset => .flags 0b00
  | .strobeCmdFlushRx => .flags 0b00
  | .strobeCmdFlushTx => .flags 0b00
  | .strobeCmdRx => .flags 0b00
  | .strobeCmdTx => .flags 0b00
  | .strobeCmdIdle => .flags 0b00
  | .strobeCmdCal => .flags 0b00
  | .strobeCmdPwd => .flags 0b00
  | .strobeCmdNop => .flags 0b00
  | .rdreg _ => .code 0x01
  | .wrreg _ _ => .code 0x02
  | .modreg _ _ => .code 0x03
  | .rdburst _ _ => .code 0x04
  | .wrburst _ _ => .code 0x05
  | .strobe _ => .code 0x06
  | .chiprdy => .code 0x07
  | .getfield _ _ => .code 0x08
  | .setfield _ _ _ => .code 0x09
  | .modfield _ _ _ => .code 0x0A
  | .freqenc _ => .code 0x10
  | .freqdec _ _ _ => .code 0x11
  | .drateenc _ => .code 0x12
  | .dratedec _ _ => .code 0x13
  | .bwenc _ => .code 0x14
  | .bwdec _ _ => .code 0x15
  | .devenc _ => .code 0x16
  | .devdec _ _ => .code 0x17
  | .rssidec _ => .code 0x18
  | .syncenc _ => .code 0x19
  | .syncdec _ _ => .code 0x1A
  | .modestrobe _ => .code 0x20
  | .awaitbusy _ => .code 0x21
  | .awaitcoop _ => .code 0x22
  | .pollstate _ => .code 0x23
  | .setmode _ _ => .code 0x24
  | .tx _ _ => .code 0x30
  | .txstart _ => .code 0x31
  | .txpoll => .code 0x32
  | .rx => .code 0x33

/-- The bytes of an offer. -/
def bytes : Offer → List Byte
  | .command bs => bs
  | .wire bs => bs

/-- The first byte of the encoding has the fixed bits of the instruction's row, under every configuration. -/
def Statement (i : Instr) : Prop :=
  ∀ c : Cfg, ∃ b r, bytes (encode c i) = b :: r ∧
    match fixed i with
    | .code k => b = k
    | .flags f => b.extractLsb' 6 2 = f

theorem hdr_flags (rw b : Bool) (a : Addr) : (hdr rw b a).extractLsb' 6 2 = BitVec.ofBool rw ++ BitVec.ofBool b := by
  cases rw <;> cases b <;> revert a <;> decide

theorem hdrWriteSingle (a : Addr) (v : Byte) : Statement (.hdrWriteSingle a v) := fun _ => ⟨_, _, rfl, hdr_flags false false _⟩
theorem hdrReadSingle (a : Addr) : Statement (.hdrReadSingle a) := fun _ => ⟨_, _, rfl, hdr_flags true false _⟩
theorem hdrWriteBurst (a : Addr) (vs : List Byte) : Statement (.hdrWriteBurst a vs) := fun _ => ⟨_, _, rfl, hdr_flags false true _⟩
theorem hdrReadBurst (a : Addr) (n : Nat) : Statement (.hdrReadBurst a n) := fun _ => ⟨_, _, rfl, hdr_flags true true _⟩
theorem hdrStrobe (c : Addr) : Statement (.hdrStrobe c) := fun _ => ⟨_, _, rfl, hdr_flags false false _⟩
theorem strobeCmdReset : Statement .strobeCmdReset := fun _ => ⟨_, _, rfl, hdr_flags false false _⟩
theorem strobeCmdFlushRx : Statement .strobeCmdFlushRx := fun _ => ⟨_, _, rfl, hdr_flags false false _⟩
theorem strobeCmdFlushTx : Statement .strobeCmdFlushTx := fun _ => ⟨_, _, rfl, hdr_flags false false _⟩
theorem strobeCmdRx : Statement .strobeCmdRx := fun _ => ⟨_, _, rfl, hdr_flags false false _⟩
theorem strobeCmdTx : Statement .strobeCmdTx := fun _ => ⟨_, _, rfl, hdr_flags false false _⟩
theorem strobeCmdIdle : Statement .strobeCmdIdle := fun _ => ⟨_, _, rfl, hdr_flags false false _⟩
theorem strobeCmdCal : Statement .strobeCmdCal := fun _ => ⟨_, _, rfl, hdr_flags false false _⟩
theorem strobeCmdPwd : Statement .strobeCmdPwd := fun _ => ⟨_, _, rfl, hdr_flags false false _⟩
theorem strobeCmdNop : Statement .strobeCmdNop := fun _ => ⟨_, _, rfl, hdr_flags false false _⟩
theorem rdreg (a : Nat) : Statement (.rdreg a) := fun _ => ⟨_, _, rfl, rfl⟩
theorem wrreg (a v : Nat) : Statement (.wrreg a v) := fun _ => ⟨_, _, rfl, rfl⟩
theorem modreg (a : Nat) (f : ModFn) : Statement (.modreg a f) := fun _ => ⟨_, _, rfl, rfl⟩
theorem rdburst (a n : Nat) : Statement (.rdburst a n) := fun _ => ⟨_, _, rfl, rfl⟩
theorem wrburst (a : Nat) (vs : List Nat) : Statement (.wrburst a vs) := fun _ => ⟨_, _, rfl, rfl⟩
theorem strobe (c : Nat) : Statement (.strobe c) := fun _ => ⟨_, _, rfl, rfl⟩
theorem chiprdy : Statement .chiprdy := fun _ => ⟨_, _, rfl, rfl⟩
theorem getfield (fd : Field) (b : Nat) : Statement (.getfield fd b) := fun _ => ⟨_, _, rfl, rfl⟩
theorem setfield (fd : Field) (b v : Nat) : Statement (.setfield fd b v) := fun _ => ⟨_, _, rfl, rfl⟩
theorem modfield (a : Nat) (fd : Field) (v : Nat) : Statement (.modfield a fd v) := fun _ => ⟨_, _, rfl, rfl⟩
theorem freqenc (hz : Quantity) : Statement (.freqenc hz) := fun _ => ⟨_, _, rfl, rfl⟩
theorem freqdec (hi mid lo : Nat) : Statement (.freqdec hi mid lo) := fun _ => ⟨_, _, rfl, rfl⟩
theorem drateenc (r : Quantity) : Statement (.drateenc r) := fun _ => ⟨_, _, rfl, rfl⟩
theorem dratedec (e m : Nat) : Statement (.dratedec e m) := fun _ => ⟨_, _, rfl, rfl⟩
theorem bwenc (bw : Quantity) : Statement (.bwenc bw) := fun _ => ⟨_, _, rfl, rfl⟩
theorem bwdec (e m : Nat) : Statement (.bwdec e m) := fun _ => ⟨_, _, rfl, rfl⟩
theorem devenc (d : Quantity) : Statement (.devenc d) := fun _ => ⟨_, _, rfl, rfl⟩
theorem devdec (e m : Nat) : Statement (.devdec e m) := fun _ => ⟨_, _, rfl, rfl⟩
theorem rssidec (raw : Nat) : Statement (.rssidec raw) := fun _ => ⟨_, _, rfl, rfl⟩
theorem syncenc (w : Nat) : Statement (.syncenc w) := fun _ => ⟨_, _, rfl, rfl⟩
theorem syncdec (hi lo : Nat) : Statement (.syncdec hi lo) := fun _ => ⟨_, _, rfl, rfl⟩
theorem modestrobe (mode : RadioMode) : Statement (.modestrobe mode) := fun _ => ⟨_, _, rfl, rfl⟩
theorem awaitbusy (t : MachineState) : Statement (.awaitbusy t) := fun _ => ⟨_, _, rfl, rfl⟩
theorem awaitcoop (t : MachineState) : Statement (.awaitcoop t) := fun _ => ⟨_, _, rfl, rfl⟩
theorem pollstate (t : MachineState) : Statement (.pollstate t) := fun _ => ⟨_, _, rfl, rfl⟩
theorem setmode (mode : RadioMode) (disc : Disc) : Statement (.setmode mode disc) := fun _ => ⟨_, _, rfl, rfl⟩
theorem tx (frame : Frame) (disc : Disc) : Statement (.tx frame disc) := fun _ => ⟨_, _, rfl, rfl⟩
theorem txstart (frame : Frame) : Statement (.txstart frame) := fun _ => ⟨_, _, rfl, rfl⟩
theorem txpoll : Statement .txpoll := fun _ => ⟨_, _, rfl, rfl⟩
theorem rx : Statement .rx := fun _ => ⟨_, _, rfl, rfl⟩

end Sys2Proof.Laws.FirstByte
end

