-- ==== Sys2Proof/Tests/Slice0.lean ====
section
/-! SUPPORT. Tests. Expected results are those of 95_test_vectors.md (V1 to V12) or worked out by hand from the rules; the source stands
before each. After them, for every obligation that has hypotheses, states and
operands that meet them together (`test_witness_...`), one for each clause, at boundary values. -/

namespace Sys2Proof.Tests

open Sys2Proof Sys2Proof.Machine

set_option Elab.async false

/-! ## Helpers -/

/-- The bus port's answers to one transaction in which the bytes `rs` are received. -/
def ans (rs : List Byte) : List BusAnswer := .done 0 :: (rs.map .done ++ [.done 0])

/-- The events of one transaction, in the notation of 95_test_vectors.md: sent bytes, received bytes. -/
def tr (sent received : List Byte) : List Event := .begin :: (List.zipWith .xfer sent received ++ [.finish])

/-- The state after reset with answers standing ready at the bus port. -/
def on (as : List BusAnswer) : State := { State.reset with bus := as }

/-- The trace and the outcomes of a next state. -/
def shows : Answer → Option (List Event × List CmdOutcome)
  | .next s => some (s.trace, s.outcomes)
  | _ => none

/-- A command accepted and run for as many steps as the answers and resumptions standing at the ports can take it (with one for
the pin); a block that has become READY earlier stays so. -/
def play (i : Instr) (s : State) : Answer :=
  match exec i s with
  | .next t => runs (s.bus.length + 2 * s.resumes + 1) t
  | a => a

/-- The outcomes alone. -/
def result (i : Instr) (s : State) : Option (List CmdOutcome) := (shows (exec i s)).map Prod.snd

/-- A command read as code and operand bytes under the default configuration. -/
def command (bs : List Byte) : Except DecodeError Instr := decodeCommand Cfg.default bs

/-- One poll that reads state byte `b`: answers and events. -/
def pollA (b : Byte) : List BusAnswer := ans [0, b]
def pollE (b : Byte) : List Event := tr [0xA5, 0x00] [0, b]

def q (n : Nat) : Quantity := Quantity.ofRatio n 1

def bounded (n : Nat) : State := { State.reset with cfg := { Cfg.default with maxPolls := some n } }

def variable' : State := { State.reset with cfg := { Cfg.default with packetMode := .var }, pinLevel := true }

/-- The payload of V11: 0x00 to 0x1F. -/
def payload : List Byte := (List.range 32).map (BitVec.ofNat 8)

/-! ## Well-formedness: an ill-formed term for each check -/

theorem test_wf_single_write_of_command : Instr.wf Cfg.default (.hdrWriteSingle 0x36 0) = false := by decide +kernel
theorem test_wf_single_read_of_command : Instr.wf Cfg.default (.hdrReadSingle 0x36) = false := by decide +kernel
theorem test_wf_burst_write_of_command : Instr.wf Cfg.default (.hdrWriteBurst 0x36 [0]) = false := by decide +kernel
theorem test_wf_burst_read_of_command : Instr.wf Cfg.default (.hdrReadBurst 0x36 1) = false := by decide +kernel
theorem test_wf_strobe_of_config : Instr.wf Cfg.default (.hdrStrobe 0x0D) = false := by decide +kernel
theorem test_wf_strobe_of_named : Instr.wf Cfg.default (.hdrStrobe 0x36) = false := by decide +kernel
theorem test_wf_short_modfn : Instr.wf Cfg.default (.modreg 0x08 (.table [0])) = false := by decide +kernel
theorem test_wf_modfn : Instr.wf Cfg.default (.modreg 0x08 (modFnOf id)) = true := by decide +kernel
theorem test_wf_modfn_form : Instr.wf Cfg.default (.modreg 0x08 (.free 0 [])) = false ∧
    Instr.wf { Cfg.default with modFnForm := .free 0 } (.modreg 0x08 (.free 0 [])) = true := by decide +kernel
theorem test_default_valid : Cfg.default.valid = true := by decide +kernel
/-- R26: ADDR_FILTER belongs in an entry of class `config`. R81, R125: a field of the data rate has the width of its record. -/
theorem test_misplaced_field : { Cfg.default with regmap := { testMap with
      layout := ⟨.rssi, .addrFilter, ⟨0, 2⟩⟩ :: testMap.layout.drop 1 } }.valid = false ∧
    { Cfg.default with drateFmt := { Fmt.drateDefault with ebits := 3 } }.valid = false := by decide +kernel

/-! ## Decoding words written out from the encodings -/

/-- V1: `0xA5` gives RW = 1, B = 0, A = 0x25; `0xFE` gives RW = 1, B = 1, A = 0x3E. -/
theorem test_decode_header : decodeTableWord 8 0b10100101 = some (.hdrReadSingle 0x25) ∧
    decodeTableWord 8 0b11111110 = some (.hdrReadBurst 0x3E 1) := by decide +kernel
/-- R71, R74: write headers `00aaaaaa` and `01aaaaaa` with their data bytes. -/
theorem test_decode_header_write : decodeTableWord 16 0b00010000_00001101 = some (.hdrWriteSingle 0x0D 0x10) ∧
    decodeTableWord 24 0b00000000_11000000_01111110 = some (.hdrWriteBurst 0x3E [0xC0, 0x00]) := by decide +kernel
/-- V1: `0x36` is a command in TESTMAP, so a strobe. -/
theorem test_decode_strobes : decodeTableWord 8 0b00110110 = some .strobeCmdIdle ∧
    decodeOffer Cfg.default (.wire [0b00110000]) = .ok .strobeCmdReset ∧
    decodeOffer Cfg.default (.wire [0b00110011]) = .ok .strobeCmdCal ∧
    decodeTableWord 8 0b00110100 = some .strobeCmdRx ∧ decodeTableWord 8 0b00110101 = some .strobeCmdTx ∧
    decodeTableWord 8 0b00111001 = some .strobeCmdPwd ∧ decodeTableWord 8 0b00111010 = some .strobeCmdFlushRx ∧
    decodeTableWord 8 0b00111011 = some .strobeCmdFlushTx ∧ decodeTableWord 8 0b00111101 = some .strobeCmdNop := by decide +kernel
/-- R72: a command address that is none of the nine. -/
theorem test_decode_unnamed_strobe :
    decodeOffer { Cfg.default with regmap := { testMap with extra := [(0x3C, .command)] } } (.wire [0b00111100]) =
      .ok (.hdrStrobe 0x3C) := by decide +kernel
/-- R83: codes of the Bus Framer with operand bytes. -/
theorem test_decode_framer : command [0x01, 0x25] = .ok (.rdreg 0x25) ∧ command [0x02, 0x0D, 0x10] = .ok (.wrreg 0x0D 0x10) ∧
    command [0x04, 0x3F, 3] = .ok (.rdburst 0x3F 3) ∧ command [0x05, 0x3E, 2, 0xC0, 0x01, 0x00] = .ok (.wrburst 0x3E [0xC0, 0]) ∧
    command [0x06, 0x36] = .ok (.strobe 0x36) ∧ command [0x07] = .ok .chiprdy := by decide +kernel
theorem test_decode_modreg : command (0x03 :: 0x08 :: (List.range 256).map (BitVec.ofNat 8)) = .ok (.modreg 0x08 (modFnOf id)) := by decide +kernel
/-- R83: codes of the bitfields. -/
theorem test_decode_bitfield : command [0x08, 4, 3, 0x47] = .ok (.getfield ⟨4, 3⟩ 0x47) ∧
    command [0x09, 0, 4, 0x45, 0xA] = .ok (.setfield ⟨0, 4⟩ 0x45 0xA) ∧
    command [0x0A, 0x10, 0, 4, 0xA] = .ok (.modfield 0x10 ⟨0, 4⟩ 0xA) := by decide +kernel
/-- R83: codes of the codec. -/
theorem test_decode_codec : command [0x10, 100, 0] = .ok (.freqenc (q 100)) ∧ command [0x11, 0x10, 0x12, 0x34] = .ok (.freqdec 0x10 0x12 0x34) ∧
    command [0x12, 100, 0] = .ok (.drateenc (q 100)) ∧ command [0x13, 10, 117] = .ok (.dratedec 10 117) ∧
    command [0x14, 100, 0] = .ok (.bwenc (q 100)) ∧ command [0x15, 3, 0] = .ok (.bwdec 3 0) ∧
    command [0x16, 100, 0] = .ok (.devenc (q 100)) ∧ command [0x17, 7, 7] = .ok (.devdec 7 7) ∧
    command [0x18, 100] = .ok (.rssidec 100) ∧ command [0x19, 0xFF, 0x01] = .ok (.syncenc 0xFF) ∧
    command [0x1A, 1, 0] = .ok (.syncdec 1 0) := by decide +kernel
/-- R83: codes of the radio state machine and of packet I/O. -/
theorem test_decode_radio : command [0x20, 3] = .ok (.modestrobe .calibrate) ∧ command [0x21, 0] = .ok (.awaitbusy .idle) ∧
    command [0x22, 2] = .ok (.awaitcoop .tx) ∧ command [0x23, 3, 0x11] = .ok (.pollstate (.other 0x11)) ∧
    command [0x24, 1, 2] = .ok (.setmode .transmit .nonblock) := by decide +kernel
theorem test_decode_packet : command [0x30, 1, 2, 2, 0x0A, 0x0B, 1] = .ok (.tx (.var 2 [0x0A, 0x0B]) .coop) ∧
    command [0x31, 0, 1, 0xAA] = .ok (.txstart (.fixed [0xAA])) ∧ command [0x32] = .ok .txpoll ∧
    command [0x33] = .ok .rx := by decide +kernel
/-- R83, V2 row 29: an unassigned code. -/
theorem test_decode_unassigned : command [0x0B] = .error .unassignedCode := by decide +kernel
/-- R80: in a status byte, bit 7 is chip-not-ready. -/
theorem test_chip_not_ready : chipNotReady 0x80 = true ∧ chipNotReady 0x7F = false := by decide +kernel

/-! ## Wire-level rows -/

/-- R71, R74, R53. -/
theorem test_hdrWriteSingle : shows (play (.hdrWriteSingle 0x0D 0x10) (on (ans [1, 2]))) = some (tr [0x0D, 0x10] [1, 2], [.ok .unit]) := by
  decide +kernel
theorem test_hdrReadSingle : shows (play (.hdrReadSingle 0x25) (on (ans [0x0F, 1]))) = some (tr [0xA5, 0] [0x0F, 1], [.ok (.byte 1)]) := by
  decide +kernel
theorem test_hdrWriteBurst : shows (play (.hdrWriteBurst 0x3E [0xC0, 0]) (on (ans [1, 2, 3]))) =
    some (tr [0x7E, 0xC0, 0] [1, 2, 3], [.ok .unit]) := by decide +kernel
theorem test_hdrReadBurst : shows (play (.hdrReadBurst 0x3F 3) (on (ans [9, 0xAA, 0xBB, 0xCC]))) =
    some (tr [0xFF, 0, 0, 0] [9, 0xAA, 0xBB, 0xCC], [.ok (.bytes [0xAA, 0xBB, 0xCC])]) := by decide +kernel
/-- R72, R95. -/
theorem test_hdrStrobe : shows (play (.hdrStrobe 0x36) (on (ans [0x0F]))) = some (tr [0x36] [0x0F], [.ok (.byte 0x0F)]) := by decide +kernel
theorem test_strobeCmdReset : shows (play .strobeCmdReset (on (ans [0x8F]))) = some (tr [0x30] [0x8F], [.ok (.byte 0x8F)]) := by decide +kernel
theorem test_strobeCmdFlushRx : shows (play .strobeCmdFlushRx (on (ans [1]))) = some (tr [0x3A] [1], [.ok (.byte 1)]) := by decide +kernel
theorem test_strobeCmdFlushTx : shows (play .strobeCmdFlushTx (on (ans [1]))) = some (tr [0x3B] [1], [.ok (.byte 1)]) := by decide +kernel
theorem test_strobeCmdRx : shows (play .strobeCmdRx (on (ans [1]))) = some (tr [0x34] [1], [.ok (.byte 1)]) := by decide +kernel
theorem test_strobeCmdTx : shows (play .strobeCmdTx (on (ans [1]))) = some (tr [0x35] [1], [.ok (.byte 1)]) := by decide +kernel
theorem test_strobeCmdIdle : shows (play .strobeCmdIdle (on (ans [1]))) = some (tr [0x36] [1], [.ok (.byte 1)]) := by decide +kernel
theorem test_strobeCmdCal : shows (play .strobeCmdCal (on (ans [1]))) = some (tr [0x33] [1], [.ok (.byte 1)]) := by decide +kernel
theorem test_strobeCmdPwd : shows (play .strobeCmdPwd (on (ans [1]))) = some (tr [0x39] [1], [.ok (.byte 1)]) := by decide +kernel
theorem test_strobeCmdNop : shows (play .strobeCmdNop (on (ans [1]))) = some (tr [0x3D] [1], [.ok (.byte 1)]) := by decide +kernel

/-! ## Bus Framer (V2) -/

/-- V2 row 1; V12 row 3. -/
theorem test_rdreg : shows (play (.rdreg 0x25) (on (ans [0x0F, 1]))) = some (tr [0xA5, 0] [0x0F, 1], [.ok (.byte 1)]) := by decide +kernel
theorem test_rdreg_fails : shows (play (.rdreg 0x25) (on [.done 0, .done 7, .fail 42, .done 0])) =
    some ([.begin, .xfer 0xA5 7, .fail .busXfer 42, .finish], [.err (.transport 42)]) := by decide +kernel
/-- V2 rows 4 and 28. -/
theorem test_wrreg : shows (play (.wrreg 0x0D 0x10) (on (ans [1, 2]))) = some (tr [0x0D, 0x10] [1, 2], [.ok .unit]) := by decide +kernel
theorem test_wrreg_first_check : shows (exec (.wrreg 0x40 0x100) (on [])) = some ([], [.err (.invalidArgument .addressRange)]) := by decide +kernel
/-- V2 row 6; V12 row 7. -/
theorem test_modreg : shows (play (.modreg 0x08 (modFnOf (· ||| 0x04))) (on (ans [9, 0x41] ++ ans [1, 2]))) =
    some (tr [0x88, 0] [9, 0x41] ++ tr [0x08, 0x45] [1, 2], [.ok .unit]) := by decide +kernel
theorem test_modreg_fails : shows (play (.modreg 0x08 (modFnOf id)) (on (ans [9, 0x41] ++ [.fail 5]))) =
    some (tr [0x88, 0] [9, 0x41] ++ [.fail .busBegin 5], [.err (.transport 5)]) := by decide +kernel
/-- V2 rows 8 and 26. -/
theorem test_rdburst : shows (play (.rdburst 0x3F 3) (on (ans [9, 0xAA, 0xBB, 0xCC]))) =
    some (tr [0xFF, 0, 0, 0] [9, 0xAA, 0xBB, 0xCC], [.ok (.bytes [0xAA, 0xBB, 0xCC])]) := by decide +kernel
theorem test_rdburst_length : shows (exec (.rdburst 0x3F 65) (on [])) = some ([], [.err (.invalidArgument .length)]) := by decide +kernel
/-- V2 row 11; V12 row 6. -/
theorem test_wrburst : shows (play (.wrburst 0x3E [0xC0, 0]) (on (ans [1, 2, 3]))) = some (tr [0x7E, 0xC0, 0] [1, 2, 3], [.ok .unit]) := by
  decide +kernel
theorem test_wrburst_fails : shows (play (.wrburst 0x3F [0xAA, 0xBB, 0xCC]) (on [.done 0, .done 1, .done 2, .fail 3, .done 0])) =
    some ([.begin, .xfer 0x7F 1, .xfer 0xAA 2, .fail .busXfer 3, .finish], [.err (.transport 3)]) := by decide +kernel
/-- V2 rows 14 and 22. -/
theorem test_strobe : shows (play (.strobe 0x30) (on (ans [0x8F]))) = some (tr [0x30] [0x8F], [.ok (.byte 0x8F)]) := by decide +kernel
theorem test_strobe_config : shows (exec (.strobe 0x0D) (on [])) = some ([], [.err (.invalidArgument .accessClass)]) := by decide +kernel
/-- V2 row 17. -/
theorem test_chiprdy_busy : shows (play .chiprdy (on (ans [0x80]))) = some (tr [0x3D] [0x80], [.ok (.bool false)]) := by decide +kernel
theorem test_chiprdy_ready : shows (play .chiprdy (on (ans [0x7F]))) = some (tr [0x3D] [0x7F], [.ok (.bool true)]) := by decide +kernel

/-! ## Bitfields (V3) -/

/-- V3 rows 1 and 12. -/
theorem test_getfield : result (.getfield ⟨4, 3⟩ 0x47) (on []) = some [.ok (.field 4)] := by decide +kernel
theorem test_getfield_field : result (.getfield ⟨5, 4⟩ 0) (on []) = some [.err (.invalidArgument .field)] := by decide +kernel
/-- V3 rows 6 and 11. -/
theorem test_setfield : result (.setfield ⟨0, 4⟩ 0xC5 0xA) (on []) = some [.ok (.byte 0xCA)] := by decide +kernel
theorem test_setfield_value : result (.setfield ⟨0, 4⟩ 0xC5 0x10) (on []) = some [.err (.invalidArgument .fieldValue)] := by decide +kernel
/-- V3 rows 14 and 15. -/
theorem test_modfield : shows (play (.modfield 0x10 ⟨0, 4⟩ 0xA) (on (ans [9, 0xC5] ++ ans [1, 2]))) =
    some (tr [0x90, 0] [9, 0xC5] ++ tr [0x10, 0xCA] [1, 2], [.ok .unit]) := by decide +kernel
theorem test_modfield_status : shows (exec (.modfield 0x25 ⟨0, 4⟩ 1) (on [])) = some ([], [.err (.invalidArgument .accessClass)]) := by
  decide +kernel

/-- R29: the sub-fields of MODEM_A in TESTMAP, and one of them set. -/
theorem test_bitfield_value : (bitfieldValue Cfg.default 0x10 0xB5).map (fun v => (getSubField Cfg.default v .bwE,
      getSubField Cfg.default v .drateE, getSubField Cfg.default v .drateM, (setSubField Cfg.default v .bwM 1).map (·.byte))) =
    some (some 2, some 5, none, some 0x95) := by decide +kernel

/-! ## Codec (V4 to V9) -/

/-- V4 rows 1 and 11. -/
theorem test_freqenc : result (.freqenc (q 433920000)) (on []) = some [.ok (.triple 0x10 0x12 0x34)] := by decide +kernel
theorem test_freqenc_above : result (.freqenc (q 6911999795)) (on []) = some [.err (.outOfRange .above)] := by decide +kernel
/-- V4 row 1 and its last sentence. -/
theorem test_freqdec : result (.freqdec 0x10 0x12 0x34) (on []) = some [.ok (.rational (mkRat 111083484375 256))] := by decide +kernel
theorem test_freqdec_range : result (.freqdec 0x100 0 0) (on []) = some [.err (.invalidArgument .byteRange)] := by decide +kernel
/-- V7 rows 16 (carry into the next exponent) and 22. -/
theorem test_drateenc_carry : result (.drateenc (.ofRatio 431578125 2048)) (on []) = some [.ok (.expMant 13 0)] := by decide +kernel
theorem test_drateenc_above : result (.drateenc (q 1685853)) (on []) = some [.err (.outOfRange .above)] := by decide +kernel
/-- V7 row 11 and its last sentence. -/
theorem test_dratedec : result (.dratedec 11 24) (on []) = some [.ok (.rational (mkRat 14765625 256))] := by decide +kernel
theorem test_dratedec_range : result (.dratedec 16 0) (on []) = some [.err (.invalidArgument .fieldValue)] := by decide +kernel
/-- V5: 77 000 (the mantissa rule picks the farther value), and row 2. -/
theorem test_bwenc : result (.bwenc (q 77000)) (on []) = some [.ok (.expMant 3 1)] := by decide +kernel
theorem test_bwenc_below : result (.bwenc (q 56250)) (on []) = some [.err (.outOfRange .below)] := by decide +kernel
/-- V5, the table and its last sentence. -/
theorem test_bwdec : result (.bwdec 2 3) (on []) = some [.ok (.rational (mkRat 843750 7))] := by decide +kernel
theorem test_bwdec_range : result (.bwdec 0 4) (on []) = some [.err (.invalidArgument .fieldValue)] := by decide +kernel
/-- V8 rows 10 and 2. -/
theorem test_devenc : result (.devenc (q 47607)) (on []) = some [.ok (.expMant 4 6)] := by decide +kernel
theorem test_devenc_below : result (.devenc (q 1544)) (on []) = some [.err (.outOfRange .below)] := by decide +kernel
/-- V8 row 12 and its last sentence. -/
theorem test_devdec : result (.devdec 6 2) (on []) = some [.ok (.rational (mkRat 2109375 16))] := by decide +kernel
theorem test_devdec_range : result (.devdec 0 8) (on []) = some [.err (.invalidArgument .fieldValue)] := by decide +kernel
/-- V6: the largest and the most negative. -/
theorem test_rssidec_127 : result (.rssidec 127) (on []) = some [.ok (.rational (-21 / 2))] := by decide +kernel
theorem test_rssidec_128 : result (.rssidec 128) (on []) = some [.ok (.rational (-138))] := by decide +kernel
/-- V9. -/
theorem test_syncenc : result (.syncenc 0xD391) (on []) = some [.ok (.pair 0xD3 0x91)] := by decide +kernel
theorem test_syncenc_range : result (.syncenc 0x10000) (on []) = some [.err (.invalidArgument .byteRange)] := by decide +kernel
theorem test_syncdec : result (.syncdec 0x01 0x00) (on []) = some [.ok (.word 0x0100)] := by decide +kernel

/-! ## Radio state machine (V10, V12) -/

/-- V10 rows 1 and 4. -/
theorem test_modestrobe : shows (play (.modestrobe .receive) (on (ans [7]))) = some (tr [0x34] [7], [.ok (.mstate .rx)]) := by decide +kernel
theorem test_modestrobe_calibrate : shows (play (.modestrobe .calibrate) (on (ans [7]))) = some (tr [0x33] [7], [.ok (.mstate .idle)]) := by
  decide +kernel
/-- V10 rows 5 and 8. -/
theorem test_awaitbusy : shows (play (.awaitbusy .idle) (on (pollA 0x13 ++ pollA 0x13 ++ pollA 0x01))) =
    some (pollE 0x13 ++ pollE 0x13 ++ pollE 0x01, [.ok .unit]) := by decide +kernel
theorem test_awaitbusy_timeout : shows (play (.awaitbusy .rx) { bounded 2 with bus := pollA 8 ++ pollA 8 }) =
    some (pollE 8 ++ pollE 8, [.err (.timeout .rx 2)]) := by decide +kernel
/-- V10 rows 11 and 13. -/
theorem test_awaitcoop : shows (play (.awaitcoop .idle) { on (pollA 0x13 ++ pollA 0x13 ++ pollA 1) with resumes := 2 }) =
    some (pollE 0x13 ++ .wait 100 :: (pollE 0x13 ++ .wait 100 :: pollE 1), [.ok .unit]) := by decide +kernel
theorem test_awaitcoop_timeout : shows (play (.awaitcoop .tx) { bounded 2 with bus := pollA 8 ++ pollA 8, resumes := 1 }) =
    some (pollE 8 ++ .wait 100 :: pollE 8, [.err (.timeout .tx 2)]) := by decide +kernel
/-- V10 rows 14 and 15. -/
theorem test_pollstate_pending : shows (play (.pollstate .rx) (on (pollA 8))) = some (pollE 8, [.wouldBlock]) := by decide +kernel
theorem test_pollstate : shows (play (.pollstate .rx) (on (pollA 0x0D))) = some (pollE 0x0D, [.ok .unit]) := by decide +kernel
/-- V10 rows 20 and 22. -/
theorem test_setmode_calibrate : shows (play (.setmode .calibrate .busy) (on (ans [7] ++ pollA 0x0D ++ pollA 1 ++ ans [7] ++ pollA 8 ++ pollA 1))) =
    some (tr [0x36] [7] ++ pollE 0x0D ++ pollE 1 ++ tr [0x33] [7] ++ pollE 8 ++ pollE 1, [.ok .unit]) := by decide +kernel
theorem test_setmode_timeout : shows (play (.setmode .calibrate .busy) { bounded 2 with bus := ans [7] ++ pollA 0x0D ++ pollA 0x0D }) =
    some (tr [0x36] [7] ++ pollE 0x0D ++ pollE 0x0D, [.err (.timeout .idle 2)]) := by decide +kernel

/-! ## Packet I/O (V11) -/

/-- V11 rows 7 and 2. -/
theorem test_tx_var : shows (play (.tx (.var 3 [0x0A, 0x0B, 0x0C]) .busy)
      { variable' with bus := ans [1, 2, 3, 4, 5] ++ ans [7] ++ pollA 1 ++ ans [7] }) =
    some (tr [0x7F, 3, 0x0A, 0x0B, 0x0C] [1, 2, 3, 4, 5] ++ tr [0x35] [7] ++ pollE 1 ++ tr [0x3B] [7], [.ok .unit]) := by decide +kernel
theorem test_tx_length : shows (exec (.tx (.fixed (payload.take 31)) .busy) (on [])) = some ([], [.err (.invalidArgument .frame)]) := by
  decide +kernel
/-- V11 row 3. -/
theorem test_txstart : shows (play (.txstart (.fixed payload)) (on (ans (0 :: payload) ++ ans [7]))) =
    some (tr (0x7F :: payload) (0 :: payload) ++ tr [0x35] [7], [.ok .unit]) := by decide +kernel
/-- V11 rows 4 and 4b. -/
theorem test_txpoll_pending : shows (play .txpoll (on (pollA 0x13))) = some (pollE 0x13, [.wouldBlock]) := by decide +kernel
theorem test_txpoll : shows (play .txpoll (on (pollA 1 ++ ans [7]))) = some (pollE 1 ++ tr [0x3B] [7], [.ok .unit]) := by decide +kernel
/-- V11 rows 6 and 12. -/
theorem test_rx : shows (play .rx { on (ans (9 :: payload)) with pinLevel := true }) =
    some (.pin true :: tr (0xFF :: List.replicate 32 0) (9 :: payload), [.ok (.bytes payload)]) := by decide +kernel
theorem test_rx_overflow : shows (play .rx { variable' with bus := ans [9, 0x40] }) =
    some (.pin true :: tr [0xBF, 0] [9, 0x40], [.err (.rxOverflow [0x40])]) := by decide +kernel

/-! ## The step -/

/-- R83, V2 row 29: the step answers an unassigned code with InvalidArgument and an empty trace (the reason name: log entry 28). -/
theorem test_step_unassigned : shows (step { State.reset with port := some (.command [0x0B]) }) =
    some ([], [.err (.invalidArgument .commandCode)]) := by decide +kernel
/-- Log entry 8: RDREG with no operand byte has no operand form. -/
theorem test_step_operandForm : shows (step { State.reset with port := some (.command [0x01]) }) =
    some ([], [.err (.invalidArgument .operandForm)]) := by decide +kernel
/-- R226, U1: an offer while a command runs is a fault of the host, with no result. -/
theorem test_move_offer_busy :
    State.move (.offer (.command [0x33])) { State.reset with seq := .waiting 4 [] } = .fault .offeredOutsideReady := rfl
/-- R11 (a): an offer in READY stands on the command port. -/
theorem test_move_offer_ready :
    State.move (.offer (.command [0x33])) State.reset = .next { State.reset with port := some (.command [0x33]) } := rfl
/-- R210: a block reset in the middle of a transaction. -/
theorem test_step_reset : shows (step { State.reset with seq := .run 1 (.bus ⟨.header, [.finish], .proceed, []⟩), busOpen := true, resetIn := true }) =
    some ([.reset], []) := by decide +kernel
/-- R65: an instruction placed with `withFetchWord` is what the next step runs, from reset. -/
theorem test_step_fetch : shows (runs 4 ((on (ans [0x8F])).withFetchWord 8 0x07)) = some (tr [0x3D] [0x8F], [.ok (.bool false)]) := by
  decide +kernel
/-- R10, R23: a step performs one micro-operation, though all the answers stand ready. -/
theorem test_step_one_operation : shows (runs 3 ((on (ans [0x8F])).withFetchWord 8 0x07)) = some ([.begin, .xfer 0x3D 0x8F], []) := by
  decide +kernel
/-- R178: a check that reads LQI_CRC (CRC flag in bit 7) and, where it is clear, RSSI; the verdict comes from both bytes. -/
theorem test_check_crc : shows (play .rx { on (ans [9, 0x00] ++ ans [9, 0x55]) with
      pinLevel := true, cfg := { Cfg.default with rxCheck := some (.read 0x23 (.test 0 0x80 0x80 (.found false false)
        (.read 0x24 (.test 1 0xFF 0x55 (.found false true) (.found true false))))) } }) =
    some (.pin true :: (tr [0xA3, 0] [9, 0x00] ++ tr [0xA4, 0] [9, 0x55]), [.err (.crcMismatch [0x00, 0x55])]) := by decide +kernel

/-! ## Witnesses: encoding and the machine -/

theorem test_witness_HeaderDecodesByClass : Cfg.default.valid = true ∧ (Cfg.default.regmap.cmdIdle, Instr.strobeCmdIdle) ∈ Cfg.default.namedStrobes ∧
    hdrAddr 0xF6 = Cfg.default.regmap.cmdIdle ∧ Cfg.default.isCommand (hdrAddr 0xF6) = true := by decide +kernel
theorem test_witness_HeaderDecodesByClass_access : [0x3F, 0xBF, 0x7F, 0xFF].all (fun h => !Cfg.default.isCommand (hdrAddr h)) = true ∧
    [0x3F, 0xBF, 0x7F, 0xFF].map (fun h : Byte => (hdrRead h, hdrBurst h)) =
      [(false, false), (true, false), (false, true), (true, true)] := by decide +kernel
theorem test_witness_DecodeOfEncode : Cfg.default.valid = true ∧ (Instr.modreg 0 (modFnOf id)).wf Cfg.default = true := by decide +kernel
theorem test_witness_DecodeOfEncode_strobe :
    let c := { Cfg.default with regmap := { testMap with extra := [(0x07, .config), (0x08, .config), (0x3C, .command)] } }
    c.valid = true ∧ (Instr.hdrStrobe 0x3C).wf c = true := by decide +kernel
theorem test_witness_UnassignedCodeRefused : let s := { State.reset with port := some (.command [0x34]) }
    (s.seq = .ready ∧ s.busOpen = false) ∧ s.resetIn = false ∧ 0x34 ∉ commandCodes ∧ s.port = some (.command (0x34 :: [])) := by
  decide +kernel
theorem test_witness_BlockResetInAnyPhase : { State.reset with resetIn := true }.resetIn = true ∧
    (∃ t, step State.reset = .next t) ∧ ∃ t, exec .txpoll State.reset = .next t := ⟨rfl, ⟨_, rfl⟩, ⟨_, rfl⟩⟩
theorem test_witness_StepRunsDecodedInstruction : let s := { State.reset with port := some (.command [0x33]) }
    s.seq = .ready ∧ s.resetIn = false ∧ s.port = some (.command [0x33]) ∧ decodeOffer s.cfg (.command [0x33]) = .ok .rx := by decide +kernel
theorem test_witness_StepRunsDecodedInstruction_form : let s := { State.reset with port := some (.wire []) }
    s.seq = .ready ∧ s.resetIn = false ∧ s.port = some (.wire []) ∧ decodeOffer s.cfg (.wire []) = .error .operandForm ∧
      s.busOpen = false := by decide +kernel
theorem test_witness_FetchWordIsFetched :
    decodeOffer State.reset.cfg (offerOfWord State.reset.cfg 8 0xFF) = .ok (.hdrReadBurst 0x3F 1) := by decide +kernel

/-- The job of a read of FSM_STATE about to end, with a poll after it. -/
def lastOp : Job := ⟨.finish, [], .poll true, []⟩

/-- A state in the middle of a transaction, one event before its end. -/
def closing' : State :=
  { State.reset with seq := .run 3 (.bus lastOp), busOpen := true, trace := [.begin, .xfer 0xA5 0, .xfer 0x00 0x13], bus := [.done 0] }

theorem test_witness_NothingWithoutInput : State.reset.resetIn = false ∧ State.reset.seq = .ready ∧ State.reset.port = none ∧
    { closing' with bus := [] }.seq = .run 3 (.bus lastOp) ∧
    { State.reset with seq := .waiting 4 [] }.resumes = 0 := by decide +kernel
theorem closing_framed : closing'.Framed := ⟨by decide +kernel, rfl, by decide +kernel⟩
theorem test_witness_OneStepOneMicroOperation :
    closing'.seq = .run 3 (.bus lastOp) ∧ closing'.Framed ∧ closing'.resetIn = false ∧ closing'.bus = .done 0 :: [] :=
  ⟨rfl, closing_framed, rfl, rfl⟩
theorem test_witness_OneStepOneMicroOperation_pin : { State.reset with seq := .run 0 (.pin [.readLen]) }.Framed ∧
    { State.reset with seq := .run 4 (.wait []) }.Framed ∧ { State.reset with seq := .waiting 4 [], resumes := 1 }.Framed ∧
    { State.reset with seq := .waiting 4 [], resumes := 1 }.resumes ≠ 0 := ⟨⟨rfl, rfl, rfl⟩, ⟨rfl, rfl, rfl⟩, ⟨rfl, rfl, rfl⟩, by decide⟩
theorem test_witness_StepKeepsFramed : closing'.Framed ∧ ∃ t, step closing' = .next t :=
  ⟨closing_framed, ⟨_, rfl⟩⟩
theorem test_witness_FramedStepNeverStops : State.reset.Framed := ⟨rfl, rfl, rfl⟩
theorem test_witness_StepKeepsLegal : closing'.cfg.valid = true ∧ closing'.Framed ∧ closing'.Legal ∧ ∃ t, step closing' = .next t :=
  ⟨by decide +kernel, closing_framed, ⟨by decide +kernel, (by decide +kernel : lastOp.legal Cfg.default 0 = true)⟩, ⟨_, rfl⟩⟩
theorem test_witness_MovesTouchInputsOnly : closing'.Framed ∧ closing'.Legal ∧ (∃ t, closing'.move (.answer (.done 1)) = .next t) ∧
    (∃ t, State.reset.move (.offer (.command [0x33])) = .next t) ∧ ∀ o, Move.resume ≠ .offer o :=
  ⟨closing_framed, ⟨by decide +kernel, (by decide +kernel : lastOp.legal Cfg.default 0 = true)⟩, ⟨_, rfl⟩, ⟨_, rfl⟩, nofun⟩
theorem test_witness_ConfigurationNeverChanges : (∃ t, step closing' = .next t) ∧ ∃ t, closing'.move .resume = .next t :=
  ⟨⟨_, rfl⟩, ⟨_, rfl⟩⟩
theorem test_witness_OneOutcomeEndsACommand : closing'.Framed ∧ closing'.seq ≠ .ready ∧ closing'.resetIn = false ∧
    (∃ t, step { closing' with seq := .run 3 (.bus ⟨.finish, [], .proceed, []⟩) } = .next t ∧ t.seq = .ready ∧ t.outcomes = [.ok .unit]) :=
  ⟨closing_framed, by decide +kernel, rfl, ⟨_, rfl, rfl, rfl⟩⟩
/-- Commands that end in the step that takes them: SYNCDEC, a pure one, and a malformed RDREG. -/
theorem test_witness_OneOutcomeEndsACommand_offer : [[0x1A, 0x12, 0x34], [0x01]].map (fun bs =>
      let s := { State.reset with port := some (.command bs) }
      (s.seq == .ready, s.resetIn, match step s with | .next t => some (t.seq == .ready, t.outcomes) | _ => none)) =
    [(true, false, some (true, [.ok (.word 0x1234)])), (true, false, some (true, [.err (.invalidArgument .operandForm)]))] := by
  decide +kernel
theorem test_witness_AcceptedOnlyInReady : closing'.seq ≠ .ready ∧ (∃ t, step closing' = .next t) ∧ closing'.Serial ∧
    State.reset.Serial ∧ (∃ t, State.reset.move (.offer (.command [0x33])) = .next t) ∧ State.reset.port = none ∧
    { State.reset with port := some (.command [0x33]) }.port ≠ none :=
  ⟨by decide +kernel, ⟨_, rfl⟩, fun _ => rfl, fun _ => rfl, ⟨_, rfl⟩, rfl, nofun⟩

/-! ## Witnesses: errors -/

theorem test_witness_RefusedBeforeBusActivity : State.reset.Poised ∧ addressing (.rdreg 64) = some (.read, 64) ∧ 63 < 64 ∧
    addressing (.wrreg 63 0) = some (.write, 63) ∧ (63 ≤ 63 ∧ Cfg.default.classAt (BitVec.ofNat 6 0x3C) = none) ∧
    Cfg.default.classAt (BitVec.ofNat 6 0x25) = some .status ∧ AccessClass.admits .status .write = false :=
  ⟨⟨rfl, rfl⟩, rfl, by decide, rfl, by decide +kernel, by decide +kernel, rfl⟩
theorem test_witness_RefusedBeforeBusActivity_byte : Cfg.default.allows .write 0x0D = true ∧ 255 < 256 ∧
    Cfg.default.allows .burst 0x3E = true ∧ (∃ v ∈ [255, 256], 255 < v) := by decide +kernel
theorem test_witness_RefusedBeforeBusActivity_length : Cfg.default.allows .burst 0x3E = true ∧
    (∀ v ∈ List.replicate 9 255, v ≤ 255) ∧ ¬ (1 ≤ (List.replicate 9 255).length ∧ (List.replicate 9 255).length ≤ maxBurst Cfg.default 0x3E) ∧
    ¬ (1 ≤ ([] : List Byte).length ∧ ([] : List Byte).length ≤ maxBurst Cfg.default 0x3E) ∧ ¬ (1 ≤ 0 ∧ 0 ≤ maxBurst Cfg.default 0x3E) ∧ ¬ (1 ≤ 65 ∧ 65 ≤ maxBurst Cfg.default 0x3F) := by decide +kernel

/-- A state in a transaction with one exchange made. -/
def mid (op : Op) (ops : List Op) (t : List Event) (b : Bool) (as : List BusAnswer) : State :=
  { State.reset with seq := .run 0 (.bus ⟨op, ops, .proceed, []⟩), busOpen := b, trace := t, bus := as }

theorem test_witness_FailedMicroOperationAborts_begin : (mid (.begin 0) [.header, .finish] [] false [.fail 1]).Framed :=
  ⟨rfl, rfl, rfl⟩
theorem test_witness_FailedMicroOperationAborts_finish : (mid .finish [] [.begin, .xfer 0 0] true [.fail 1]).Framed :=
  ⟨by decide +kernel, rfl, by decide +kernel⟩
theorem test_witness_FailedMicroOperationAborts_xfer : (mid .header [.finish] [.begin] true [.fail 1, .done 0]).Framed ∧
    (mid .recv [.finish] [.begin, .xfer 0 0] true [.fail 1, .fail 2]).Framed ∧ (mid .header [.finish] [.begin] true [.fail 1]).Framed ∧
    Op.header.kind = .busXfer ∧ Op.recv.kind = .busXfer :=
  ⟨⟨rfl, rfl, rfl⟩, ⟨by decide +kernel, rfl, rfl⟩, ⟨rfl, rfl, rfl⟩, rfl, rfl⟩
theorem test_witness_FailedMicroOperationAborts_closing :
    (mid (.closing (.transport 1)) [] [.begin, .fail .busXfer 1] true [.done 0]).Framed ∧
    (mid (.closing (.transport 1)) [] [.begin, .fail .busXfer 1] true [.fail 2]).Framed :=
  ⟨⟨by decide +kernel, rfl, by decide +kernel⟩, ⟨by decide +kernel, rfl, by decide +kernel⟩⟩

/-! ## Witnesses: commands on the bus -/

/-- Between commands, with no reset raised. -/
def Idle (s : State) : Prop := s.Poised ∧ s.resetIn = false

/-- Bytes received in the transactions of the witnesses. -/
def x1 : Rx1 := ⟨0, 0x8F, 0⟩
def x2 (v : Byte) : Rx2 := ⟨0, 0x0F, v, 0⟩
def xn (n : Nat) : RxN := ⟨0, 0x0F, List.replicate n 0xFF, 0⟩

theorem test_witness_RdregReads : Idle (on ((x2 1).answers ++ [])) ∧ Cfg.default.allows .read 0x3F = true ∧
    (on ((x2 1).answers ++ [])).bus = (x2 1).answers ++ [] := ⟨⟨⟨rfl, rfl⟩, rfl⟩, by decide +kernel, rfl⟩
theorem test_witness_WrregWrites : Idle (on ((x2 1).answers ++ [])) ∧ Cfg.default.allows .write 0x3F = true ∧
    (on ((x2 1).answers ++ [])).bus = (x2 1).answers ++ [] := ⟨⟨⟨rfl, rfl⟩, rfl⟩, by decide +kernel, rfl⟩
theorem test_witness_ModregReadsThenWrites : Idle (on ((x2 1).answers ++ ((x2 2).answers ++ []))) ∧
    Cfg.default.allows .write 0x08 = true ∧ (on ((x2 1).answers ++ ((x2 2).answers ++ []))).bus = (x2 1).answers ++ ((x2 2).answers ++ []) :=
  ⟨⟨⟨rfl, rfl⟩, rfl⟩, by decide +kernel, rfl⟩
theorem test_witness_RdburstReads : Idle (on ((xn 64).answers ++ [])) ∧ Cfg.default.valid = true ∧ Cfg.default.allows .burst 0x3F = true ∧
    1 ≤ (xn 64).vs.length ∧ (xn 64).vs.length ≤ maxBurst Cfg.default 0x3F ∧ (on ((xn 64).answers ++ [])).bus = (xn 64).answers ++ [] :=
  ⟨⟨⟨rfl, rfl⟩, rfl⟩, by decide +kernel, by decide +kernel, by decide +kernel, by decide +kernel, rfl⟩
theorem test_witness_WrburstWrites : Idle (on ((xn 1).answers ++ [])) ∧ Cfg.default.valid = true ∧ Cfg.default.allows .burst 0x3E = true ∧
    1 ≤ [(0xC0 : Byte)].length ∧ [(0xC0 : Byte)].length ≤ maxBurst Cfg.default 0x3E ∧ (xn 1).vs.length = [(0xC0 : Byte)].length ∧
    (on ((xn 1).answers ++ [])).bus = (xn 1).answers ++ [] :=
  ⟨⟨⟨rfl, rfl⟩, rfl⟩, by decide +kernel, by decide +kernel, by decide +kernel, by decide +kernel, rfl, rfl⟩
theorem test_witness_StrobeReturnsStatus : Idle (on (x1.answers ++ [])) ∧ Cfg.default.allows .strobe 0x3D = true ∧
    (on (x1.answers ++ [])).bus = x1.answers ++ [] := ⟨⟨⟨rfl, rfl⟩, rfl⟩, by decide +kernel, rfl⟩
theorem test_witness_NamedStrobesAreStrobes : Idle (on (x1.answers ++ [])) ∧ Cfg.default.valid = true ∧
    (Cfg.default.regmap.cmdNop, Instr.strobeCmdNop) ∈ Cfg.default.namedStrobes ∧ (on (x1.answers ++ [])).bus = x1.answers ++ [] :=
  ⟨⟨⟨rfl, rfl⟩, rfl⟩, by decide +kernel, by decide +kernel, rfl⟩
theorem test_witness_ChiprdyTestsBitSeven : Idle (on (x1.answers ++ [])) ∧ (on (x1.answers ++ [])).bus = x1.answers ++ [] :=
  ⟨⟨⟨rfl, rfl⟩, rfl⟩, rfl⟩

/-! ## Witnesses: bitfields and codec -/

theorem codec_next {r : Except ErrKind Value} {v : Value} (h : r = .ok v) :
    answerCodec r State.reset = .next (State.reset.answered v) := by
  subst h
  rfl

theorem test_witness_GetfieldExtracts : Idle State.reset ∧ (1 ≤ 8 ∧ 0 + 8 ≤ 8 ∧ 255 ≤ 255) ∧ ¬ (1 ≤ 0 ∧ 3 + 0 ≤ 8 ∧ 0 ≤ 255) ∧
    ¬ (1 ≤ 4 ∧ 5 + 4 ≤ 8 ∧ 0 ≤ 255) ∧ ¬ (1 ≤ 8 ∧ 0 + 8 ≤ 8 ∧ 256 ≤ 255) := ⟨⟨⟨rfl, rfl⟩, rfl⟩, by decide⟩
theorem test_witness_SetfieldReplacesField : Idle State.reset ∧ (1 ≤ 4 ∧ 4 + 4 ≤ 8 ∧ 255 ≤ 255 ∧ 15 < 2 ^ 4) ∧ 2 ^ 4 ≤ 16 :=
  ⟨⟨⟨rfl, rfl⟩, rfl⟩, by decide⟩
theorem test_witness_FieldLocality : Field.ok ⟨4, 4⟩ = true ∧ 15 < 2 ^ 4 ∧ Field.ok ⟨0, 4⟩ = true ∧ 0 + 4 ≤ 4 := by decide
theorem test_witness_FieldLocality_value : let v : BitfieldValue := ⟨⟨.modemA, 0x10, .config⟩, 0xB5⟩
    subField Cfg.default v .bwM = some ⟨4, 2⟩ ∧ Field.ok ⟨4, 2⟩ = true ∧ 3 < 2 ^ 2 ∧ subField Cfg.default v .bwE = some ⟨6, 2⟩ ∧
      Field.ok ⟨6, 2⟩ = true ∧ (4 + 2 ≤ 6 ∨ 6 + 2 ≤ 4) := by decide +kernel
theorem test_witness_ModfieldSetsField : Idle (on ((x2 1).answers ++ ((x2 2).answers ++ []))) ∧ Cfg.default.allows .write 0x10 = true ∧
    Field.ok ⟨0, 4⟩ = true ∧ 15 < 2 ^ 4 ∧ 2 ^ 4 ≤ 16 ∧ Field.ok ⟨5, 4⟩ = false ∧
    (on ((x2 1).answers ++ ((x2 2).answers ++ []))).bus = (x2 1).answers ++ ((x2 2).answers ++ []) :=
  ⟨⟨⟨rfl, rfl⟩, rfl⟩, by decide +kernel, by decide, by decide, by decide, by decide, rfl⟩
theorem test_witness_FreqencSplitsWord : Cfg.default.valid = true ∧
    ⌊(q 6911999794).val * 65536 / ((Cfg.default.xtalHz : Nat) : Rat) + 1 / 2⌋ =
      (((0xFF : Byte).toNat * 65536 + (0xFF : Byte).toNat * 256 + (0xFF : Byte).toNat : Nat) : Int) := by decide +kernel
theorem test_witness_FreqencSplitsWord_above : (2 ^ 24 - 1 / 2) * ((Cfg.default.xtalHz : Nat) : Rat) / 65536 ≤ (q 6911999795).val ∧
    (q 6911999794).val < (2 ^ 24 - 1 / 2) * ((Cfg.default.xtalHz : Nat) : Rat) / 65536 := by decide +kernel
theorem test_witness_FreqdecInverts : Cfg.default.valid = true ∧ 255 ≤ 255 ∧ 255 < 256 ∧
    (Quantity.ofRatio 27000000 1).val = freqDec Cfg.default.xtalHz 0x01 0x00 0x00 ∧
    exec (.freqenc (q 27000000)) State.reset = .next (State.reset.answered (.triple 0x01 0x00 0x00)) :=
  ⟨by decide +kernel, by decide, by decide, by decide +kernel, codec_next (by decide +kernel)⟩
/-- The default records are as the spec says of a record's formulas. -/
theorem default_lawful : LawfulFormats Cfg.default :=
  ⟨drateDefault_lawful (by decide), devDefault_lawful (by decide), bwDefault_lawful (by decide)⟩
theorem test_witness_DefaultFormatRecords : 1 ≤ Cfg.default.xtalHz := by decide
/-- V7 row 3: a target below the range has a negative mantissa at exponent 0. -/
theorem test_witness_EncodersTakeSmallestExponent_lawful : Cfg.default.valid = true ∧ LawfulFormats Cfg.default ∧
    Trend.grows.target (q 25).val ∧ roundHalfUp (biasedMantissa Cfg.default.drateFmt Cfg.default.xtalHz 0 (q 25).val) <
      (Cfg.default.drateFmt.bias : Int) := ⟨by decide +kernel, default_lawful, (by decide +kernel : 0 ≤ (q 25).val), by decide +kernel⟩
theorem test_witness_EncodersTakeSmallestExponent : Idle State.reset ∧ Cfg.default.valid = true ∧ (q 56251).val ≠ 0 ∧ (q 0).val = 0 :=
  ⟨⟨⟨rfl, rfl⟩, rfl⟩, by decide +kernel, by decide +kernel, by decide +kernel⟩
/-- V7 rows 3 and 22, V8 rows 2 and 15, V5 rows 2, 3 and 21. -/
theorem test_witness_EncoderRanges : let X : Rat := ((Cfg.default.xtalHz : Nat) : Rat)
    Cfg.default.drateFmt = .drateDefault ∧ Cfg.default.devFmt = .devDefault ∧ Cfg.default.bwFmt = .bwDefault ∧
    (q 25).val * 2 ^ 28 / X < 255 + 1 / 2 ∧ 511 + 1 / 2 ≤ (q 1685853).val * 2 ^ 28 / (X * 2 ^ 15) ∧
    (255 + 1 / 2 ≤ (Quantity.ofRatio 215578125 8388608).val * 2 ^ 28 / X ∧
      (Quantity.ofRatio 215578125 8388608).val * 2 ^ 28 / (X * 2 ^ 15) < 511 + 1 / 2) ∧
    (q 1544).val * 2 ^ 17 / X < 7 + 1 / 2 ∧ 15 + 1 / 2 ≤ (q 408692).val * 2 ^ 17 / (X * 2 ^ 7) ∧
    (7 + 1 / 2 ≤ (q 408691).val * 2 ^ 17 / X ∧ (q 408691).val * 2 ^ 17 / (X * 2 ^ 7) < 15 + 1 / 2) ∧
    X / 28 < (q 964286).val ∧ (q 56250).val ≤ X / 480 ∧ (X / 480 < (q 56251).val ∧ (q 56251).val ≤ X / 28) := by decide +kernel
theorem test_witness_DecodersAreExact : Idle State.reset ∧ Cfg.default.drateFmt = .drateDefault ∧
    Cfg.default.devFmt = .devDefault ∧ Cfg.default.bwFmt = .bwDefault  ∧
    15 < 2 ^ Cfg.default.drateFmt.ebits ∧ 255 < 2 ^ Cfg.default.drateFmt.mbits ∧ 7 < 2 ^ Cfg.default.devFmt.ebits ∧
    7 < 2 ^ Cfg.default.devFmt.mbits ∧ 3 < 2 ^ Cfg.default.bwFmt.ebits ∧ 3 < 2 ^ Cfg.default.bwFmt.mbits ∧ 2 ^ Cfg.default.drateFmt.ebits ≤ 16 ∧
    2 ^ Cfg.default.devFmt.mbits ≤ 8 ∧ 2 ^ Cfg.default.bwFmt.ebits ≤ 4 :=
  ⟨⟨⟨rfl, rfl⟩, rfl⟩, rfl, rfl, rfl, by decide⟩
theorem test_witness_EncodeAfterDecode : State.reset.seq = .ready ∧ Cfg.default.valid = true ∧ LawfulFormats Cfg.default ∧ 15 < 2 ^ Cfg.default.drateFmt.ebits ∧
    255 < 2 ^ Cfg.default.drateFmt.mbits ∧ (Quantity.ofRatio 215578125 128).val = fmtValue Cfg.default.drateFmt Cfg.default.xtalHz 15 255 ∧
    7 < 2 ^ Cfg.default.devFmt.ebits ∧ (Quantity.ofRatio 6328125 16).val = fmtValue Cfg.default.devFmt Cfg.default.xtalHz 7 7 ∧
    3 < 2 ^ Cfg.default.bwFmt.ebits ∧ (Quantity.ofRatio 421875 7).val = fmtValue Cfg.default.bwFmt Cfg.default.xtalHz 3 3 :=
  ⟨rfl, by decide +kernel, default_lawful, by decide +kernel⟩
theorem test_witness_DecodedValueIsMonotone : State.reset.seq = .ready ∧ Cfg.default.valid = true ∧ LawfulFormats Cfg.default ∧ (q 26).val ≤ (q 1200).val ∧
    exec (.drateenc (q 26)) State.reset = .next (State.reset.answered (.expMant 0 2)) ∧
    exec (.drateenc (q 1200)) State.reset = .next (State.reset.answered (.expMant 5 117)) ∧ (q 1545).val ≤ (q 2000).val ∧
    exec (.devenc (q 1545)) State.reset = .next (State.reset.answered (.expMant 0 0)) ∧
    exec (.devenc (q 2000)) State.reset = .next (State.reset.answered (.expMant 0 2)) ∧ (q 76700).val ≤ (q 77000).val ∧
    exec (.bwenc (q 76700)) State.reset = .next (State.reset.answered (.expMant 3 2)) ∧
    exec (.bwenc (q 77000)) State.reset = .next (State.reset.answered (.expMant 3 1)) :=
  ⟨rfl, by decide +kernel, default_lawful, by decide +kernel, codec_next (by decide +kernel), codec_next (by decide +kernel), by decide +kernel,
    codec_next (by decide +kernel), codec_next (by decide +kernel), by decide +kernel, codec_next (by decide +kernel),
    codec_next (by decide +kernel)⟩
theorem test_witness_RssidecIsSignedHalfSteps : Idle State.reset ∧ 127 < 128 ∧ (128 ≤ 128 ∧ 255 ≤ 255) ∧ 255 < 256 ∧
    (255 : Byte).toNat ≠ 127 ∧ (127 : Byte).toNat = 127 := ⟨⟨⟨rfl, rfl⟩, rfl⟩, by decide⟩
theorem test_witness_SyncWordSplitsAndJoins : Idle State.reset ∧ 0xFFFF < 0x10000 ∧ (255 < 256 ∨ 255 < 255) := ⟨⟨⟨rfl, rfl⟩, rfl⟩, by decide⟩

/-! ## Witnesses: the radio state machine -/

/-- Two polls that read a transitional state, then one that reads `b`. -/
def polled (b : Byte) : Awaited := ⟨[x2 0x08, x2 0x08], x2 b⟩

theorem reaches_unbounded {c : Cfg} {t : MachineState} {w : Awaited} (h1 : w.before.all (fun p => !p.reads c t) = true)
    (h2 : w.last.reads c t = true) (h3 : c.maxPolls = none) : w.Reaches c t :=
  ⟨fun p hp => by simpa using List.all_eq_true.1 h1 p hp, h2, fun n hn => by rw [h3] at hn; cases hn⟩

theorem reaches_bounded {c : Cfg} {t : MachineState} {w : Awaited} (h1 : w.before.all (fun p => !p.reads c t) = true)
    (h2 : w.last.reads c t = true) (h3 : c.maxPolls = some (w.before.length + 1)) : w.Reaches c t :=
  ⟨fun p hp => by simpa using List.all_eq_true.1 h1 p hp, h2, fun n hn => by rw [h3] at hn; cases hn; omega⟩

theorem timesOut_of {c : Cfg} {t : MachineState} {w : Awaited} (h1 : w.before.all (fun p => !p.reads c t) = true)
    (h2 : w.last.reads c t = false) (h3 : c.maxPolls = some (w.before.length + 1)) : w.TimesOut c t :=
  ⟨fun p hp => by simpa using List.all_eq_true.1 h1 p hp, h2, h3⟩

theorem test_witness_ModestrobeIssuesOneStrobe : Idle (on (x1.answers ++ [])) ∧ (on (x1.answers ++ [])).bus = x1.answers ++ [] :=
  ⟨⟨⟨rfl, rfl⟩, rfl⟩, rfl⟩
/-- V10 row 9: a match at the last poll the bound allows. -/
theorem test_witness_AwaitbusyPollsUntilReached : let s := { bounded 3 with bus := (polled 0x0D).answers ++ [] }
    Idle s ∧ (polled 0x0D).Reaches s.cfg .rx ∧ s.bus = (polled 0x0D).answers ++ [] :=
  ⟨⟨⟨rfl, rfl⟩, rfl⟩, reaches_bounded (by decide +kernel) (by decide +kernel) rfl, rfl⟩
theorem test_witness_AwaitcoopWaitsBetweenPolls : let s := { on ((polled 1).answers ++ []) with resumes := 2 }
    Idle s ∧ (polled 1).Reaches s.cfg .idle ∧ (polled 1).waits true ≤ s.resumes ∧ s.bus = (polled 1).answers ++ [] :=
  ⟨⟨⟨rfl, rfl⟩, rfl⟩, reaches_unbounded (by decide +kernel) (by decide +kernel) rfl, by decide, rfl⟩
theorem test_witness_CooperativeWaitSuspends : let s := { bounded 2 with bus := (x2 0x13).answers ++ [] }
    Idle s ∧ s.resumes = 0 ∧ (x2 0x13).reads s.cfg .idle = false ∧ s.cfg.maxPolls ≠ some 1 ∧
      s.cfg.maxPolls ≠ some 0 ∧ s.bus = (x2 0x13).answers ++ [] :=
  ⟨⟨⟨rfl, rfl⟩, rfl⟩, rfl, by decide +kernel, by decide, by decide, rfl⟩
/-- V10 row 10: a bound of one poll. -/
theorem test_witness_AwaitTimesOutAtBound : let s := { bounded 1 with bus := (Awaited.mk [] (x2 0x11)).answers ++ [] }
    Idle s ∧ (Awaited.mk [] (x2 0x11)).TimesOut s.cfg .rx ∧ (Awaited.mk [] (x2 0x11)).waits true ≤ s.resumes ∧
      s.bus = (Awaited.mk [] (x2 0x11)).answers ++ [] :=
  ⟨⟨⟨rfl, rfl⟩, rfl⟩, timesOut_of (by decide +kernel) (by decide +kernel) rfl, by decide, rfl⟩
theorem test_witness_AwaitTimesOutAtBound_setmode : let s := { bounded 3 with bus := x1.answers ++ ((polled 0x13).answers ++ []) }
    Idle s ∧ (polled 0x13).TimesOut s.cfg .rx ∧ (polled 0x13).waits false ≤ s.resumes ∧ RadioMode.receive ≠ .calibrate ∧
      MachineState.rx = (s.cfg.modeRow .receive).2 ∧ (polled 0x13).TimesOut s.cfg .idle ∧
      s.bus = x1.answers ++ ((polled 0x13).answers ++ []) :=
  ⟨⟨⟨rfl, rfl⟩, rfl⟩, timesOut_of (by decide +kernel) (by decide +kernel) rfl, by decide, by decide, rfl,
    timesOut_of (by decide +kernel) (by decide +kernel) rfl, rfl⟩
theorem test_witness_AwaitTimesOutAtBound_second :
    let w : Awaited := ⟨[x2 8], x2 8⟩
    let v : Awaited := ⟨[x2 0x0D], x2 1⟩
    let s := { bounded 2 with bus := x1.answers ++ (v.answers ++ (x1.answers ++ (w.answers ++ []))), resumes := 2 }
    Idle s ∧ w.TimesOut s.cfg .idle ∧ v.Reaches s.cfg .idle ∧ v.waits true + w.waits true ≤ s.resumes ∧
      s.bus = x1.answers ++ (v.answers ++ (x1.answers ++ (w.answers ++ []))) :=
  ⟨⟨⟨rfl, rfl⟩, rfl⟩, timesOut_of (by decide +kernel) (by decide +kernel) rfl,
    reaches_bounded (by decide +kernel) (by decide +kernel) rfl, by decide, rfl⟩
theorem test_witness_AwaitTimesOutAtBound_tx :
    let s := { bounded 3 with bus := (xn 32).answers ++ (x1.answers ++ ((polled 0x13).answers ++ [])) }
    Idle s ∧ (polled 0x13).TimesOut s.cfg .idle ∧ s.cfg.valid = true ∧ (Frame.fixed payload).Gives s.cfg payload ∧
      (xn 32).vs.length = payload.length ∧ s.bus = (xn 32).answers ++ (x1.answers ++ ((polled 0x13).answers ++ [])) :=
  ⟨⟨⟨rfl, rfl⟩, rfl⟩, timesOut_of (by decide +kernel) (by decide +kernel) rfl, by decide +kernel, ⟨rfl, rfl, rfl⟩, rfl, rfl⟩
theorem test_witness_AwaitNeverEnds : let ps := [x2 0x13, x2 0x13]; let s := { on (pollAnswers ps) with resumes := 2 }
    Idle s ∧ s.cfg.maxPolls = none ∧ (∀ p ∈ ps, p.reads s.cfg .idle = false) ∧ missWaits true ps ≤ s.resumes ∧
      s.bus = pollAnswers ps := ⟨⟨⟨rfl, rfl⟩, rfl⟩, rfl, by decide +kernel, by decide, rfl⟩
theorem test_witness_AwaitNeverEnds_busy : let ps := [x2 0x13, x2 0x13]; let s := on (pollAnswers ps)
    Idle s ∧ s.cfg.maxPolls = none ∧ (∀ p ∈ ps, p.reads s.cfg .idle = false) ∧ missWaits false ps ≤ s.resumes ∧
      s.resumes = 0 ∧ s.bus = pollAnswers ps := ⟨⟨⟨rfl, rfl⟩, rfl⟩, rfl, by decide +kernel, by decide, rfl, rfl⟩
theorem test_witness_AwaitNeverEnds_setmode : let ps := [x2 0x08, x2 0x08]; let s := { on (x1.answers ++ pollAnswers ps) with resumes := 2 }
    Idle s ∧ s.cfg.maxPolls = none ∧ (∀ p ∈ ps, p.reads s.cfg .idle = false ∧ p.reads s.cfg .rx = false) ∧ missWaits true ps ≤ s.resumes ∧
      RadioMode.receive ≠ .calibrate ∧ MachineState.rx = (s.cfg.modeRow .receive).2 ∧ s.bus = x1.answers ++ pollAnswers ps :=
  ⟨⟨⟨rfl, rfl⟩, rfl⟩, rfl, by decide +kernel, by decide, by decide, rfl, rfl⟩
theorem test_witness_AwaitNeverEnds_second : let ps := [x2 0x08]; let v : Awaited := ⟨[x2 0x0D], x2 1⟩
    let s := { on (x1.answers ++ (v.answers ++ (x1.answers ++ pollAnswers ps))) with resumes := 2 }
    Idle s ∧ s.cfg.maxPolls = none ∧ (∀ p ∈ ps, p.reads s.cfg .idle = false) ∧ v.Reaches s.cfg .idle ∧
      v.waits true + missWaits true ps ≤ s.resumes ∧ s.bus = x1.answers ++ (v.answers ++ (x1.answers ++ pollAnswers ps)) :=
  ⟨⟨⟨rfl, rfl⟩, rfl⟩, rfl, by decide +kernel, reaches_unbounded (by decide +kernel) (by decide +kernel) rfl, by decide, rfl⟩
theorem test_witness_AwaitNeverEnds_tx : let ps := [x2 0x13]; let s := on ((xn 32).answers ++ (x1.answers ++ pollAnswers ps))
    Idle s ∧ s.cfg.maxPolls = none ∧ (∀ p ∈ ps, p.reads s.cfg .idle = false) ∧ missWaits false ps ≤ s.resumes ∧ s.cfg.valid = true ∧
      (Frame.fixed payload).Gives s.cfg payload ∧ (xn 32).vs.length = payload.length ∧
      s.bus = (xn 32).answers ++ (x1.answers ++ pollAnswers ps) :=
  ⟨⟨⟨rfl, rfl⟩, rfl⟩, rfl, by decide +kernel, by decide, by decide +kernel, ⟨rfl, rfl, rfl⟩, rfl, rfl⟩
theorem test_witness_PollstatePollsOnce : Idle (on ((x2 1).answers ++ [])) ∧ (on ((x2 1).answers ++ [])).bus = (x2 1).answers ++ [] :=
  ⟨⟨⟨rfl, rfl⟩, rfl⟩, rfl⟩
theorem test_witness_SetmodeStrobesThenPolls : let s := { on (x1.answers ++ ((polled 0x13).answers ++ [])) with resumes := 2 }
    Idle s ∧ RadioMode.transmit ≠ .calibrate ∧ (polled 0x13).Reaches s.cfg (s.cfg.modeRow .transmit).2 ∧
      (polled 0x13).waits true ≤ s.resumes ∧ s.bus = x1.answers ++ ((polled 0x13).answers ++ []) :=
  ⟨⟨⟨rfl, rfl⟩, rfl⟩, by decide, reaches_unbounded (by decide +kernel) (by decide +kernel) rfl, by decide, rfl⟩
theorem test_witness_SetmodeStrobesThenPolls_nonblock : Idle (on (x1.answers ++ ((x2 8).answers ++ []))) ∧
    (on (x1.answers ++ ((x2 8).answers ++ []))).bus = x1.answers ++ ((x2 8).answers ++ []) := ⟨⟨⟨rfl, rfl⟩, rfl⟩, rfl⟩
theorem test_witness_CalibrateRoutesThroughIdle :
    let s := { on (x1.answers ++ ((polled 1).answers ++ (x1.answers ++ ((polled 0x21).answers ++ [])))) with resumes := 4 }
    Idle s ∧ (polled 1).Reaches s.cfg .idle ∧ (polled 0x21).Reaches s.cfg .idle ∧
      (polled 1).waits true + (polled 0x21).waits true ≤ s.resumes ∧
      s.bus = x1.answers ++ ((polled 1).answers ++ (x1.answers ++ ((polled 0x21).answers ++ []))) :=
  ⟨⟨⟨rfl, rfl⟩, rfl⟩, reaches_unbounded (by decide +kernel) (by decide +kernel) rfl,
    reaches_unbounded (by decide +kernel) (by decide +kernel) rfl, by decide, rfl⟩
theorem test_witness_NonblockingCalibrateRefused : Idle State.reset := ⟨⟨rfl, rfl⟩, rfl⟩

/-! ## Witnesses: packet I/O -/

theorem test_witness_BadFramesRefused : Idle State.reset ∧ (∀ bs, ¬ (Frame.fixed (payload.take 31)).Gives State.reset.cfg bs) ∧
    (∀ bs, ¬ (Frame.var 1 [0]).Gives State.reset.cfg bs) ∧ (∀ bs, ¬ (Frame.var 64 (List.replicate 64 0)).Gives variable'.cfg bs) ∧
    (Frame.fixed payload).Gives State.reset.cfg payload :=
  ⟨⟨⟨rfl, rfl⟩, rfl⟩, fun _ h => absurd h.2.1 (by decide), fun _ h => absurd h.1 (by decide), fun _ h => absurd h.2.2.1 (by decide),
    ⟨rfl, rfl, rfl⟩⟩
theorem test_witness_TxWritesStrobesAwaitsFlushes :
    let as := (xn 32).answers ++ (x1.answers ++ ((polled 1).answers ++ (x1.answers ++ [])))
    let s := { on as with resumes := 2 }
    Idle s ∧ s.cfg.valid = true ∧ (Frame.fixed payload).Gives s.cfg payload ∧ (xn 32).vs.length = payload.length ∧
      (polled 1).Reaches s.cfg .idle ∧ (polled 1).waits true ≤ s.resumes ∧ s.bus = as :=
  ⟨⟨⟨rfl, rfl⟩, rfl⟩, by decide +kernel, ⟨rfl, rfl, rfl⟩, rfl, reaches_unbounded (by decide +kernel) (by decide +kernel) rfl, by decide, rfl⟩
/-- A variable frame of the greatest length. -/
theorem test_witness_TxstartWritesAndStrobes :
    let p := List.replicate 63 (0 : Byte); let as := (xn 64).answers ++ (x1.answers ++ []); let s := { variable' with bus := as }
    Idle s ∧ s.cfg.valid = true ∧ (Frame.var 63 p).Gives s.cfg (0x3F :: p) ∧ (xn 64).vs.length = (0x3F :: p).length ∧ s.bus = as :=
  ⟨⟨⟨rfl, rfl⟩, rfl⟩, by decide +kernel, ⟨rfl, by decide, by decide, rfl, rfl⟩, rfl, rfl⟩
theorem test_witness_TxpollFlushesInIdle : Idle (on ((x2 1).answers ++ (x1.answers ++ []))) ∧ (x2 1).reads Cfg.default .idle = true ∧
    (x2 0x13).reads Cfg.default .idle = false ∧ Idle (on ((x2 0x13).answers ++ [])) :=
  ⟨⟨⟨rfl, rfl⟩, rfl⟩, by decide +kernel, by decide +kernel, ⟨⟨rfl, rfl⟩, rfl⟩⟩
theorem test_witness_RxFixedReadsOneBurst : let s := { on ((xn 32).answers ++ []) with pinLevel := true }
    Idle State.reset ∧ State.reset.pinLevel = false ∧ Idle s ∧ s.pinLevel = true ∧ s.cfg.valid = true ∧ s.cfg.packetMode = .fixed ∧
      s.cfg.rxCheck = none ∧ (xn 32).vs.length = s.cfg.fixedPktLen ∧ s.bus = (xn 32).answers ++ [] :=
  ⟨⟨⟨rfl, rfl⟩, rfl⟩, rfl, ⟨⟨rfl, rfl⟩, rfl⟩, rfl, by decide +kernel, rfl, rfl, rfl, rfl⟩
theorem test_witness_RxVariableReadsLengthFirst : let s := { variable' with bus := (x2 0x3F).answers ++ ((xn 63).answers ++ []) }
    Idle s ∧ s.pinLevel = true ∧ s.cfg.valid = true ∧ s.cfg.packetMode = .var ∧ s.cfg.rxCheck = none ∧ (x2 0).v = 0 ∧
      s.cfg.varPktMax < (x2 0x40).v.toNat ∧ (x2 0x3F).v ≠ 0 ∧ (x2 0x3F).v.toNat ≤ s.cfg.varPktMax ∧
      (xn 63).vs.length = (x2 0x3F).v.toNat ∧ s.bus = (x2 0x3F).answers ++ ((xn 63).answers ++ []) :=
  ⟨⟨⟨rfl, rfl⟩, rfl⟩, rfl, by decide +kernel, rfl, rfl, rfl, by decide, by decide, by decide, rfl, rfl⟩

/-- A quality check of LQI_CRC: bit 7 set is an overflow, bit 6 clear a CRC failure. -/
def check1 : CheckProc :=
  .read 0x23 (.test 0 0x80 0x80 (.found true false) (.test 0 0x40 0x00 (.found false true) (.found false false)))

/-- Its four verdicts at boundary bytes: overflow (with bit 6 clear too), CRC failure, `ok`. -/
theorem test_witness_RxQualityCheckComesFirst : checkRun check1 [] [x2 0x80] = some ([0x23], true, false) ∧
    checkRun check1 [] [x2 0x3F] = some ([0x23], false, true) ∧ checkRun check1 [] [x2 0x7F] = some ([0x23], false, false) :=
  ⟨by decide +kernel, by decide +kernel, by decide +kernel⟩
theorem test_witness_RxQualityCheckComesFirst_fixed :
    let s := { on (pollAnswers [x2 0x40] ++ ((xn 32).answers ++ [])) with pinLevel := true, cfg := { Cfg.default with rxCheck := some check1 } }
    Idle s ∧ s.pinLevel = true ∧ s.cfg.valid = true ∧ s.cfg.rxCheck = some check1 ∧
      checkRun check1 [] [x2 0x40] = some ([0x23], false, false) ∧ s.cfg.packetMode = .fixed ∧ (xn 32).vs.length = s.cfg.fixedPktLen ∧
      s.bus = pollAnswers [x2 0x40] ++ ((xn 32).answers ++ []) :=
  ⟨⟨⟨rfl, rfl⟩, rfl⟩, rfl, by decide +kernel, rfl, by decide +kernel, rfl, rfl, rfl⟩
theorem test_witness_RxQualityCheckComesFirst_var :
    let c := { variable'.cfg with rxCheck := some check1 }
    let s := { variable' with cfg := c, bus := pollAnswers [x2 0x40] ++ ((x2 0x3F).answers ++ ((xn 63).answers ++ [])) }
    Idle s ∧ s.pinLevel = true ∧ s.cfg.valid = true ∧ s.cfg.rxCheck = some check1 ∧
      checkRun check1 [] [x2 0x40] = some ([0x23], false, false) ∧ s.cfg.packetMode = .var ∧ (x2 0).v = 0 ∧
      s.cfg.varPktMax < (x2 0x40).v.toNat ∧ (x2 0x3F).v ≠ 0 ∧ (x2 0x3F).v.toNat ≤ s.cfg.varPktMax ∧
      (xn 63).vs.length = (x2 0x3F).v.toNat ∧ s.bus = pollAnswers [x2 0x40] ++ ((x2 0x3F).answers ++ ((xn 63).answers ++ [])) :=
  ⟨⟨⟨rfl, rfl⟩, rfl⟩, rfl, by decide +kernel, rfl, by decide +kernel, rfl, rfl, by decide, by decide, by decide, rfl, rfl⟩

end Sys2Proof.Tests
end

namespace Sys2Proof.Machine

/-! ## Scope: what one step performs, executes and delivers (00_scope.md) -/

/-! ### Inputs -/

/-- Settles O16: a move changes inputs only, and neither invariant looks at one. -/
theorem movesTouchInputsOnly : Obligations.MovesTouchInputsOnly := by
  refine ⟨fun s t m h => ?_, fun s m hm => ?_⟩
  · rcases move_cases h with ⟨o, _, _, rfl⟩ | ⟨b, l, n, r, rfl⟩ <;> exact ⟨id, id, rfl, rfl, rfl, rfl, rfl⟩
  · cases m with
    | offer o => exact absurd rfl (hm o)
    | answer a | pin l | resume | reset => exact ⟨_, rfl⟩

/-! ### Taking an offer in READY -/

/-- In READY the offer is taken from the port and the instruction it decodes to is executed (R11, R65). -/
theorem step_offer_ok {s : State} (hs : s.seq = .ready) (hr : s.resetIn = false) {o : Offer} (hp : s.port = some o) {i : Instr}
    (hd : decodeOffer s.cfg o = .ok i) : step s = exec i { s with port := none } := by
  simp [step, hr, hs, nextOffer, hp, hd]

/-- In READY an offer that decodes to no instruction is taken from the port and refused (R83). -/
theorem step_offer_error {s : State} (hs : s.seq = .ready) (hr : s.resetIn = false) {o : Offer} (hp : s.port = some o)
    {e : DecodeError} (hd : decodeOffer s.cfg o = .error e) : step s = refuseOffer e { s with port := none } := by
  simp [step, hr, hs, nextOffer, hp, hd]

/-- Settles O8. -/
theorem stepRunsDecodedInstruction : Obligations.StepRunsDecodedInstruction := by
  intro s o hs hr hp
  refine ⟨fun i hd => step_offer_ok hs hr hp hd, fun hd ho => ?_⟩
  rw [step_offer_error hs hr hp hd]
  exact refuse_poised (s := { s with port := none }) ⟨hs, ho⟩ .operandForm

/-! ### Between micro-operations -/

/-- From `s` a command has gone on to `t` with no micro-operation, pin sample or wait: it has ended, or its task numbered `k` comes
next. -/
structure Onward (k : Nat) (s t : State) : Prop where
  bus : t.bus = s.bus
  resumes : t.resumes = s.resumes
  trace : t.trace = s.trace
  busOpen : t.busOpen = s.busOpen
  seq : t.seq = .ready ∨ ∃ task, t.seq = .run k task

theorem onward_endCommand (o : CmdOutcome) (k : Nat) (s : State) : Onward k s (endCommand o s) :=
  ⟨rfl, rfl, rfl, rfl, .inl rfl⟩

/-- Setting the latches and the next task is going on. -/
theorem onward_run (k : Nat) (task : Task) (l : Latches) (s : State) : Onward k s { s with seq := .run k task, lat := l } :=
  ⟨rfl, rfl, rfl, rfl, .inr ⟨task, rfl⟩⟩

theorem onward_raise (err : ErrKind) (k : Nat) (s : State) : Onward k s (raise err k s) := by
  unfold raise
  split
  · exact onward_run k _ s.lat s
  · exact onward_endCommand _ k s

theorem onward_goOnCheck {p : CheckProc} {seen : List Byte} {code : List Phase} {k : Nat} {o s : State} (h : Onward k s o) :
    Onward k s (goOnCheck p seen code k o s) := by
  unfold goOnCheck
  split
  · exact onward_run k _ s.lat s
  · split
    · exact h
    · exact onward_raise _ k s

theorem onward_launch (code : List Phase) (k : Nat) (s : State) : Onward k s (launch code k s) := by
  induction code with
  | nil => exact onward_endCommand _ k s
  | cons p rest ih =>
    cases p with
    | ret r => exact onward_endCommand _ k s
    | check p => exact onward_goOnCheck ih
    | await t coop => exact onward_run k _ { s.lat with tgt := t, pcnt := 0 } s
    | writeBurst a vs => exact onward_run k _ { s.lat with buf := loadBuf s.lat.buf 0 vs } s
    | pin | strobe c | read a | write a v | writeBack a f | readBurst a n | pollOnce t | readLen => exact onward_run k _ s.lat s

/-- Counting a poll changes a latch only. -/
theorem onward_afterPoll (coop : Bool) (code : List Phase) (k : Nat) (s : State) : Onward k s (afterPoll coop code k s) := by
  have of_counted {t : State} (h : Onward k { s with lat := { s.lat with pcnt := s.lat.pcnt + 1 } } t) : Onward k s t :=
    ⟨h.bus, h.resumes, h.trace, h.busOpen, h.seq⟩
  simp only [afterPoll]
  split
  · exact of_counted (onward_launch code k _)
  · exact of_counted (onward_raise _ k _)
  · exact onward_run k _ _ s

theorem onward_afterLen (k : Nat) (s : State) : Onward k s (afterLen k s) := by
  simp only [afterLen]
  split
  · exact onward_endCommand _ k s
  · split
    · exact onward_raise _ k s
    · exact onward_run k _ s.lat s

theorem onward_afterTransaction (post : Post) (code : List Phase) (k : Nat) (s : State) :
    Onward k s (afterTransaction post code k s) := by
  cases post with
  | proceed => exact onward_launch code k s
  | poll coop => exact onward_afterPoll coop code k s
  | pollOnce t =>
    simp only [afterTransaction, afterPollOnce]
    split
    · exact onward_launch code k s
    · exact onward_endCommand _ k s
  | check rest seen => exact onward_goOnCheck (onward_launch code k s)
  | len => exact onward_afterLen k s

theorem onward_afterPin (code : List Phase) (k : Nat) (s : State) : Onward k s (afterPin code k s) := by
  unfold afterPin
  split
  · exact onward_launch code k s
  · exact onward_endCommand _ k s

theorem onward_completed (j : Job) (rx : Byte) (k : Nat) (s : State) : Onward (k + 1) s (completed j rx k s) := by
  have of_looped {t : State} (h : Onward (k + 1) { s with lat := loopLatches j.op rx s.lat } t) : Onward (k + 1) s t :=
    ⟨h.bus, h.resumes, h.trace, h.busOpen, h.seq⟩
  simp only [completed]
  refine of_looped ?_
  split
  · exact onward_endCommand _ _ _
  · split
    · exact onward_run (k + 1) _ _ _
    · exact onward_afterTransaction _ _ _ _

theorem onward_failedOp (op : Op) (e : BusError) (k : Nat) (s : State) : Onward k s (failedOp op e k s) := by
  unfold failedOp
  split
  · exact onward_endCommand _ k s
  · exact onward_raise _ k s

/-! ### One micro-operation -/

/-- The bus is open where a job's next micro-operation requires it to be: at all but `BusBegin` (R51). -/
theorem Job.framing_isOpen (j : Job) : j.framing.isOpen = decide (j.op.kind ≠ .busBegin) := by
  unfold Job.framing
  cases j.op <;> rfl

/-- A micro-operation on a bus that stands as it requires completes with its event (R51, R64). -/
theorem microOp_done {op : Op} {s : State} (ho : s.busOpen = decide (op.kind ≠ .busBegin)) (rx : Byte) :
    ∃ u, microOp op (.done rx) s = .done rx u ∧ u.trace = s.trace ++ [op.event s.lat rx] ∧ u.bus = s.bus ∧
      u.resumes = s.resumes := by
  cases op <;> simp [Op.kind] at ho <;> simp [microOp, busBegin, busXfer, busEnd, ho, Op.event, Op.kind, Op.tx]

/-- With an answer from the bus port a step performs one micro-operation, and goes on with the command. -/
theorem step_performs {s : State} (hf : s.Framed) (hr : s.resetIn = false) {k : Nat} {j : Job} (hs : s.seq = .run k (.bus j))
    {rx : Byte} {rest : List BusAnswer} (hb : s.bus = .done rx :: rest) :
    ∃ t, step s = .next t ∧ t.bus = rest ∧ t.resumes = s.resumes ∧ t.trace = s.trace ++ [j.op.event s.lat rx] ∧
      (t.seq = .ready ∨ ∃ task, t.seq = .run (k + 1) task) := by
  obtain ⟨_, hopen, _⟩ := hf
  rw [hs] at hopen
  obtain ⟨u, hu, htrace, hbus, hres⟩ :=
    microOp_done (op := j.op) (s := { s with bus := rest }) (hopen.trans j.framing_isOpen) rx
  have h := onward_completed j rx k u
  refine ⟨completed j rx k u, ?_, h.bus.trans hbus, h.resumes.trans hres, h.trace.trans htrace, h.seq⟩
  rw [step_bus hr hs hb, perform, hu]

/-- Settles O11. -/
theorem oneStepOneMicroOperation : Obligations.OneStepOneMicroOperation := by
  intro s k hf hr
  refine ⟨fun j rx rest hs hb => ?_, fun code hs => ?_, fun code hs => ?_, fun code hs hn => ?_⟩
  · exact step_performs hf hr hs hb
  · have h := onward_afterPin code (k + 1) (samplePin s)
    exact ⟨_, step_pin hr hs, h.bus, h.resumes, h.trace, h.seq⟩
  · exact step_wait hr hs
  · rw [step_waiting hr hs, if_neg hn]
    rfl

/-! ### READY with the bus closed -/

/-- An error leaves READY only where no closing `BusEnd` is due (R192). -/
theorem raise_ready_closed {err : ErrKind} {k : Nat} {s : State} (h : (raise err k s).seq = .ready) :
    (raise err k s).busOpen = false := by
  unfold raise at h ⊢
  split at h <;> simp_all

/-- `BusEnd` closes the bus, also where it fails (R51, R192). -/
theorem microOp_busEnd_closed {op : Op} (hk : op.kind = .busEnd) {a : BusAnswer} {s u : State}
    (h : (∃ rx, microOp op a s = .done rx u) ∨ (∃ e, microOp op a s = .failed e u)) : u.busOpen = false := by
  have hm : microOp op a s = busEnd a s := by cases op <;> simp [Op.kind] at hk <;> rfl
  rw [hm] at h
  unfold busEnd at h
  split at h
  · split at h <;> simp at h <;> obtain ⟨_, rfl⟩ := h <;> rfl
  · simp at h

/-- The last micro-operation of a transaction is `BusEnd` (R52). -/
theorem Job.shaped_last {j : Job} (h : j.shaped = true) (hops : j.ops = []) : j.op.kind = .busEnd := by
  unfold Job.shaped at h
  cases hop : j.op <;> simp_all [dataShape, Op.kind]

/-- A command that a completed micro-operation ends was at the end of a transaction. -/
theorem completed_ready_kind {j : Job} (hj : j.shaped = true) {rx : Byte} {k : Nat} {s : State}
    (h : (completed j rx k s).seq = .ready) : j.op.kind = .busEnd := by
  simp only [completed] at h
  split at h
  · rename_i err hop
    rw [hop]
    rfl
  · split at h
    · cases h
    · exact j.shaped_last hj ‹_›

/-- A command that a failed micro-operation ends was at its closing `BusEnd`, or had no bus to close. -/
theorem failedOp_ready_closed {op : Op} {a : BusAnswer} {e : BusError} {k : Nat} {s u : State}
    (hu : microOp op a s = .failed e u) (hq : (failedOp op e k u).seq = .ready) : (failedOp op e k u).busOpen = false := by
  cases op with
  | closing err =>
    rw [(onward_failedOp (.closing err) e k u).busOpen]
    exact microOp_busEnd_closed rfl (.inr ⟨e, hu⟩)
  | begin h | header | burstHeader | send v | recv | sendBuf | recvBuf | finish => exact raise_ready_closed hq

theorem perform_ready_closed {a : BusAnswer} {k : Nat} {j : Job} (hj : j.shaped = true) {s t : State}
    (h : perform a k j s = .next t) (hq : t.seq = .ready) : t.busOpen = false := by
  unfold perform at h
  split at h
  · rename_i rx u hu
    cases h
    rw [(onward_completed j rx k u).busOpen]
    exact microOp_busEnd_closed (completed_ready_kind hj hq) (.inl ⟨rx, hu⟩)
  · rename_i e u hu
    cases h
    exact failedOp_ready_closed hu hq
  · cases h

theorem advance_ready_closed {s t : State} (hf : s.Framed) (hs : s.seq ≠ .ready) (h : advance s = .next t)
    (hq : t.seq = .ready) : t.busOpen = false := by
  obtain ⟨_, hopen, hshaped⟩ := hf
  unfold advance at h
  split at h
  · contradiction
  · rename_i k j hj
    rw [hj] at hshaped
    split at h
    · cases h
      contradiction
    · exact perform_ready_closed hshaped h hq
  · rename_i k code hp
    rw [hp] at hopen
    cases h
    exact (onward_afterPin code (k + 1) (samplePin s)).busOpen.trans hopen
  · cases h
    cases hq
  · split at h <;> cases h
    · contradiction
    · cases hq

/-- Executing an instruction does not touch `BUS.open`: no micro-operation comes before the next step. -/
theorem exec_busOpen {i : Instr} {s t : State} (hs : s.seq = .ready) (h : exec i s = .next t) : t.busOpen = s.busOpen := by
  rcases exec_form i hs with ⟨code, he, _⟩ | ⟨v, he⟩ | ⟨e, he⟩ <;> rw [he] at h <;> cases h
  · exact (onward_launch code 0 s).busOpen
  · rfl
  · exact (onward_raise e 0 s).busOpen

theorem refuseOffer_busOpen {e : DecodeError} {s t : State} (hs : s.seq = .ready) (h : refuseOffer e s = .next t) :
    t.busOpen = s.busOpen := by
  cases e <;> simp only [refuseOffer, refuse, reject_ready hs] at h <;> cases h <;> exact (onward_raise _ 0 s).busOpen

/-- A step from a framed state that ends in READY leaves the bus closed (R20, R51, R192). -/
theorem step_ready_closed {s t : State} (hf : s.Framed) (h : step s = .next t) (hq : t.seq = .ready) : t.busOpen = false := by
  cases hr : s.resetIn with
  | true =>
    simp only [step, hr, if_true] at h
    cases h
    rfl
  | false =>
    by_cases hs : s.seq = .ready
    · obtain ⟨_, hopen, _⟩ := hf
      rw [hs] at hopen
      cases hp : s.port with
      | none =>
        rw [step_ready hr hs hp] at h
        cases h
        exact hopen
      | some o =>
        cases hd : decodeOffer s.cfg o with
        | ok i =>
          rw [step_offer_ok hs hr hp hd] at h
          exact (exec_busOpen (s := { s with port := none }) hs h).trans hopen
        | error e =>
          rw [step_offer_error hs hr hp hd] at h
          exact (refuseOffer_busOpen (s := { s with port := none }) hs h).trans hopen
    · rw [step_advance hr hs] at h
      exact advance_ready_closed hf hs h hq

/-! ### Outcomes -/

/-- Going on with a command delivers one outcome where it ends it, and none where it does not (R8). -/
theorem Goes.delivers {s t : State} (g : Goes s t) :
    ∃ os, t.outcomes = s.outcomes ++ os ∧ os.length ≤ 1 ∧ (os ≠ [] → t.seq = .ready) ∧ (t.seq = .ready → os.length = 1) := by
  rcases g.ends with ⟨hq, ho⟩ | ⟨hq, o, ho⟩
  · exact ⟨[], by simp [ho], by simp, by simp, by simp [hq]⟩
  · exact ⟨[o], ho, by simp, fun _ => hq, fun _ => rfl⟩

/-- Settles O18: the outcomes by what a step can do, the closed bus by `step_ready_closed`. -/
theorem oneOutcomeEndsACommand : Obligations.OneOutcomeEndsACommand := by
  intro s t h
  have closed (hf : s.Framed) (hq : t.seq = .ready) : t.seq = .ready ∧ t.busOpen = false :=
    ⟨hq, step_ready_closed hf h hq⟩
  rcases step_goes h with ⟨hr, rfl⟩ | ⟨hr, ⟨hs, hp, rfl⟩ | ⟨hs, o, hp, g⟩ | ⟨hs, g⟩⟩
  case inl => exact ⟨[.reset], [], rfl, by simp, by simp, by simp, by simp [hr], by simp [hr]⟩
  case inr.inl => exact ⟨[], [], by simp, by simp, by simp, by simp, by simp [hs], by simp [hp]⟩
  case inr.inr.inl =>
    obtain ⟨evs, htrace⟩ := g.trace
    obtain ⟨os, hout, hle, hready, hone⟩ := g.delivers
    exact ⟨evs, os, htrace, hout, hle, fun ho hf => closed hf (hready ho), by simp [hs], fun _ _ _ _ => ⟨g.port, hone⟩⟩
  case inr.inr.inr =>
    obtain ⟨evs, htrace⟩ := g.trace
    obtain ⟨os, hout, hle, hready, hone⟩ := g.delivers
    exact ⟨evs, os, htrace, hout, hle, fun ho hf => closed hf (hready ho), fun _ _ => hone, by simp [hs]⟩

end Sys2Proof.Machine

namespace Sys2Proof.Machine

/-! ## The state: the configuration, reset, and what stands still without an input (10_state.md) -/

/-! ### The configuration -/

/-- A step keeps CFG: a block reset does, and so does every way a command can go on (R33). -/
theorem step_cfg {s t : State} (h : step s = .next t) : t.cfg = s.cfg := by
  rcases step_goes h with ⟨_, rfl⟩ | ⟨_, ⟨_, _, rfl⟩ | ⟨_, _, _, g⟩ | ⟨_, g⟩⟩
  · exact blockReset_cfg s
  · rfl
  · exact g.cfg
  · exact g.cfg

/-- A move of another agent keeps CFG: it changes an input only (R10, R33). -/
theorem move_cfg {m : Move} {s t : State} (h : s.move m = .next t) : t.cfg = s.cfg := by
  rcases move_cases h with ⟨_, _, _, rfl⟩ | ⟨_, _, _, _, rfl⟩
  · rfl
  · rfl

/-- Settles O17. -/
theorem configurationNeverChanges : Obligations.ConfigurationNeverChanges :=
  ⟨fun _ _ => step_cfg, fun _ _ _ => move_cfg⟩

/-! ### The named strobes -/

/-- A strobe of a `command` address that delivers the status byte takes the three micro-operations of the strobe shape (R52, R95). -/
theorem completes_strobe {i : Instr} {s : State} {c : Addr} (he : exec i s = strobeTransaction c s) (hs : s.Poised)
    (hr : s.resetIn = false) (hc : s.cfg.allows .strobe c = true) {x : Rx1} {rest : List BusAnswer}
    (hb : s.bus = x.answers ++ rest) : Completes i s 3 (s.after rest (strobeEvents c x) (.ok (.byte x.h))) := by
  obtain ⟨hready, hclosed⟩ := hs
  have haccept : exec i s = accept [.strobe c, .ret .rxb] s := by
    rw [he, strobeTransaction, checkAddr_allows hc, checked_ok]
  refine completes_of_accept hready haccept rfl ?_
  rw [launch, runs_startStrobe x 0 c [.ret .rxb] hr hclosed hb, launch]
  simp [endCommand, reply, scrub, State.traded, State.after, retValue, hready]

/-- The row of a named strobe runs the strobe of the address REGMAP gives it (R27, R72). -/
theorem exec_namedStrobe (s : State) {p : Addr × Instr} (hp : p ∈ s.cfg.namedStrobes) : exec p.2 s = strobeTransaction p.1 s := by
  simp only [Cfg.namedStrobes, List.mem_cons, List.not_mem_nil, or_false] at hp
  rcases hp with rfl | rfl | rfl | rfl | rfl | rfl | rfl | rfl | rfl <;> rfl

/-- Settles O28: each of the nine addresses is a `command` entry, so a strobe of it is not refused (R27, R90). -/
theorem namedStrobesAreStrobes : Obligations.NamedStrobesAreStrobes :=
  fun s _ _ _ hs hr hv hp hb => completes_strobe (exec_namedStrobe s hp) hs hr (allows_named hv hp) hb

/-! ### Without an input -/

/-- Where a bus micro-operation is next and the bus port has not answered, the block stands (R60). -/
theorem step_bus_silent {s : State} (hr : s.resetIn = false) {k : Nat} {j : Job} (hs : s.seq = .run k (.bus j)) (hb : s.bus = []) :
    step s = .next s := by
  rw [step_advance hr (by simp [hs])]
  simp [advance, hs, hb]

/-- Settles O10. -/
theorem nothingWithoutInput : Obligations.NothingWithoutInput := by
  intro s hr
  refine ⟨fun hs hp => step_ready hr hs hp, fun k j hs hb => step_bus_silent hr hs hb, fun k code hs hn => ?_⟩
  rw [step_waiting hr hs, if_pos hn]

/-! ### Reset -/

/-- Settles O6: with no offer on the port at reset, the step is the one of an idle READY block. -/
theorem resetIsReady : Obligations.ResetIsReady :=
  ⟨rfl, rfl, rfl, rfl, step_ready rfl rfl rfl⟩

/-- The empty trace is framed as READY is, whatever headers may be sent. -/
theorem framing_reset (ok : Byte → Bool) : framing ok State.reset.trace = some State.reset.seq.framing := rfl

/-- TESTMAP with the defaults of R5 is a configuration the spec admits. -/
theorem cfg_default_valid : Cfg.default.valid = true := by
  decide +kernel

/-- Settles O14: the bus is closed and no transaction is in progress, so no header is due and none is left to check. -/
theorem resetMeetsInvariants : Obligations.ResetMeetsInvariants :=
  ⟨⟨framing_reset _, rfl, rfl⟩, ⟨framing_reset _, trivial⟩, fun h => absurd rfl h, cfg_default_valid⟩

end Sys2Proof.Machine

namespace Sys2Proof.Machine

/-! ## The command port and the sequencer: what is fetched, offered and accepted, and that no step stops (20_memory.md) -/

/-! ### A word placed for the next step -/

/-- Settles O9: the placed word is an offer standing in READY, which `step_offer_ok` takes from the port. -/
theorem fetchWordIsFetched : Obligations.FetchWordIsFetched :=
  fun s nbits w _ hd => step_offer_ok (s := s.withFetchWord nbits w) rfl rfl rfl hd

/-! ### No step stops -/

/-- A micro-operation on a bus that stands as it requires completes or fails, whatever the bus port answers (R51). -/
theorem microOp_answers {op : Op} {s : State} (ho : s.busOpen = decide (op.kind ≠ .busBegin)) (a : BusAnswer) :
    (∃ rx u, microOp op a s = .done rx u) ∨ (∃ e u, microOp op a s = .failed e u) := by
  cases a with
  | done rx =>
    obtain ⟨u, hu, _⟩ := microOp_done ho rx
    exact .inl ⟨rx, u, hu⟩
  | fail e =>
    refine .inr ⟨e, ?_⟩
    cases op with
    | begin h => exact ⟨_, if_neg (by simpa [Op.kind] using ho)⟩
    | header | burstHeader | send v | recv | sendBuf | recvBuf => exact ⟨_, microOp_fail rfl ho e⟩
    | finish | closing err => exact ⟨_, if_pos ho⟩

theorem perform_next {j : Job} {s : State} (ho : s.busOpen = j.framing.isOpen) (a : BusAnswer) (k : Nat) :
    ∃ t, perform a k j s = .next t := by
  rcases microOp_answers (ho.trans j.framing_isOpen) a with ⟨rx, u, hu⟩ | ⟨e, u, hu⟩
  · exact ⟨completed j rx k u, by rw [perform, hu]⟩
  · exact ⟨failedOp j.op e k u, by rw [perform, hu]⟩

/-- At a bus micro-operation a step stands or performs it: in a framed state the bus is as the micro-operation requires (R51). -/
theorem step_bus_next {s : State} (hf : s.Framed) (hr : s.resetIn = false) {k : Nat} {j : Job} (hs : s.seq = .run k (.bus j)) :
    ∃ t, step s = .next t := by
  obtain ⟨_, hopen, _⟩ := hf
  rw [hs] at hopen
  cases hb : s.bus with
  | nil => exact ⟨s, step_bus_silent hr hs hb⟩
  | cons a rest =>
    rw [step_bus hr hs hb]
    exact perform_next (s := { s with bus := rest }) hopen a k

/-- Every command executed in READY answers a next state (R65). -/
theorem exec_next (i : Instr) {s : State} (hs : s.seq = .ready) : ∃ t, exec i s = .next t := by
  rcases exec_form i hs with ⟨_, he, _⟩ | ⟨_, he⟩ | ⟨_, he⟩ <;> exact ⟨_, he⟩

theorem refuseOffer_next (e : DecodeError) {s : State} (hs : s.seq = .ready) : ∃ t, refuseOffer e s = .next t := by
  cases e <;> exact ⟨_, reject_ready hs _⟩

/-- In READY a step waits for an offer, executes the command offered, or refuses an offer that is none (R65, R83). -/
theorem step_ready_next {s : State} (hr : s.resetIn = false) (hs : s.seq = .ready) : ∃ t, step s = .next t := by
  cases hp : s.port with
  | none => exact ⟨s, step_ready hr hs hp⟩
  | some o =>
    cases hd : decodeOffer s.cfg o with
    | ok i =>
      rw [step_offer_ok hs hr hp hd]
      exact exec_next i (s := { s with port := none }) hs
    | error e =>
      rw [step_offer_error hs hr hp hd]
      exact refuseOffer_next e (s := { s with port := none }) hs

/-- Settles O13, by the sequencer phase: the framing invariant is needed only where a bus micro-operation is next. -/
theorem framedStepNeverStops : Obligations.FramedStepNeverStops := by
  intro s hf
  cases hr : s.resetIn with
  | true => exact ⟨blockReset s, if_pos hr⟩
  | false =>
    cases hs : s.seq with
    | ready => exact step_ready_next hr hs
    | run k task =>
      cases task with
      | bus j => exact step_bus_next hf hr hs
      | pin code => exact ⟨_, step_pin hr hs⟩
      | wait code => exact ⟨_, step_wait hr hs⟩
    | waiting k code => exact ⟨_, step_waiting hr hs⟩

/-! ### Offers and acceptance only in READY -/

/-- An offer in READY while another stands is a fault of the host (R226). -/
theorem move_offer_occupied {s : State} (hs : s.seq = .ready) (hp : s.port ≠ none) (o : Offer) :
    s.move (.offer o) = .fault .portOccupied := by
  obtain ⟨_, hp⟩ := Option.ne_none_iff_exists'.mp hp
  simp [State.move, offerCommand, whenReady_ready hs, hp]

/-- A step outside READY takes no offer from the port and puts none on it, a block reset included (R65). -/
theorem step_busy_port {s t : State} (hs : s.seq ≠ .ready) (h : step s = .next t) : t.port = s.port := by
  rcases step_goes h with ⟨_, rfl⟩ | ⟨_, ⟨hq, _⟩ | ⟨hq, _⟩ | ⟨_, g⟩⟩
  · exact blockReset_port s
  · exact absurd hq hs
  · exact absurd hq hs
  · exact g.port

/-- From a serial state a step leads to one: a block reset ends in READY, a step in READY leaves the port empty, and any other
leaves it as it is. -/
theorem step_serial {s t : State} (hser : s.Serial) (h : step s = .next t) : t.Serial := by
  intro ht
  rcases step_goes h with ⟨_, rfl⟩ | ⟨_, ⟨_, hp, rfl⟩ | ⟨_, _, _, g⟩ | ⟨hs, g⟩⟩
  · exact absurd (blockReset_seq s) ht
  · exact hp
  · exact g.port
  · exact g.port.trans (hser hs)

/-- From a serial state a move leads to one: it puts an offer on the port in READY only. -/
theorem move_serial {m : Move} {s t : State} (hser : s.Serial) (h : s.move m = .next t) : t.Serial := by
  rcases move_cases h with ⟨_, hs, _, rfl⟩ | ⟨_, _, _, _, rfl⟩
  · exact fun ht => absurd hs ht
  · exact hser

/-- Executing a command outside READY is a fault: each ends in `accept`, `answer` or `refuse` after its checks (R65). -/
theorem exec_busy (i : Instr) {s : State} (hs : s.seq ≠ .ready) : exec i s = .fault .offeredOutsideReady := by
  have busy (a : Answer) : whenReady s a = .fault .offeredOutsideReady := whenReady_busy hs a
  cases i with
  | chiprdy | modestrobe m | awaitbusy t | awaitcoop t | pollstate t | txpoll | rx => exact busy _
  | hdrWriteSingle a v | hdrReadSingle a | hdrStrobe c | strobeCmdReset | strobeCmdFlushRx | strobeCmdFlushTx | strobeCmdRx
  | strobeCmdTx | strobeCmdIdle | strobeCmdCal | strobeCmdPwd | strobeCmdNop | rdreg a | modreg a f | strobe c | dratedec e m
  | bwdec e m | devdec e m | rssidec raw | setmode m d | txstart f => exact checked_busy hs fun _ => busy _
  | hdrWriteBurst a vs | hdrReadBurst a n | wrreg a v | rdburst a n | getfield fd b | syncdec hi lo | tx f d =>
    exact checked_busy hs fun _ => checked_busy hs fun _ => busy _
  | wrburst a vs | setfield fd b v | modfield a fd v | freqdec hi mid lo =>
    exact checked_busy hs fun _ => checked_busy hs fun _ => checked_busy hs fun _ => busy _
  | freqenc hz | drateenc r | bwenc bw | devenc d => exact answerCodec_busy hs _
  | syncenc w =>
    simp only [exec, execSyncenc]
    split
    · exact busy _
    · exact busy _

/-- Settles O19. -/
theorem acceptedOnlyInReady : Obligations.AcceptedOnlyInReady := by
  refine ⟨fun s o => ⟨fun hs hp => move_offer hs hp o, fun hs hp => move_offer_occupied hs hp o, fun hs => whenReady_busy hs _⟩,
    fun s t hser h => ?_, fun s t hs h => step_busy_port hs h, fun i s hs => exec_busy i hs⟩
  rcases h with h | ⟨m, h⟩
  · exact step_serial hser h
  · exact move_serial hser h

end Sys2Proof.Machine

namespace Sys2Proof

/-! ## Encoding: header bytes, and decoding what was encoded (30_encoding.md) -/

/-! ### The header byte -/

/-- The fields of a header byte stand side by side (R70, R71). -/
theorem hdr_toNat (rw b : Bool) (a : Addr) : (hdr rw b a).toNat = rw.toNat * 128 + b.toNat * 64 + a.toNat := by
  revert a
  cases rw <;> cases b <;> decide

/-- A header byte is the address unshifted, or-ed with the bits of its flags (R71). -/
theorem hdr_eq_or (rw b : Bool) (a : Addr) :
    hdr rw b a = a.setWidth 8 ||| (if rw then 0x80 else 0) ||| (if b then 0x40 else 0) := by
  revert a
  cases rw <;> cases b <;> decide

/-- Settles O1. -/
theorem headerByteIsFlagsAndAddress : Obligations.HeaderByteIsFlagsAndAddress := by
  intro rw b a
  refine ⟨hdr_toNat rw b a, hdrAddr_hdr rw b a, hdrBurst_hdr rw b a, hdrRead_hdr rw b a, ?_, ?_, ?_, ?_⟩
  all_goals simp [hdr_eq_or, BitVec.or_assoc]

/-! ### Wire-level rows -/

section
variable {c : Cfg} {h : Byte} {a : Addr}

/-- At a `command` address a header alone is that address's strobe, whatever its flags (R75). -/
theorem decodeWire_command (hc : c.isCommand (hdrAddr h) = true) : decodeWire c [h] = .ok (strobeRow c (hdrAddr h)) := by
  simp [decodeWire, hc]

/-- Each of the nine strobes of R27 is decoded from a header with its address. -/
theorem decodeWire_named (hv : c.valid = true) {p : Addr × Instr} (hp : p ∈ c.namedStrobes) (ha : hdrAddr h = p.1) :
    decodeWire c [h] = .ok p.2 := by
  have hc : c.isCommand (hdrAddr h) = true := by simp [Cfg.isCommand, ha, Cfg.classAt_namedStrobe hv hp]
  rw [decodeWire_command hc, ha, strobeRow_named hv hp]

section
variable (ha : hdrAddr h = a) (hc : c.isCommand a = false)
include ha hc

/-- A write-single, at an address that is no `command` entry; so the other three accesses of R75, by their flags. -/
theorem decodeWire_writeSingle (hr : hdrRead h = false) (hb : hdrBurst h = false) (v : Byte) :
    decodeWire c [h, v] = .ok (.hdrWriteSingle a v) := by
  simp [decodeWire, ha, hc, hr, hb]

theorem decodeWire_readSingle (hr : hdrRead h = true) (hb : hdrBurst h = false) :
    decodeWire c [h, 0x00] = .ok (.hdrReadSingle a) := by
  simp [decodeWire, ha, hc, hr, hb]

theorem decodeWire_writeBurst (hr : hdrRead h = false) (hb : hdrBurst h = true) (vs : List Byte) :
    decodeWire c (h :: vs) = .ok (.hdrWriteBurst a vs) := by
  simp [decodeWire, ha, hc, hr, hb]

theorem decodeWire_readBurst (hr : hdrRead h = true) (hb : hdrBurst h = true) (n : Nat) :
    decodeWire c (h :: List.replicate n 0x00) = .ok (.hdrReadBurst a n) := by
  simp [decodeWire, ha, hc, hr, hb]

end

end

/-- Settles O2. -/
theorem headerDecodesByClass : Obligations.HeaderDecodesByClass :=
  fun _ _ => ⟨decodeWire_command, fun hv _ hp ha => decodeWire_named hv hp ha, fun hc =>
    ⟨decodeWire_writeSingle rfl hc, decodeWire_readSingle rfl hc, decodeWire_writeBurst rfl hc, decodeWire_readBurst rfl hc⟩⟩

/-- The row of a strobe whose address is none of the nine of R27 is the unnamed one. -/
theorem strobeRow_unnamed {c : Cfg} {a : Addr} (ha : a ∉ c.namedStrobes.map Prod.fst) : strobeRow c a = .hdrStrobe a := by
  have hnone : c.namedStrobes.find? (fun p => p.1 == a) = none :=
    List.find?_eq_none.mpr fun p hp he => ha (beq_iff_eq.mp he ▸ List.mem_map_of_mem hp)
  rw [strobeRow, hnone]

/-! ### Commands: operands are read back in the order they are written -/

section
variable {α β γ : Type} {g : List Byte → Option (α × List Byte)} {g' : List Byte → Option (β × List Byte)}
  {g'' : List Byte → Option (γ × List Byte)} {bs bs' bs'' : List Byte} {x : α} {y : β} {z : γ} {c : Cfg} {code : Byte}

/-- Only a code of R83 takes operands. -/
theorem mem_commandCodes_of_decodeOperands {i : Instr} (h : decodeOperands c code bs = some i) : code ∈ commandCodes := by
  by_contra hc
  simp only [commandCodes, List.mem_cons, List.not_mem_nil, or_false, not_or] at hc
  simp only [decodeOperands, hc, if_false, reduceCtorEq] at h

theorem decodeOffer_of_operands {i : Instr} (h : decodeOperands c code bs = some i) : decodeOffer c (.command (code :: bs)) = .ok i :=
  decodeCommand_of (mem_commandCodes_of_decodeOperands h) h

theorem get1_put (h : ∀ r, g (bs ++ r) = some (x, r)) (k : α → Instr) : get1 g k bs = some (k x) := by
  have hx := h []
  rw [List.append_nil] at hx
  rw [get1, hx]

theorem get2_put (h : ∀ r, g (bs ++ r) = some (x, r)) (h' : ∀ r, g' (bs' ++ r) = some (y, r)) (k : α → β → Instr) :
    get2 g g' k (bs ++ bs') = some (k x y) := by
  rw [get2, h bs']
  exact get1_put h' (k x)

theorem get3_put (h : ∀ r, g (bs ++ r) = some (x, r)) (h' : ∀ r, g' (bs' ++ r) = some (y, r))
    (h'' : ∀ r, g'' (bs'' ++ r) = some (z, r)) (k : α → β → γ → Instr) :
    get3 g g' g'' k (bs ++ (bs' ++ bs'')) = some (k x y z) := by
  rw [get3, h (bs' ++ bs'')]
  exact get2_put h' h'' (k x)

/-- A code with one operand is decoded where the operand is read back from its bytes; so with two and with three. -/
theorem decodeOffer_put1 {k : α → Instr} (hk : decodeOperands c code = get1 g k)
    (h : ∀ r, g (bs ++ r) = some (x, r)) : decodeOffer c (.command (code :: bs)) = .ok (k x) :=
  decodeOffer_of_operands (by rw [hk, get1_put h])

theorem decodeOffer_put2 {k : α → β → Instr} (hk : decodeOperands c code = get2 g g' k)
    (h : ∀ r, g (bs ++ r) = some (x, r)) (h' : ∀ r, g' (bs' ++ r) = some (y, r)) :
    decodeOffer c (.command (code :: (bs ++ bs'))) = .ok (k x y) :=
  decodeOffer_of_operands (by rw [hk, get2_put h h'])

theorem decodeOffer_put3 {k : α → β → γ → Instr} (hk : decodeOperands c code = get3 g g' g'' k)
    (h : ∀ r, g (bs ++ r) = some (x, r)) (h' : ∀ r, g' (bs' ++ r) = some (y, r)) (h'' : ∀ r, g'' (bs'' ++ r) = some (z, r)) :
    decodeOffer c (.command (code :: (bs ++ (bs' ++ bs'')))) = .ok (k x y z) :=
  decodeOffer_of_operands (by rw [hk, get3_put h h' h''])

end

/-- Settles O4: a wire-level row is told by its header (R75), a command by its code (R83), and its operands are read back in the
order they are written. -/
theorem decodeOfEncode : Obligations.DecodeOfEncode := by
  intro c i hv hw
  cases i with
  | hdrWriteSingle a v =>
    exact decodeWire_writeSingle (hdrAddr_hdr _ _ a) (Bool.eq_false_of_not_eq_true' hw) (hdrRead_hdr _ _ a) (hdrBurst_hdr _ _ a) v
  | hdrReadSingle a =>
    exact decodeWire_readSingle (hdrAddr_hdr _ _ a) (Bool.eq_false_of_not_eq_true' hw) (hdrRead_hdr _ _ a) (hdrBurst_hdr _ _ a)
  | hdrWriteBurst a vs =>
    exact decodeWire_writeBurst (hdrAddr_hdr _ _ a) (Bool.eq_false_of_not_eq_true' hw) (hdrRead_hdr _ _ a) (hdrBurst_hdr _ _ a) vs
  | hdrReadBurst a n =>
    exact decodeWire_readBurst (hdrAddr_hdr _ _ a) (Bool.eq_false_of_not_eq_true' hw) (hdrRead_hdr _ _ a) (hdrBurst_hdr _ _ a) n
  | hdrStrobe a =>
    obtain ⟨hc, ha⟩ : c.isCommand a = true ∧ a ∉ c.namedStrobes.map Prod.fst := by simpa [Instr.wf] using hw
    have hh : hdrAddr (hdr false false a) = a := hdrAddr_hdr false false a
    calc decodeWire c [hdr false false a]
      _ = .ok (strobeRow c (hdrAddr (hdr false false a))) := decodeWire_command (by rwa [hh])
      _ = .ok (.hdrStrobe a) := by rw [hh, strobeRow_unnamed ha]
  | strobeCmdReset | strobeCmdFlushRx | strobeCmdFlushTx | strobeCmdRx | strobeCmdTx | strobeCmdIdle | strobeCmdCal | strobeCmdPwd
  | strobeCmdNop => exact decodeWire_named hv (p := (_, _)) (by simp [Cfg.namedStrobes]) (hdrAddr_hdr _ _ _)
  | rdreg n | strobe n | rssidec n | syncenc n => exact decodeOffer_put1 rfl (getNat_putNat n)
  | wrreg m n | rdburst m n | dratedec m n | bwdec m n | devdec m n | syncdec m n =>
    exact decodeOffer_put2 rfl (getNat_putNat m) (getNat_putNat n)
  | freqdec hi mid lo => exact decodeOffer_put3 rfl (getNat_putNat hi) (getNat_putNat mid) (getNat_putNat lo)
  | modreg a f => exact decodeOffer_put2 rfl (getNat_putNat a) (getModFn_putModFn hw)
  | wrburst a vs =>
    refine decodeOffer_put2 rfl (getNat_putNat a) fun r => ?_
    rw [List.append_assoc, getNatList_putNats]
  | getfield fd b => exact decodeOffer_put2 rfl (getField_putField fd) (getNat_putNat b)
  | setfield fd b v => exact decodeOffer_put3 rfl (getField_putField fd) (getNat_putNat b) (getNat_putNat v)
  | modfield a fd v => exact decodeOffer_put3 rfl (getNat_putNat a) (getField_putField fd) (getNat_putNat v)
  | freqenc q | drateenc q | bwenc q | devenc q => exact decodeOffer_put1 rfl (getQuantity_putQuantity q)
  | modestrobe m => exact decodeOffer_put1 rfl (getMode_putMode m)
  | awaitbusy t | awaitcoop t | pollstate t => exact decodeOffer_put1 rfl (getState_putState t)
  | setmode m d => exact decodeOffer_put2 rfl (getMode_putMode m) (getDisc_putDisc d)
  | tx f d => exact decodeOffer_put2 rfl (getFrame_putFrame f) (getDisc_putDisc d)
  | txstart f => exact decodeOffer_put1 rfl (getFrame_putFrame f)
  | chiprdy | txpoll | rx => exact decodeOffer_of_operands rfl

/-- Settles O3: each word is a closed offer under the default configuration, which the decoder evaluates. -/
theorem specWordsDecode : Obligations.SpecWordsDecode :=
  ⟨rfl, rfl, rfl, rfl, rfl, rfl, rfl, rfl, rfl, rfl, rfl, rfl, rfl⟩

end Sys2Proof

namespace Sys2Proof.Machine

/-- A code that R83 assigns to no command is no instruction, whatever bytes follow it. -/
theorem decodeCommand_unassigned {code : Byte} (hc : code ∉ commandCodes) (c : Cfg) (bs : List Byte) :
    decodeCommand c (code :: bs) = .error .unassignedCode := by
  simp [decodeCommand, hc]

/-- Settles O5. -/
theorem unassignedCodeRefused : Obligations.UnassignedCodeRefused := by
  intro s code bs hs hr hc hp
  obtain ⟨hready, hclosed⟩ := hs
  rw [step_offer_error hready hr hp (decodeCommand_unassigned hc s.cfg bs)]
  exact refuse_poised (s := { s with port := none }) ⟨hready, hclosed⟩ .commandCode

end Sys2Proof.Machine

namespace Sys2Proof.Machine

/-! ## Legal headers: what a step can send next (30_encoding.md, R76) -/

/-- The headers that may be emitted are those of the accesses R90 admits, by the burst and the read flag (R75, R76). -/
theorem legalHeader_hdr (c : Cfg) (rw b : Bool) (a : Addr) : legalHeader c (hdr rw b a) =
    if b then c.allows .burst a else if rw then c.allows .read a else (c.allows .write a || c.allows .strobe a) := by
  unfold legalHeader Cfg.allows
  rw [hdrAddr_hdr, hdrRead_hdr, hdrBurst_hdr]
  cases c.classAt a with
  | none => cases rw <;> cases b <;> rfl
  | some cls => cases cls <;> cases rw <;> cases b <;> rfl

/-- What a sequencer phase sends and can start later is legal; `h` is the header latch. -/
def Seq.Legal (c : Cfg) (h : Byte) : Seq → Prop
  | .ready => True
  | .run _ (.bus j) => j.legal c h = true
  | .run _ (.pin code) | .run _ (.wait code) | .waiting _ code => code.all (Phase.legal c) = true

theorem State.legal_iff {s : State} :
    s.Legal ↔ framing (legalHeader s.cfg) s.trace = some s.seq.framing ∧ s.seq.Legal s.cfg s.lat.hdr := by
  unfold State.Legal Seq.Legal
  rfl

/-- A sequencer phase between two transactions, from which only legal ones start, whatever the header latch. -/
structure Seq.Between (c : Cfg) (q : Seq) : Prop where
  closed : q.framing = .closed
  legal : ∀ h, q.Legal c h

theorem between_ready (c : Cfg) : Seq.Between c .ready := ⟨rfl, fun _ => trivial⟩

section
variable {c : Cfg} {code : List Phase}

theorem between_pin (hc : code.all (Phase.legal c) = true) (k : Nat) : Seq.Between c (.run k (.pin code)) := ⟨rfl, fun _ => hc⟩

theorem between_wait (hc : code.all (Phase.legal c) = true) (k : Nat) : Seq.Between c (.run k (.wait code)) := ⟨rfl, fun _ => hc⟩

theorem between_waiting (hc : code.all (Phase.legal c) = true) (k : Nat) : Seq.Between c (.waiting k code) := ⟨rfl, fun _ => hc⟩

/-- A transaction about to begin. -/
theorem between_begin {h : Byte} {post : Post} (hh : legalHeader c h = true) (hp : post.legal c = true)
    (hc : code.all (Phase.legal c) = true) (k : Nat) (ops : List Op) :
    Seq.Between c (.run k (.bus ⟨.begin h, ops, post, code⟩)) :=
  ⟨rfl, fun _ => by simp only [Seq.Legal, Job.legal, hh, hp, hc, Bool.and_self]⟩

/-- A single read about to begin. -/
theorem between_read {a : Addr} {post : Post} (ha : c.allows .read a = true) (hp : post.legal c = true)
    (hc : code.all (Phase.legal c) = true) (k : Nat) (ops : List Op) :
    Seq.Between c (.run k (.bus ⟨.begin (hdr true false a), ops, post, code⟩)) :=
  between_begin (by simpa [legalHeader_hdr] using ha) hp hc k ops

theorem allows_fsmState (hv : c.valid = true) : c.allows .read c.regmap.fsmState = true := by
  simp [Cfg.allows, Cfg.classAt_fsmState hv, AccessClass.admits]

theorem allows_read_fifo (hv : c.valid = true) : c.allows .read c.regmap.fifo = true := by
  simp [Cfg.allows, Cfg.classAt_fifo hv, AccessClass.admits]

/-- The poll of an await about to begin (R152). -/
theorem between_pollJob (hv : c.valid = true) (hc : code.all (Phase.legal c) = true) (k : Nat) (coop : Bool) :
    Seq.Between c (.run k (.bus (pollJob c coop code))) :=
  between_read (allows_fsmState hv) rfl hc k _

end

/-- A check reads next a register of its own, and goes on with registers of its own (R178). -/
theorem checkNext_regs {seen : List Byte} {p rest : CheckProc} {a : Addr} (h : checkNext seen p = .read a rest) :
    a ∈ p.regs ∧ ∀ b ∈ rest.regs, b ∈ p.regs := by
  induction p with
  | found o c => cases h
  | read a' p _ =>
    cases h
    exact ⟨List.mem_cons_self, fun b hb => List.mem_cons_of_mem _ hb⟩
  | test idx mask val yes no ihy ihn =>
    simp only [CheckProc.regs, List.mem_append]
    rw [checkNext] at h
    split at h
    · obtain ⟨ha, hr⟩ := ihy h
      exact ⟨.inl ha, fun b hb => .inl (hr b hb)⟩
    · obtain ⟨ha, hr⟩ := ihn h
      exact ⟨.inr ha, fun b hb => .inr (hr b hb)⟩

/-! ### Between transactions, on a closed bus -/

section
variable {s : State} (hb : s.busOpen = false) (k : Nat)
include hb

theorem between_raise (err : ErrKind) (c : Cfg) : Seq.Between c (raise err k s).seq := by
  simp [raise, hb, between_ready]

theorem between_goOnCheck {p : CheckProc} (hp : p.regs.all (s.cfg.allows .read) = true) {code : List Phase}
    (hc : code.all (Phase.legal s.cfg) = true) (seen : List Byte) {o : State} (ho : Seq.Between s.cfg o.seq) :
    Seq.Between s.cfg (goOnCheck p seen code k o s).seq := by
  rw [List.all_eq_true] at hp
  unfold goOnCheck
  split
  · rename_i a rest hn
    obtain ⟨ha, hr⟩ := checkNext_regs hn
    exact between_read (post := .check rest seen) (hp a ha) (List.all_eq_true.mpr fun b hb => hp b (hr b hb)) hc k _
  · split
    · exact ho
    · exact between_raise hb k _ s.cfg

theorem between_launch (hv : s.cfg.valid = true) {code : List Phase} (hc : code.all (Phase.legal s.cfg) = true) :
    Seq.Between s.cfg (launch code k s).seq := by
  induction code with
  | nil => exact between_ready _
  | cons p rest ih =>
    rw [List.all_cons, Bool.and_eq_true] at hc
    obtain ⟨hp, hc⟩ := hc
    cases p with
    | ret r => exact between_ready _
    | pin => exact between_pin hc k
    | strobe a | write a v | writeBack a f | readBurst a n | writeBurst a vs =>
      rw [Phase.legal] at hp
      exact between_begin (by simp [legalHeader_hdr, hp]) rfl hc k _
    | read a => exact between_read hp rfl hc k _
    | await t coop | pollOnce t => exact between_read (allows_fsmState hv) rfl hc k _
    | readLen => exact between_read (allows_read_fifo hv) rfl hc k _
    | check p => exact between_goOnCheck hb k hp hc [] (ih hc)

theorem between_afterPoll (hv : s.cfg.valid = true) {code : List Phase} (hc : code.all (Phase.legal s.cfg) = true)
    (coop : Bool) : Seq.Between s.cfg (afterPoll coop code k s).seq := by
  simp only [afterPoll]
  split
  · exact between_launch (s := { s with lat := { s.lat with pcnt := s.lat.pcnt + 1 } }) hb k hv hc
  · exact between_raise (s := { s with lat := { s.lat with pcnt := s.lat.pcnt + 1 } }) hb k _ s.cfg
  · cases coop with
    | false => exact between_pollJob hv hc k false
    | true => exact between_wait hc k

theorem between_afterLen (hv : s.cfg.valid = true) : Seq.Between s.cfg (afterLen k s).seq := by
  simp only [afterLen]
  split
  · exact between_ready _
  · split
    · exact between_raise hb k _ s.cfg
    · exact between_begin (by simp [legalHeader_hdr, allows_fifo hv]) rfl rfl k _

theorem between_afterTransaction (hv : s.cfg.valid = true) {post : Post} (hp : post.legal s.cfg = true) {code : List Phase}
    (hc : code.all (Phase.legal s.cfg) = true) : Seq.Between s.cfg (afterTransaction post code k s).seq := by
  cases post with
  | proceed => exact between_launch hb k hv hc
  | poll coop => exact between_afterPoll hb k hv hc coop
  | pollOnce t =>
    simp only [afterTransaction, afterPollOnce]
    split
    · exact between_launch hb k hv hc
    · exact between_ready _
  | check rest seen => exact between_goOnCheck hb k hp hc _ (between_launch hb k hv hc)
  | len => exact between_afterLen hb k hv

theorem between_afterPin (hv : s.cfg.valid = true) {code : List Phase} (hc : code.all (Phase.legal s.cfg) = true) :
    Seq.Between s.cfg (afterPin code k s).seq := by
  unfold afterPin
  split
  · exact between_launch hb k hv hc
  · exact between_ready _

end

/-! ### One micro-operation of a transaction -/

/-- The framing after a completed micro-operation (R52). -/
def Op.after (op : Op) : Framing :=
  match op.kind with
  | .busBegin => .begun
  | .busXfer => .opened
  | .busEnd => .closed

/-- The framing after a failed micro-operation (R192). -/
def Op.afterFail (op : Op) : Framing :=
  match op.kind with
  | .busXfer => .dying
  | .busBegin | .busEnd => .closed

/-- The header latch after a micro-operation: `BusBegin` loads it (R53). -/
def Op.latched (h : Byte) : Op → Byte
  | .begin h' => h'
  | .header | .burstHeader | .send _ | .recv | .sendBuf | .recvBuf | .finish | .closing _ => h

theorem Job.legal_iff {c : Cfg} {h : Byte} {j : Job} : j.legal c h = true ↔
    (∀ h', j.op = .begin h' → legalHeader c h' = true) ∧ (j.op = .header ∨ j.op = .burstHeader → legalHeader c h = true) ∧
      j.post.legal c = true ∧ j.code.all (Phase.legal c) = true := by
  obtain ⟨op, ops, post, code⟩ := j
  cases op <;> simp [Job.legal, and_assoc]

/-- The event of a micro-operation of a legal job is one a legal trace has there. -/
theorem frameStep_event {c : Cfg} {lat : Latches} {j : Job} (hj : j.legal c lat.hdr = true) (rx : Byte) :
    frameStep (legalHeader c) j.framing (j.op.event lat rx) = some j.op.after := by
  obtain ⟨_, hh, _⟩ := Job.legal_iff.mp hj
  obtain ⟨op, ops, post, code⟩ := j
  cases op with
  | header => exact frameStep_header (hh (.inl rfl)) rx
  | burstHeader => exact frameStep_header (hh (.inr rfl)) rx
  | begin h | send v | recv | sendBuf | recvBuf | finish | closing err => rfl

/-- The failure of any micro-operation is an event a trace has there. -/
theorem frameStep_fail (ok : Byte → Bool) (j : Job) (e : BusError) :
    frameStep ok j.framing (.fail j.op.kind e) = some j.op.afterFail := by
  obtain ⟨op, ops, post, code⟩ := j
  cases op <;> rfl

/-- A completed micro-operation adds its event, and leaves the bus and the header latch as it says (R51, R53). -/
theorem microOp_done_state {op : Op} {s : State} (ho : s.busOpen = decide (op.kind ≠ .busBegin)) (rx : Byte) :
    ∃ u, microOp op (.done rx) s = .done rx u ∧ u.cfg = s.cfg ∧ u.trace = s.trace ++ [op.event s.lat rx] ∧
      u.busOpen = op.after.isOpen ∧ u.lat.hdr = op.latched s.lat.hdr := by
  cases op <;> simp [Op.kind] at ho <;>
    simp [microOp, busBegin, busXfer, busEnd, ho, Op.event, Op.kind, Op.tx, Op.after, Op.latched]

/-- A failed micro-operation adds the event of its failure; a failed `BusEnd` closes the bus too (R51, R192). -/
theorem microOp_fail_state {op : Op} {s : State} (ho : s.busOpen = decide (op.kind ≠ .busBegin)) (e : BusError) :
    ∃ u, microOp op (.fail e) s = .failed e u ∧ u.cfg = s.cfg ∧ u.trace = s.trace ++ [.fail op.kind e] ∧
      u.busOpen = op.afterFail.isOpen := by
  cases op <;> simp [Op.kind] at ho <;> simp [microOp, busBegin, busXfer, busEnd, ho, Op.kind, Op.afterFail]

/-- The next micro-operation of a shaped job: the header after `BusBegin`, and an exchange or `BusEnd` after an exchange (R52). -/
theorem Job.shaped_next {j : Job} (hs : j.shaped = true) {o : Op} {os : List Op} (hops : j.ops = o :: os) :
    (∃ h, j.op = .begin h ∧ (o = .header ∨ o = .burstHeader)) ∨
    (j.op.kind = .busXfer ∧ (o = .finish ∨ (∃ v, o = .send v) ∨ o = .recv ∨ o = .sendBuf ∨ o = .recvBuf)) := by
  obtain ⟨op, ops, post, code⟩ := j
  subst hops
  cases op with
  | begin h =>
    refine .inl ⟨h, rfl, ?_⟩
    cases o <;> simp_all [Job.shaped]
  | header | burstHeader | send v | recv | sendBuf | recvBuf =>
    refine .inr ⟨rfl, ?_⟩
    rcases dataShape_cons hs with ⟨ho, _⟩ | ⟨ho, _⟩
    · exact .inl ho
    · exact .inr ho
  | finish | closing err => simp [Job.shaped] at hs

theorem loopLatches_hdr (op : Op) (rx : Byte) (lat : Latches) : (loopLatches op rx lat).hdr = lat.hdr := by
  cases op <;> rfl

/-- Inside a transaction a completed micro-operation leads to the next one. -/
theorem completed_cons {j : Job} (hs : j.shaped = true) {o : Op} {os : List Op} (hops : j.ops = o :: os) (rx : Byte) (k : Nat)
    (s : State) : completed j rx k s =
      { s with seq := .run (k + 1) (.bus { j with op := o, ops := os }), lat := loopLatches j.op rx s.lat } := by
  simp only [completed, hops]
  split
  · rename_i err hop
    rcases j.shaped_next hs hops with ⟨_, hbegin, _⟩ | ⟨hk, _⟩
    · simp [hop] at hbegin
    · simp [hop, Op.kind] at hk
  · rfl

/-- The next micro-operation of a legal job is at the framing the one before leads to, and is legal with the header it latched. -/
theorem Job.legal_next {c : Cfg} {h : Byte} {j : Job} (hs : j.shaped = true) (hj : j.legal c h = true) {o : Op} {os : List Op}
    (hops : j.ops = o :: os) : ({ j with op := o, ops := os } : Job).framing = j.op.after ∧
      ({ j with op := o, ops := os } : Job).legal c (j.op.latched h) = true := by
  obtain ⟨hbegin, _, hpost, hcode⟩ := Job.legal_iff.mp hj
  rcases j.shaped_next hs hops with ⟨h', hop, rfl | rfl⟩ | ⟨hk, hex⟩
  case inr =>
    have hafter : j.op.after = .opened := by rw [Op.after, hk]
    rw [hafter]
    rcases hex with rfl | ⟨v, rfl⟩ | rfl | rfl | rfl <;> exact ⟨rfl, Job.legal_iff.mpr (by simp [hpost, hcode])⟩
  all_goals
    rw [hop]
    exact ⟨rfl, Job.legal_iff.mpr (by simp [Op.latched, hbegin h' hop, hpost, hcode])⟩

/-- A completed micro-operation leaves a legal job at its next one, or the command between transactions. -/
theorem completed_legal {j : Job} (hs : j.shaped = true) {s : State} (hv : s.cfg.valid = true) {h : Byte}
    (hj : j.legal s.cfg h = true) (ho : s.busOpen = j.op.after.isOpen) (hlat : s.lat.hdr = j.op.latched h) (rx : Byte) (k : Nat) :
    (completed j rx k s).seq.framing = j.op.after ∧ (completed j rx k s).seq.Legal s.cfg (completed j rx k s).lat.hdr := by
  cases hops : j.ops with
  | cons o os =>
    obtain ⟨hf, hl⟩ := Job.legal_next hs hj hops
    rw [completed_cons hs hops, loopLatches_hdr, hlat]
    exact ⟨hf, hl⟩
  | nil =>
    obtain ⟨_, _, hpost, hcode⟩ := Job.legal_iff.mp hj
    have hafter : j.op.after = .closed := by rw [Op.after, j.shaped_last hs hops]
    rw [hafter] at ho ⊢
    have hb : Seq.Between s.cfg (completed j rx k s).seq := by
      simp only [completed, hops]
      split
      · exact between_ready _
      · exact between_afterTransaction (s := { s with lat := loopLatches j.op rx s.lat }) ho (k + 1) hv hpost hcode
    exact ⟨hb.closed, hb.legal _⟩

/-- A closing `BusEnd` is legal, and so is a command that has ended. -/
theorem raise_legal {f : Framing} (hf : f = .closed ∨ f = .dying) {s : State} (ho : s.busOpen = f.isOpen) (err : ErrKind) (k : Nat)
    (c : Cfg) (h : Byte) : (raise err k s).seq.framing = f ∧ (raise err k s).seq.Legal c h := by
  rcases hf with rfl | rfl
  · have hb := between_raise ho k err c
    exact ⟨hb.closed, hb.legal h⟩
  · rw [raise, if_pos (show s.busOpen = true from ho)]
    exact ⟨rfl, rfl⟩

/-- A failed micro-operation ends the command, or leaves the closing `BusEnd` to perform (R192). -/
theorem failedOp_legal {op : Op} {s : State} (ho : s.busOpen = op.afterFail.isOpen) (e : BusError) (k : Nat) (c : Cfg) (h : Byte) :
    (failedOp op e k s).seq.framing = op.afterFail ∧ (failedOp op e k s).seq.Legal c h := by
  cases op with
  | closing err => exact ⟨rfl, trivial⟩
  | begin h' | finish => exact raise_legal (.inl rfl) ho _ k c h
  | header | burstHeader | send v | recv | sendBuf | recvBuf => exact raise_legal (.inr rfl) ho _ k c h

/-! ### One step -/

section
variable {s t : State}

/-- A state is legal after one more event that leads to where its sequencer stands. -/
theorem legal_emitted (hl : s.Legal) (hcfg : t.cfg = s.cfg) {e : Event} (htrace : t.trace = s.trace ++ [e])
    (hstep : frameStep (legalHeader s.cfg) s.seq.framing e = some t.seq.framing) (hseq : t.seq.Legal s.cfg t.lat.hdr) : t.Legal := by
  obtain ⟨hf, _⟩ := State.legal_iff.mp hl
  rw [State.legal_iff, hcfg, htrace, framing_snoc, hf]
  exact ⟨hstep, hseq⟩

/-- A state is legal after an event that leads between transactions. -/
theorem legal_emitted_between (hl : s.Legal) (hcfg : t.cfg = s.cfg) {e : Event} (htrace : t.trace = s.trace ++ [e])
    (hstep : frameStep (legalHeader s.cfg) s.seq.framing e = some .closed) (hb : Seq.Between s.cfg t.seq) : t.Legal :=
  legal_emitted hl hcfg htrace (hstep.trans (congrArg some hb.closed.symm)) (hb.legal _)

/-- A state is legal with the same trace, between transactions like before. -/
theorem legal_between (hl : s.Legal) (hs : s.seq.framing = .closed) (hcfg : t.cfg = s.cfg) (htrace : t.trace = s.trace)
    (hb : Seq.Between s.cfg t.seq) : t.Legal := by
  obtain ⟨hf, _⟩ := State.legal_iff.mp hl
  rw [State.legal_iff, hcfg, htrace, hf, hs, hb.closed]
  exact ⟨rfl, hb.legal _⟩

/-- One micro-operation of a legal job, completed or failed. -/
theorem perform_legal (hl : s.Legal) (hf : s.Framed) (hv : s.cfg.valid = true) {k : Nat} {j : Job} (hs : s.seq = .run k (.bus j))
    {a : BusAnswer} {rest : List BusAnswer} (h : perform a k j { s with bus := rest } = .next t) : t.Legal := by
  obtain ⟨_, hopen, hshaped⟩ := hf
  obtain ⟨_, hj⟩ := State.legal_iff.mp hl
  rw [hs] at hopen hshaped hj
  have hcfg := (goes_perform h).cfg
  have hreq := hopen.trans j.framing_isOpen
  cases a with
  | done rx =>
    obtain ⟨u, hu, hc, htrace, ho, hlat⟩ := microOp_done_state (op := j.op) (s := { s with bus := rest }) hreq rx
    rw [perform, hu] at h
    cases h
    obtain ⟨hf', hl'⟩ := completed_legal hshaped (s := u) (hc ▸ hv) (hc ▸ hj) ho hlat rx k
    refine legal_emitted hl hcfg ((onward_completed j rx k u).trace.trans htrace) ?_ (hc ▸ hl')
    rw [hf', hs]
    exact frameStep_event hj rx
  | fail e =>
    obtain ⟨u, hu, _, htrace, ho⟩ := microOp_fail_state (op := j.op) (s := { s with bus := rest }) hreq e
    rw [perform, hu] at h
    cases h
    obtain ⟨hf', hl'⟩ := failedOp_legal ho e k s.cfg (failedOp j.op e k u).lat.hdr
    refine legal_emitted hl hcfg ((onward_failedOp j.op e k u).trace.trans htrace) ?_ hl'
    rw [hf', hs]
    exact frameStep_fail _ j e

/-- Executing an instruction between commands starts legal transactions only (R90). -/
theorem exec_legal (hl : s.Legal) (hv : s.cfg.valid = true) (hs : s.seq = .ready) (hb : s.busOpen = false) {i : Instr}
    (h : exec i s = .next t) : t.Legal := by
  have hcfg := (goes_exec hs h).cfg
  have hclosed : s.seq.framing = .closed := by rw [hs]; rfl
  rcases exec_form i hs with ⟨code, he, hcode⟩ | ⟨v, he⟩ | ⟨err, he⟩ <;> rw [he] at h <;> cases h
  · exact legal_between hl hclosed hcfg (onward_launch code 0 s).trace (between_launch hb 0 hv (hcode hv))
  · exact hl
  · exact legal_between hl hclosed hcfg (onward_raise err 0 s).trace (between_raise hb 0 err s.cfg)

theorem refuseOffer_legal (hl : s.Legal) (hs : s.seq = .ready) (hb : s.busOpen = false) {e : DecodeError}
    (h : refuseOffer e s = .next t) : t.Legal := by
  have hclosed : s.seq.framing = .closed := by rw [hs]; rfl
  cases e <;> simp only [refuseOffer, refuse, reject_ready hs] at h <;> cases h <;>
    exact legal_between hl hclosed (goes_raise _ 0 s).cfg (onward_raise _ 0 s).trace (between_raise hb 0 _ s.cfg)

/-- A step in READY adds nothing to the trace: it waits, executes the command offered or refuses the offer (R65, R83). -/
theorem step_ready_legal (hl : s.Legal) (hv : s.cfg.valid = true) (hr : s.resetIn = false) (hs : s.seq = .ready)
    (hb : s.busOpen = false) (h : step s = .next t) : t.Legal := by
  cases hp : s.port with
  | none =>
    rw [step_ready hr hs hp] at h
    cases h
    exact hl
  | some o =>
    cases hd : decodeOffer s.cfg o with
    | ok i =>
      rw [step_offer_ok hs hr hp hd] at h
      exact exec_legal (s := { s with port := none }) hl hv hs hb h
    | error e =>
      rw [step_offer_error hs hr hp hd] at h
      exact refuseOffer_legal (s := { s with port := none }) hl hs hb h

end

/-- Settles O15, by what is next: a micro-operation of a transaction, whose header is then legal, or anything between
transactions, after which only legal ones start. -/
theorem stepKeepsLegal : Obligations.StepKeepsLegal := by
  intro s t hv hf hl h
  have hcfg := step_cfg h
  have ⟨_, hopen, _⟩ := hf
  obtain ⟨_, hseq⟩ := State.legal_iff.mp hl
  cases hr : s.resetIn with
  | true =>
    rw [step, if_pos hr] at h
    cases h
    exact legal_emitted_between hl hcfg (blockReset_trace s) (frameStep_reset _ _) (between_ready _)
  | false =>
    cases hs : s.seq with
    | ready =>
      rw [hs] at hopen
      exact step_ready_legal hl hv hr hs hopen h
    | run k task =>
      rw [hs] at hopen hseq
      cases task with
      | bus j =>
        cases hb : s.bus with
        | nil =>
          rw [step_bus_silent hr hs hb] at h
          cases h
          exact hl
        | cons a rest =>
          rw [step_bus hr hs hb] at h
          exact perform_legal hl hf hv hs h
      | pin code =>
        rw [step_pin hr hs] at h
        cases h
        exact legal_emitted_between hl hcfg (onward_afterPin code (k + 1) (samplePin s)).trace (by rw [hs]; rfl)
          (between_afterPin (s := samplePin s) hopen (k + 1) hv hseq)
      | wait code =>
        rw [step_wait hr hs] at h
        cases h
        exact legal_emitted_between hl hcfg (issueWait_trace code k s) (by rw [hs]; rfl) (between_waiting hseq k)
    | waiting k code =>
      rw [hs] at hseq
      rw [step_waiting hr hs] at h
      split at h <;> cases h
      · exact hl
      · exact legal_between hl (by rw [hs]; rfl) hcfg rfl (between_pollJob hv hseq (k + 1) true)

end Sys2Proof.Machine

namespace Sys2Proof.Machine

/-! ## The bus framer: framing, failed micro-operations, and the register accesses (40_bus_framer.md) -/

/-! ### Between transactions -/

/-- A sequencer phase with no transaction open, where the transaction it begins, if it begins one, is whole (R52). -/
structure Seq.Clear (q : Seq) : Prop where
  closed : q.framing = .closed
  shaped : q.shaped = true

theorem clear_ready : Seq.Clear .ready := ⟨rfl, rfl⟩

/-- A transaction about to begin: its header comes first, and its exchanges end in `BusEnd` (R52). -/
theorem clear_begin {o : Op} (ho : o = .header ∨ o = .burstHeader) {os : List Op} (hs : dataShape os = true) (k : Nat)
    (h : Byte) (post : Post) (code : List Phase) : Seq.Clear (.run k (.bus ⟨.begin h, o :: os, post, code⟩)) := by
  rcases ho with rfl | rfl <;> exact ⟨rfl, hs⟩

/-- A single access or a strobe about to begin. -/
theorem clear_single {os : List Op} (hs : dataShape os = true) (k : Nat) (h : Byte) (post : Post) (code : List Phase) :
    Seq.Clear (.run k (.bus ⟨.begin h, .header :: os, post, code⟩)) :=
  clear_begin (.inl rfl) hs k h post code

/-- A burst about to begin, of any length. -/
theorem clear_burst {o : Op} (ho : o = .recvBuf ∨ o = .sendBuf) (n k : Nat) (h : Byte) (post : Post) (code : List Phase) :
    Seq.Clear (.run k (.bus ⟨.begin h, .burstHeader :: (List.replicate n o ++ [.finish]), post, code⟩)) :=
  clear_begin (.inr rfl) (dataShape_replicate n ho) k h post code

section
variable {s : State} (hb : s.busOpen = false) (k : Nat)
include hb

theorem clear_raise (err : ErrKind) : Seq.Clear (raise err k s).seq := by
  rw [raise, if_neg (by simp [hb])]
  exact clear_ready

theorem clear_goOnCheck (p : CheckProc) (seen : List Byte) (code : List Phase) {o : State} (ho : Seq.Clear o.seq) :
    Seq.Clear (goOnCheck p seen code k o s).seq := by
  unfold goOnCheck
  split
  · exact clear_single rfl k _ _ _
  · split
    · exact ho
    · exact clear_raise hb k _

theorem clear_launch (code : List Phase) : Seq.Clear (launch code k s).seq := by
  induction code with
  | nil => exact clear_ready
  | cons p rest ih =>
    cases p with
    | ret r => exact clear_ready
    | pin => exact ⟨rfl, rfl⟩
    | strobe a | read a | write a v | writeBack a f | await t coop | pollOnce t | readLen => exact clear_single rfl k _ _ _
    | readBurst a n => exact clear_burst (.inl rfl) n k _ _ _
    | writeBurst a vs => exact clear_burst (.inr rfl) vs.length k _ _ _
    | check p => exact clear_goOnCheck hb k p [] rest ih

theorem clear_afterPoll (coop : Bool) (code : List Phase) : Seq.Clear (afterPoll coop code k s).seq := by
  simp only [afterPoll]
  split
  · exact clear_launch (s := { s with lat := { s.lat with pcnt := s.lat.pcnt + 1 } }) hb k code
  · exact clear_raise (s := { s with lat := { s.lat with pcnt := s.lat.pcnt + 1 } }) hb k _
  · cases coop with
    | false => exact clear_single rfl k _ _ _
    | true => exact ⟨rfl, rfl⟩

theorem clear_afterLen : Seq.Clear (afterLen k s).seq := by
  simp only [afterLen]
  split
  · exact clear_ready
  · split
    · exact clear_raise hb k _
    · exact clear_burst (.inl rfl) _ k _ _ _

theorem clear_afterTransaction (post : Post) (code : List Phase) : Seq.Clear (afterTransaction post code k s).seq := by
  cases post with
  | proceed => exact clear_launch hb k code
  | poll coop => exact clear_afterPoll hb k coop code
  | pollOnce t =>
    simp only [afterTransaction, afterPollOnce]
    split
    · exact clear_launch hb k code
    · exact clear_ready
  | check rest seen => exact clear_goOnCheck hb k rest _ code (clear_launch hb k code)
  | len => exact clear_afterLen hb k

theorem clear_afterPin (code : List Phase) : Seq.Clear (afterPin code k s).seq := by
  unfold afterPin
  split
  · exact clear_launch hb k code
  · exact clear_ready

end

/-! ### The framing invariant over one micro-operation -/

/-- The event of a micro-operation is one that a trace has where its job stands, if any header may be sent. -/
theorem frameStep_event_any (j : Job) (lat : Latches) (rx : Byte) :
    frameStep (fun _ => true) j.framing (j.op.event lat rx) = some j.op.after := by
  obtain ⟨op, ops, post, code⟩ := j
  cases op <;> rfl

/-- Inside a shaped job, the job at the next micro-operation is shaped and stands where the one before leads to (R52). -/
theorem Job.next_shaped {j : Job} (hs : j.shaped = true) {o : Op} {os : List Op} (hops : j.ops = o :: os) :
    ({ j with op := o, ops := os } : Job).framing = j.op.after ∧ ({ j with op := o, ops := os } : Job).shaped = true := by
  obtain ⟨op, ops, post, code⟩ := j
  subst hops
  cases op with
  | begin h => cases o <;> simp_all [Job.shaped, Job.framing, Op.after, Op.kind]
  | header | burstHeader | send v | recv | sendBuf | recvBuf =>
    rcases dataShape_cons hs with ⟨rfl, rfl⟩ | ⟨⟨_, rfl⟩ | rfl | rfl | rfl, hos⟩
    · exact ⟨rfl, rfl⟩
    all_goals exact ⟨rfl, hos⟩
  | finish | closing err => simp [Job.shaped] at hs

/-- A completed micro-operation leaves a shaped job at its next one, or the command between transactions. -/
theorem completed_framing {j : Job} (hs : j.shaped = true) {s : State} (ho : s.busOpen = j.op.after.isOpen) (rx : Byte)
    (k : Nat) : (completed j rx k s).seq.framing = j.op.after ∧ (completed j rx k s).seq.shaped = true := by
  cases hops : j.ops with
  | cons o os =>
    rw [completed_cons hs hops]
    exact j.next_shaped hs hops
  | nil =>
    have hafter : j.op.after = .closed := by rw [Op.after, j.shaped_last hs hops]
    rw [hafter] at ho ⊢
    have hc : Seq.Clear (completed j rx k s).seq := by
      simp only [completed, hops]
      split
      · exact clear_ready
      · exact clear_afterTransaction (s := { s with lat := loopLatches j.op rx s.lat }) ho (k + 1) j.post j.code
    exact ⟨hc.closed, hc.shaped⟩

/-- An error raised inside a transaction leaves its closing `BusEnd` to perform; on a closed bus it ends the command (R192). -/
theorem raise_framing {f : Framing} (hf : f = .closed ∨ f = .dying) {s : State} (ho : s.busOpen = f.isOpen) (err : ErrKind)
    (k : Nat) : (raise err k s).seq.framing = f ∧ (raise err k s).seq.shaped = true := by
  rcases hf with rfl | rfl
  · have hc := clear_raise ho k err
    exact ⟨hc.closed, hc.shaped⟩
  · rw [raise, if_pos (show s.busOpen = true from ho)]
    exact ⟨rfl, rfl⟩

theorem failedOp_framing {op : Op} {s : State} (ho : s.busOpen = op.afterFail.isOpen) (e : BusError) (k : Nat) :
    (failedOp op e k s).seq.framing = op.afterFail ∧ (failedOp op e k s).seq.shaped = true := by
  cases op with
  | closing err => exact ⟨rfl, rfl⟩
  | begin h | finish => exact raise_framing (.inl rfl) ho _ k
  | header | burstHeader | send v | recv | sendBuf | recvBuf => exact raise_framing (.inr rfl) ho _ k

/-! ### The framing invariant over one step -/

section
variable {s t : State}

/-- A state is framed after one more event that leads to where its sequencer and its bus stand. -/
theorem framed_emitted (hf : s.Framed) {e : Event} (htrace : t.trace = s.trace ++ [e])
    (hstep : frameStep (fun _ => true) s.seq.framing e = some t.seq.framing) (hopen : t.busOpen = t.seq.framing.isOpen)
    (hshaped : t.seq.shaped = true) : t.Framed := by
  obtain ⟨hframing, _⟩ := hf
  refine ⟨?_, hopen, hshaped⟩
  rw [htrace, framing_snoc, hframing]
  exact hstep

/-- A state is framed after an event that leads between transactions. -/
theorem framed_emitted_clear (hf : s.Framed) {e : Event} (htrace : t.trace = s.trace ++ [e])
    (hstep : frameStep (fun _ => true) s.seq.framing e = some .closed) (hopen : t.busOpen = false) (hc : Seq.Clear t.seq) :
    t.Framed :=
  framed_emitted hf htrace (hstep.trans (congrArg some hc.closed.symm)) (hopen.trans (congrArg Framing.isOpen hc.closed).symm)
    hc.shaped

/-- A state is framed with the same trace and bus, between transactions like before. -/
theorem framed_clear (hf : s.Framed) (hs : s.seq.framing = .closed) (htrace : t.trace = s.trace) (hopen : t.busOpen = s.busOpen)
    (hc : Seq.Clear t.seq) : t.Framed := by
  obtain ⟨hframing, hbus, _⟩ := hf
  rw [hs] at hframing hbus
  refine ⟨?_, ?_, hc.shaped⟩
  · rw [htrace, hframing, hc.closed]
  · rw [hopen, hbus, hc.closed]

/-- One micro-operation of a shaped job, completed or failed, leads to where its event does. -/
theorem perform_framed (hf : s.Framed) {k : Nat} {j : Job} (hs : s.seq = .run k (.bus j)) {a : BusAnswer} {rest : List BusAnswer}
    (h : perform a k j { s with bus := rest } = .next t) : t.Framed := by
  have ⟨_, hopen, hshaped⟩ := hf
  rw [hs] at hopen hshaped
  have hreq := hopen.trans j.framing_isOpen
  cases a with
  | done rx =>
    obtain ⟨u, hu, _, htrace, ho, _⟩ := microOp_done_state (op := j.op) (s := { s with bus := rest }) hreq rx
    rw [perform, hu] at h
    cases h
    have honward := onward_completed j rx k u
    obtain ⟨hframing, hshaped'⟩ := completed_framing hshaped ho rx k
    refine framed_emitted hf (honward.trace.trans htrace) ?_ ?_ hshaped'
    · rw [hframing, hs]
      exact frameStep_event_any j s.lat rx
    · rw [hframing, honward.busOpen, ho]
  | fail e =>
    obtain ⟨u, hu, _, htrace, ho⟩ := microOp_fail_state (op := j.op) (s := { s with bus := rest }) hreq e
    rw [perform, hu] at h
    cases h
    have honward := onward_failedOp j.op e k u
    obtain ⟨hframing, hshaped'⟩ := failedOp_framing ho e k
    refine framed_emitted hf (honward.trace.trans htrace) ?_ ?_ hshaped'
    · rw [hframing, hs]
      exact frameStep_fail _ j e
    · rw [hframing, honward.busOpen, ho]

section
variable (hf : s.Framed) (hs : s.seq = .ready)
include hf hs

/-- Going on in READY with a command, or ending it, leaves the block between transactions. -/
theorem framed_onward {k : Nat} (h : Onward k s t) (hc : s.busOpen = false → Seq.Clear t.seq) : t.Framed := by
  have ⟨_, hopen, _⟩ := hf
  rw [hs] at hopen
  exact framed_clear hf (by rw [hs]; rfl) h.trace h.busOpen (hc hopen)

theorem exec_framed {i : Instr} (h : exec i s = .next t) : t.Framed := by
  rcases exec_form i hs with ⟨code, he, _⟩ | ⟨v, he⟩ | ⟨err, he⟩ <;> rw [he] at h <;> cases h
  · exact framed_onward hf hs (onward_launch code 0 s) fun hb => clear_launch hb 0 code
  · exact hf
  · exact framed_onward hf hs (onward_raise err 0 s) fun hb => clear_raise hb 0 err

theorem refuseOffer_framed {e : DecodeError} (h : refuseOffer e s = .next t) : t.Framed := by
  cases e <;> simp only [refuseOffer, refuse, reject_ready hs] at h <;> cases h <;>
    exact framed_onward hf hs (onward_raise _ 0 s) fun hb => clear_raise hb 0 _

/-- A step in READY waits, executes the command offered or refuses the offer (R65, R83). -/
theorem step_ready_framed (hr : s.resetIn = false) (h : step s = .next t) : t.Framed := by
  cases hp : s.port with
  | none =>
    rw [step_ready hr hs hp] at h
    cases h
    exact hf
  | some o =>
    cases hd : decodeOffer s.cfg o with
    | ok i =>
      rw [step_offer_ok hs hr hp hd] at h
      exact exec_framed (s := { s with port := none }) hf hs h
    | error e =>
      rw [step_offer_error hs hr hp hd] at h
      exact refuseOffer_framed (s := { s with port := none }) hf hs h

end

end

/-- Settles O12, by the sequencer phase: a bus micro-operation adds the event that leads to the next one, and everything else
happens between transactions and leads between them. -/
theorem stepKeepsFramed : Obligations.StepKeepsFramed := by
  intro s t hf h
  have ⟨_, hopen, _⟩ := hf
  cases hr : s.resetIn with
  | true =>
    rw [step, if_pos hr] at h
    cases h
    exact framed_emitted_clear hf (blockReset_trace s) (frameStep_reset _ _) rfl clear_ready
  | false =>
    cases hs : s.seq with
    | ready => exact step_ready_framed hf hs hr h
    | run k task =>
      rw [hs] at hopen
      cases task with
      | bus j =>
        cases hb : s.bus with
        | nil =>
          rw [step_bus_silent hr hs hb] at h
          cases h
          exact hf
        | cons a rest =>
          rw [step_bus hr hs hb] at h
          exact perform_framed hf hs h
      | pin code =>
        rw [step_pin hr hs] at h
        cases h
        have honward := onward_afterPin code (k + 1) (samplePin s)
        exact framed_emitted_clear hf honward.trace (by rw [hs]; rfl) (honward.busOpen.trans hopen)
          (clear_afterPin (s := samplePin s) hopen (k + 1) code)
      | wait code =>
        rw [step_wait hr hs] at h
        cases h
        exact framed_emitted_clear hf (issueWait_trace code k s) (by rw [hs]; rfl) hopen ⟨rfl, rfl⟩
    | waiting k code =>
      rw [step_waiting hr hs] at h
      split at h <;> cases h
      · exact hf
      · exact framed_clear hf (by rw [hs]; rfl) rfl rfl (clear_single rfl (k + 1) _ _ code)

/-! ### Checks before any bus activity -/

section
variable {c : Cfg} {acc : Access} {a : Nat}

/-- The three checks of an address, in the order of R90. -/
theorem checkAddr_range (h : 63 < a) : checkAddr c acc a = .error .addressRange := if_pos h

theorem checkAddr_unmapped (h : a ≤ 63) (hc : c.classAt (BitVec.ofNat 6 a) = none) : checkAddr c acc a = .error .unmapped := by
  rw [checkAddr, if_neg (by omega), hc]

theorem checkAddr_class (h : a ≤ 63) {cls : AccessClass} (hc : c.classAt (BitVec.ofNat 6 a) = some cls)
    (hn : cls.admits acc = false) : checkAddr c acc a = .error .accessClass := by
  simp [checkAddr, Nat.not_lt.mpr h, hc, hn]

/-- An instruction that names an address checks it first, and by the class R90 gives its kind of access. -/
theorem exec_addressing {i : Instr} (h : addressing i = some (acc, a)) (s : State) :
    ∃ k, exec i s = checked (checkAddr s.cfg acc a) s k := by
  cases i <;> cases h <;> exact ⟨_, rfl⟩

theorem exec_refused {i : Instr} (h : addressing i = some (acc, a)) {s : State} (hs : s.Poised) {r : Reason}
    (he : checkAddr s.cfg acc a = .error r) : exec i s = .next (s.refused r) := by
  obtain ⟨k, hk⟩ := exec_addressing h s
  rw [hk, he, checked_error, refuse_poised hs]

end

theorem checkByte_range {v : Nat} (h : 255 < v) : checkByte v = .error .byteRange := if_pos h

theorem checkByte_toNat (v : Byte) : checkByte v.toNat = .ok v := by
  rw [checkByte, if_neg (by omega), BitVec.ofNat_toNat, BitVec.setWidth_eq]

theorem checkBytes_range {vs : List Nat} (h : ∃ v ∈ vs, 255 < v) : checkBytes vs = .error .byteRange :=
  if_pos (by simpa using h)

theorem checkBytes_ok {vs : List Nat} (h : ∀ v ∈ vs, v ≤ 255) : checkBytes vs = .ok (vs.map (BitVec.ofNat 8)) :=
  if_neg (by simpa using h)

theorem checkBytes_toNat (vs : List Byte) : checkBytes (vs.map BitVec.toNat) = .ok vs := by
  rw [checkBytes_ok (by intro v hv; obtain ⟨b, _, rfl⟩ := List.mem_map.mp hv; omega), List.map_map]
  simp [Function.comp_def]

theorem checkLength_ok {c : Cfg} {a : Addr} {n : Nat} (h1 : 1 ≤ n) (hn : n ≤ maxBurst c a) : checkLength c a n = .ok () :=
  if_pos ⟨h1, hn⟩

theorem checkLength_error {c : Cfg} {a : Addr} {n : Nat} (h : ¬ (1 ≤ n ∧ n ≤ maxBurst c a)) :
    checkLength c a n = .error .length := if_neg h

/-- The table of R90. -/
theorem admits_iff (cls : AccessClass) : (cls.admits .read = true ↔ cls ≠ .command) ∧
    (cls.admits .write = true ↔ cls = .config ∨ ∃ n, cls = .region n) ∧ (cls.admits .burst = true ↔ ∃ n, cls = .region n) ∧
    (cls.admits .strobe = true ↔ cls = .command) := by
  cases cls <;> simp [AccessClass.admits]

/-- Settles O20: the first check that fails decides, for those before it have passed. -/
theorem refusedBeforeBusActivity : Obligations.RefusedBeforeBusActivity := by
  refine ⟨fun s i acc a hs hi => ⟨fun h => ?_, fun h hc => ?_, fun cls h hc hn => ?_⟩, fun s a v hs ha hv => ?_,
    fun s a vs hs ha => ⟨fun hv => ?_, fun hv hn => ?_⟩, fun s a n hs ha hn => ?_, fun s a vs hs ha hn => ?_, admits_iff⟩
  · exact exec_refused hi hs (checkAddr_range h)
  · exact exec_refused hi hs (checkAddr_unmapped h hc)
  · exact exec_refused hi hs (checkAddr_class h hc hn)
  · rw [exec, execWrreg, checkAddr_allows ha, checked_ok, checkByte_range hv, checked_error, refuse_poised hs]
  · rw [exec, execWrburst, checkAddr_allows ha, checked_ok, checkBytes_range hv, checked_error, refuse_poised hs]
  · rw [exec, execWrburst, checkAddr_allows ha, checked_ok, checkBytes_ok hv, checked_ok,
      checkLength_error (by rwa [List.length_map]), checked_error, refuse_poised hs]
  · have hlength : (checked (checkLength s.cfg a n) s fun _ => accept [.readBurst a n, .ret (.bytes n)] s) =
        .next (s.refused .length) := by
      rw [checkLength_error hn, checked_error, refuse_poised hs]
    constructor
    · rw [exec, execRdburst, checkAddr_allows ha, checked_ok, hlength]
    · rw [exec, execHdrReadBurst, checkAddr_allows ha, checked_ok, hlength]
  · rw [exec, execHdrWriteBurst, checkAddr_allows ha, checked_ok, checkLength_error hn, checked_error, refuse_poised hs]

/-! ### A failed micro-operation -/

/-- A command that ends with an error after one more event, on a bus that is closed then, is aborted (R192). -/
theorem endCommand_aborted (s : State) (q : Seq) (lat : Latches) (rest : List BusAnswer) (e : Event) (err : ErrKind) :
    endCommand (.err err) { s with seq := q, busOpen := false, lat := lat, bus := rest, trace := s.trace ++ [e] } =
      s.aborted rest [e] err := rfl

section
variable {s : State} {k : Nat} {j : Job} {rest : List BusAnswer} (hr : s.resetIn = false) (hs : s.seq = .run k (.bus j))
include hr hs

/-- A failed `BusBegin` ends the command with no `BusEnd` (R192). -/
theorem step_begin_fail (ho : s.busOpen = false) {e : BusError} (hb : s.bus = .fail e :: rest) (hop : j.op.kind = .busBegin) :
    step s = .next (s.aborted rest [.fail .busBegin e] (.transport e)) := by
  obtain ⟨h, hop⟩ : ∃ h, j.op = .begin h := by cases hj : j.op <;> simp_all [Op.kind]
  rw [step_bus hr hs hb]
  simp [perform, hop, microOp, busBegin, ho, failedOp, raise, emit, endCommand_aborted]

section
variable (ho : s.busOpen = true)
include ho

/-- A failed `BusEnd` ends the command with no second one (R192). -/
theorem step_finish_fail {e : BusError} (hb : s.bus = .fail e :: rest) (hop : j.op = .finish) :
    step s = .next (s.aborted rest [.fail .busEnd e] (.transport e)) := by
  rw [step_bus hr hs hb]
  simp [perform, hop, microOp, busEnd, ho, failedOp, raise, emit, endCommand_aborted]

/-- The closing `BusEnd` of an abort ends the command with the error of the abort, whether it completes or fails (R192). -/
theorem step_closing_done {err : ErrKind} {x : Byte} (hb : s.bus = .done x :: rest) (hop : j.op = .closing err) :
    step s = .next (s.aborted rest [.finish] err) := by
  rw [step_bus hr hs hb]
  simp [perform, hop, microOp, busEnd, ho, completed, emit, endCommand_aborted]

theorem step_closing_fail {err : ErrKind} {e : BusError} (hb : s.bus = .fail e :: rest) (hop : j.op = .closing err) :
    step s = .next (s.aborted rest [.fail .busEnd e] err) := by
  rw [step_bus hr hs hb]
  simp [perform, hop, microOp, busEnd, ho, failedOp, emit, endCommand_aborted]

/-- A failed exchange leaves the closing `BusEnd` to perform, with the bus open (R192). -/
theorem step_xfer_fail {e : BusError} (hb : s.bus = .fail e :: rest) (hk : j.op.kind = .busXfer) :
    step s = .next { s with seq := .run k (.bus ⟨.closing (.transport e), [], .proceed, []⟩), bus := rest,
                            trace := s.trace ++ [.fail .busXfer e] } := by
  rw [step_bus hr hs hb, perform, microOp_fail hk (s := { s with bus := rest }) ho]
  simp [failedOp_xfer hk, raise, ho, emit]

end

end

/-- An abort adds its last event to those before it. -/
theorem aborted_aborted (s : State) (q : Seq) (as rest : List BusAnswer) (evs evs' : List Event) (err : ErrKind) :
    State.aborted { s with seq := q, bus := as, trace := s.trace ++ evs } rest evs' err = s.aborted rest (evs ++ evs') err := by
  simp [State.aborted, State.after]

/-- Settles O21: the framing invariant says at which micro-operations the bus is open. -/
theorem failedMicroOperationAborts : Obligations.FailedMicroOperationAborts := by
  intro s k j rest hs hf hr
  have hopen : s.busOpen = decide (j.op.kind ≠ .busBegin) := by
    obtain ⟨_, hopen, _⟩ := hf
    rw [hs] at hopen
    exact hopen.trans j.framing_isOpen
  have hclosing {err : ErrKind} (hop : j.op = .closing err) : s.busOpen = true := by simp [hopen, hop, Op.kind]
  refine ⟨fun e hb => ⟨fun hk => ?_, fun hop => ?_, fun hk => ?_, fun err hop => ?_⟩, fun err x hb hop => ?_⟩
  · exact step_begin_fail hr hs (by simp [hopen, hk]) hb hk
  · exact step_finish_fail hr hs (by simp [hopen, hop, Op.kind]) hb hop
  · have ho : s.busOpen = true := by simp [hopen, hk]
    refine ⟨_, step_xfer_fail hr hs ho hb hk, ho, rfl, fun h => ?_, fun x left h => ?_, fun e2 left h => ?_⟩
    · exact step_bus_silent (by exact hr) (by rfl) (by exact h)
    · rw [step_closing_done (by exact hr) (by rfl) (by exact ho) (by exact h) (by rfl), aborted_aborted]
      rfl
    · rw [step_closing_fail (by exact hr) (by rfl) (by exact ho) (by exact h) (by rfl), aborted_aborted]
      rfl
  · exact step_closing_fail hr hs (hclosing hop) hb hop
  · exact step_closing_done hr hs (hclosing hop) hb hop

/-! ### The register accesses -/

/-- Ending a command, in a state that differs from the one it was accepted in by its transactions (R23). -/
theorem endCommand_after {s : State} (hs : s.seq = .ready) (lat : Latches) (as : List BusAnswer) (evs : List Event)
    (o : CmdOutcome) : endCommand o { s with lat := lat, bus := as, trace := s.trace ++ evs } = s.after as evs o := by
  simp [endCommand, reply, scrub, State.after, hs]

section
variable {s : State} {i : Instr} {a : Addr} {x : Rx2} {rest : List BusAnswer} (hs : s.Poised) (hr : s.resetIn = false)
include hs hr

/-- A single read that delivers the byte received in its second exchange (R91). -/
theorem completes_read (he : exec i s = accept [.read a, .ret .rxb] s) (hb : s.bus = x.answers ++ rest) :
    Completes i s 4 (s.after rest (readEvents a x) (.ok (.byte x.v))) := by
  obtain ⟨hready, hclosed⟩ := hs
  refine completes_of_accept hready he rfl ?_
  exact (runs_startRead x 0 a .proceed [.ret .rxb] hr hclosed hb).trans (congrArg _ (endCommand_after hready _ _ _ _))

/-- A single write (R92). -/
theorem completes_write {v : Byte} (he : exec i s = accept [.write a v] s) (hb : s.bus = x.answers ++ rest) :
    Completes i s 4 (s.after rest (writeEvents a v x) (.ok .unit)) := by
  obtain ⟨hready, hclosed⟩ := hs
  refine completes_of_accept hready he rfl ?_
  exact (runs_startWrite x 0 a v [] hr hclosed hb).trans (congrArg _ (endCommand_after hready _ _ _ _))

/-- A single read, then a single write of `f` of the byte read (R97). -/
theorem completes_modify {f : ModFn} {y : Rx2} (he : exec i s = accept [.read a, .writeBack a f] s)
    (hb : s.bus = x.answers ++ (y.answers ++ rest)) :
    Completes i s 8 (s.after rest (readEvents a x ++ writeEvents a (applyModFn f x.v) y) (.ok .unit)) := by
  obtain ⟨hready, hclosed⟩ := hs
  refine completes_of_accept hready he rfl ?_
  refine runs_trans (m := 4) (n := 4) (runs_startRead x 0 a .proceed [.writeBack a f] hr hclosed hb) ?_
  refine (runs_startWrite y 4 a (applyModFn f x.v) [] (s := s.traded (hdr true false a) x.v (readEvents a x) (y.answers ++ rest))
    hr hclosed rfl).trans (congrArg _ ?_)
  rw [← endCommand_after hready, ← List.append_assoc]
  rfl

/-- One strobe that delivers what `r` makes of the status byte (R95, R96). -/
theorem completes_status {z : Rx1} {r : Ret} {v : Value} (he : exec i s = accept [.strobe a, .ret r] s)
    (hv : ∀ lat : Latches, lat.rxb = z.h → retValue r lat = v) (hb : s.bus = z.answers ++ rest) :
    Completes i s 3 (s.after rest (strobeEvents a z) (.ok v)) := by
  obtain ⟨hready, hclosed⟩ := hs
  refine completes_of_accept hready he rfl ?_
  rw [← hv { s.lat with hdr := hdr false false a, rxb := z.h } rfl]
  exact (runs_startStrobe z 0 a [.ret r] hr hclosed hb).trans (congrArg _ (endCommand_after hready _ _ _ _))

/-- A burst read that delivers the bytes received after the header (R93). -/
theorem completes_readBurst {z : RxN} (he : exec i s = accept [.readBurst a z.vs.length, .ret (.bytes z.vs.length)] s)
    (h1 : 1 ≤ z.vs.length) (h64 : z.vs.length ≤ 64) (hb : s.bus = z.answers ++ rest) :
    Completes i s (z.vs.length + 3) (s.after rest (readBurstEvents a z) (.ok (.bytes z.vs))) := by
  obtain ⟨hready, hclosed⟩ := hs
  obtain ⟨lat, hbuf, hrun⟩ := runs_startReadBurst z 0 a z.vs.length [.ret (.bytes z.vs.length)] hr hclosed rfl h1 h64 hb
  refine completes_of_accept hready he rfl (hrun.trans (congrArg _ ?_))
  rw [launch, retValue, hbuf]
  exact endCommand_after hready _ _ _ _

/-- A burst write (R94). -/
theorem completes_writeBurst {vs : List Byte} {z : RxN} (he : exec i s = accept [.writeBurst a vs] s)
    (hl : z.vs.length = vs.length) (h1 : 1 ≤ vs.length) (h64 : vs.length ≤ 64) (hb : s.bus = z.answers ++ rest) :
    Completes i s (vs.length + 3) (s.after rest (writeBurstEvents a vs z) (.ok .unit)) := by
  obtain ⟨hready, hclosed⟩ := hs
  obtain ⟨lat, hrun⟩ := runs_startWriteBurst z 0 a vs [] hr hclosed hl h1 h64 hb
  exact completes_of_accept hready he rfl (hrun.trans (congrArg _ (endCommand_after hready _ _ _ _)))

end

/-- Settles O22. -/
theorem rdregReads : Obligations.RdregReads := by
  intro s a x rest hs hr ha hb
  have haccept : checked (checkAddr s.cfg .read a.toNat) s (fun a => accept [.read a, .ret .rxb] s) =
      accept [.read a, .ret .rxb] s := by rw [checkAddr_allows ha, checked_ok]
  exact ⟨completes_read hs hr haccept hb, completes_read hs hr haccept hb⟩

/-- Settles O23. -/
theorem wrregWrites : Obligations.WrregWrites := by
  intro s a v x rest hs hr ha hb
  constructor <;> refine completes_write hs hr ?_ hb
  · rw [exec, execWrreg, checkAddr_allows ha, checked_ok, checkByte_toNat, checked_ok]
  · rw [exec, execHdrWriteSingle, checkAddr_allows ha, checked_ok]

/-- The table of a function on bytes presents that function (R97). -/
theorem applyModFn_modFnOf (g : Byte → Byte) (b : Byte) : applyModFn (modFnOf g) b = g b := by
  simp [applyModFn, modFnOf, List.getD_eq_getElem?_getD, List.getElem?_range b.isLt]

/-- Settles O24. -/
theorem modregReadsThenWrites : Obligations.ModregReadsThenWrites := by
  refine ⟨fun s a f x y rest hs hr ha hb => completes_modify hs hr ?_ hb, applyModFn_modFnOf⟩
  rw [exec, execModreg, checkAddr_allows ha, checked_ok]

/-- Settles O25: a valid configuration keeps the burst within BUF (R21). -/
theorem rdburstReads : Obligations.RdburstReads := by
  intro s a x rest hs hr hv ha h1 hn hb
  have h64 := hn.trans (Cfg.maxBurst_le hv a)
  constructor <;> refine completes_readBurst hs hr ?_ h1 h64 hb
  · rw [exec, execRdburst, checkAddr_allows ha, checked_ok, checkLength_ok h1 hn, checked_ok]
  · rw [exec, execHdrReadBurst, checkAddr_allows ha, checked_ok, checkLength_ok h1 hn, checked_ok]

/-- Settles O26. -/
theorem wrburstWrites : Obligations.WrburstWrites := by
  intro s a vs x rest hs hr hv ha h1 hn hl hb
  have h64 := hn.trans (Cfg.maxBurst_le hv a)
  constructor <;> refine completes_writeBurst hs hr ?_ hl h1 h64 hb
  · rw [exec, execWrburst, checkAddr_allows ha, checked_ok, checkBytes_toNat, checked_ok, checkLength_ok h1 hn, checked_ok]
  · rw [exec, execHdrWriteBurst, checkAddr_allows ha, checked_ok, checkLength_ok h1 hn, checked_ok]

/-- Settles O27: both rows are the strobe transaction of their address (R95). -/
theorem strobeReturnsStatus : Obligations.StrobeReturnsStatus :=
  fun _ _ _ _ hs hr hc hb => ⟨completes_strobe rfl hs hr hc hb, completes_strobe rfl hs hr hc hb⟩

/-- The chip is ready exactly where the status byte is below 128 (R80, R96). -/
theorem not_chipNotReady (b : Byte) : (!chipNotReady b) = decide (b.toNat < 128) := by
  revert b
  decide

/-- Settles O29. -/
theorem chiprdyTestsBitSeven : Obligations.ChiprdyTestsBitSeven :=
  fun _ _ _ hs hr hb => completes_status hs hr rfl (fun lat h => by rw [retValue, h, not_chipNotReady]) hb

end Sys2Proof.Machine

namespace Sys2Proof.Machine

/-! ## Bitfields: a byte bit by bit, and the three commands (41_register_bitfields.md) -/

/-! ### The bits of a field read and of a field set -/

theorem field_ok_iff {f : Field} : f.ok = true ↔ 1 ≤ f.w ∧ f.o + f.w ≤ 8 := decide_eq_true_iff

/-- The shift and the mask of R110 as arithmetic. -/
theorem getField_eq (f : Field) (b : Byte) : getField f b = b.toNat / 2 ^ f.o % 2 ^ f.w := by
  rw [getField, Nat.and_two_pow_sub_one_eq_mod, Nat.shiftRight_eq_div_pow]

theorem testBit_getField (f : Field) (b : Byte) (i : Nat) :
    (getField f b).testBit i = (decide (i < f.w) && b.getLsbD (f.o + i)) := by
  rw [getField, Nat.testBit_and, Nat.testBit_two_pow_sub_one, Nat.testBit_shiftRight, BitVec.testBit_toNat, Bool.and_comm]

theorem getLsbD_fieldMask (f : Field) {i : Nat} (hi : i < 8) :
    (fieldMask f).getLsbD i = decide (f.o ≤ i ∧ i < f.o + f.w) := by
  rw [fieldMask, BitVec.getLsbD_ofNat, Nat.testBit_shiftLeft, Nat.testBit_two_pow_sub_one, Bool.eq_iff_iff]
  simp only [hi, decide_true, Bool.true_and, Bool.and_eq_true, decide_eq_true_eq]
  omega

/-- A value that fits a field of `w` bits has none from bit `w` on. -/
theorem testBit_eq_false_of_fits {w v i : Nat} (hv : v < 2 ^ w) (hi : w ≤ i) : v.testBit i = false :=
  Nat.testBit_lt_two_pow (hv.trans_le (Nat.pow_le_pow_right (by decide) hi))

/-- Inside the field a set byte has the bits of the value, outside those it had (R111). -/
theorem getLsbD_setField {f : Field} {v : Nat} (hv : v < 2 ^ f.w) (b : Byte) {i : Nat} (hi : i < 8) :
    (setField f b v).getLsbD i = if f.o ≤ i ∧ i < f.o + f.w then v.testBit (i - f.o) else b.getLsbD i := by
  rw [setField, BitVec.getLsbD_or, BitVec.getLsbD_and, BitVec.getLsbD_not, getLsbD_fieldMask f hi, BitVec.getLsbD_ofNat,
    Nat.testBit_shiftLeft]
  by_cases hin : f.o ≤ i ∧ i < f.o + f.w
  · simp [hin, hi]
  · have hout : (decide (i ≥ f.o) && v.testBit (i - f.o)) = false := by
      by_cases ho : f.o ≤ i
      · rw [testBit_eq_false_of_fits hv (by omega), Bool.and_false]
      · simp [ho]
    simp [hin, hi, hout]

section
variable {f g : Field} {v u : Nat} (hv : v < 2 ^ f.w)
include hv

/-- A field that was set reads back (R112). -/
theorem getField_setField_same (hf : f.ok = true) (b : Byte) : getField f (setField f b v) = v := by
  obtain ⟨_, hfits⟩ := field_ok_iff.mp hf
  refine Nat.eq_of_testBit_eq fun i => ?_
  rw [testBit_getField]
  by_cases hi : i < f.w
  · rw [getLsbD_setField hv b (by omega), if_pos ⟨by omega, by omega⟩, Nat.add_sub_cancel_left]
    simp [hi]
  · rw [testBit_eq_false_of_fits hv (by omega)]
    simp [hi]

section
variable (hd : f.o + f.w ≤ g.o ∨ g.o + g.w ≤ f.o)
include hd

/-- A field that does not overlap the one set reads as before (R112). -/
theorem getField_setField_disjoint (hg : g.ok = true) (b : Byte) : getField g (setField f b v) = getField g b := by
  obtain ⟨_, hfits⟩ := field_ok_iff.mp hg
  refine Nat.eq_of_testBit_eq fun i => ?_
  rw [testBit_getField, testBit_getField]
  by_cases hi : i < g.w
  · rw [getLsbD_setField hv b (by omega), if_neg (by omega)]
  · simp [hi]

/-- Fields that do not overlap are set in either order (R112): no bit is in both. -/
theorem setField_comm (hu : u < 2 ^ g.w) (b : Byte) :
    setField g (setField f b v) u = setField f (setField g b u) v := by
  refine BitVec.eq_of_getLsbD_eq fun i hi => ?_
  rw [getLsbD_setField hu _ hi, getLsbD_setField hv _ hi, getLsbD_setField hv _ hi, getLsbD_setField hu _ hi]
  by_cases hin : f.o ≤ i ∧ i < f.o + f.w
  · rw [if_neg (by omega), if_pos hin, if_pos hin]
  · simp only [if_neg hin]

end

end

/-! ### Sub-fields of a BitfieldValue -/

/-- The place of a sub-field is its entry's, whatever the byte (R29). -/
theorem subField_byte (c : Cfg) (v : BitfieldValue) (b : Byte) (n : FieldName) :
    subField c { v with byte := b } n = subField c v n := rfl

theorem getSubField_of_subField {c : Cfg} {v : BitfieldValue} {n : FieldName} {f : Field} (h : subField c v n = some f) :
    getSubField c v n = some (getField f v.byte) := by
  rw [getSubField, h, Option.map_some]

theorem setSubField_of_subField {c : Cfg} {v : BitfieldValue} {n : FieldName} {f : Field} (h : subField c v n = some f)
    (u : Nat) : setSubField c v n u = some { v with byte := setField f v.byte u } := by
  rw [setSubField, h, Option.map_some]

/-- Settles O32: a named sub-field is its entry's field of the byte, so the facts about fields apply. -/
theorem fieldLocality : Obligations.FieldLocality := by
  refine ⟨fun f b v hf hv => ⟨getField_setField_same hv hf b, fun i hi hout => ?_, fun g u _ hu hd => ?_⟩,
    fun c v n f u hn hf hu => ?_⟩
  · rw [getLsbD_setField hv b hi, if_neg hout]
  · exact setField_comm hv hd hu b
  · refine ⟨_, setSubField_of_subField hn u, rfl, ?_, fun n' g hn' hg hd => ?_⟩
    · rw [getSubField_of_subField ((subField_byte ..).trans hn), getField_setField_same hu hf]
    · rw [getSubField_of_subField ((subField_byte ..).trans hn'), getSubField_of_subField hn',
        getField_setField_disjoint hu hd hg]

/-! ### The checks of the bitfield commands -/

theorem checkField_ok {f : Field} (h : f.ok = true) : checkField f = .ok () := if_pos h

theorem checkField_error {f : Field} (h : f.ok = false) : checkField f = .error .field := if_neg (by simp [h])

theorem checkFieldByte_ok {b : Nat} (h : b ≤ 255) : checkFieldByte b = .ok (BitVec.ofNat 8 b) := if_neg (by omega)

theorem checkFieldByte_error {b : Nat} (h : 255 < b) : checkFieldByte b = .error .field := if_pos h

theorem checkFieldValue_ok {w v : Nat} (h : v < 2 ^ w) : checkFieldValue w v = .ok () := if_neg (by omega)

theorem checkFieldValue_error {w v : Nat} (h : 2 ^ w ≤ v) : checkFieldValue w v = .error .fieldValue := by
  have := Nat.two_pow_pos w
  exact if_pos (by omega)

/-- The two checks GETFIELD and SETFIELD begin with hand on the byte (R110, R111). -/
theorem checked_fieldByte_ok {f : Field} {b : Nat} (hw : 1 ≤ f.w) (ho : f.o + f.w ≤ 8) (hb : b ≤ 255) (s : State)
    (k : Byte → Answer) :
    (checked (checkField f) s fun _ => checked (checkFieldByte b) s k) = k (BitVec.ofNat 8 b) := by
  rw [checkField_ok (field_ok_iff.mpr ⟨hw, ho⟩), checked_ok, checkFieldByte_ok hb, checked_ok]

/-- An ill-formed field and a byte too large are refused with one reason (R110, R111). -/
theorem checked_fieldByte_refused {f : Field} {b : Nat} (h : ¬ (1 ≤ f.w ∧ f.o + f.w ≤ 8 ∧ b ≤ 255)) {s : State}
    (hs : s.Poised) (k : Byte → Answer) :
    (checked (checkField f) s fun _ => checked (checkFieldByte b) s k) = .next (s.refused .field) := by
  cases hf : f.ok with
  | false => rw [checkField_error hf, checked_error, refuse_poised hs]
  | true =>
    obtain ⟨hw, ho⟩ := field_ok_iff.mp hf
    have hb : 255 < b := Nat.lt_of_not_le fun hb => h ⟨hw, ho, hb⟩
    rw [checkField_ok hf, checked_ok, checkFieldByte_error hb, checked_error, refuse_poised hs]

theorem toNat_ofNat_byte {b : Nat} (h : b ≤ 255) : (BitVec.ofNat 8 b).toNat = b := by
  rw [BitVec.toNat_ofNat, Nat.mod_eq_of_lt (by omega)]

/-! ### The commands -/

/-- Settles O30: GETFIELD answers the field read, which `getField_eq` puts as arithmetic. -/
theorem getfieldExtracts : Obligations.GetfieldExtracts := by
  refine fun s f b => ⟨fun hs hw ho hb => ?_, fun hs h => checked_fieldByte_refused h hs _⟩
  rw [exec, execGetfield, checked_fieldByte_ok hw ho hb, answer_ready hs, getField_eq, toNat_ofNat_byte hb]
  rfl

/-- Settles O31: SETFIELD answers the byte set, whose bits `getLsbD_setField` gives. -/
theorem setfieldReplacesField : Obligations.SetfieldReplacesField := by
  refine fun s f b v => ⟨fun hs hw ho hb hv => ⟨setField f (BitVec.ofNat 8 b) v, ?_, fun i hi => ?_⟩,
    fun hs h => checked_fieldByte_refused h hs _, fun hs hw ho hb hv => ?_⟩
  · rw [exec, execSetfield, checked_fieldByte_ok hw ho hb, checkFieldValue_ok hv, checked_ok, answer_ready hs]
    rfl
  · rw [getLsbD_setField hv _ hi, ← BitVec.testBit_toNat, toNat_ofNat_byte hb]
  · rw [exec, execSetfield, checked_fieldByte_ok hw ho hb, checkFieldValue_error hv, checked_error, refuse_poised hs]

/-- Settles O33: MODFIELD is a modify with the table of the function that sets the field (R113). -/
theorem modfieldSetsField : Obligations.ModfieldSetsField := by
  refine fun s a f v hs ha => ⟨fun x y rest hr hf hv hb => ?_, fun hf => ?_, fun hf hv => ?_⟩
  · have hmodify : exec (.modfield a.toNat f v) s = accept [.read a, .writeBack a (modFnOf fun b => setField f b v)] s := by
      rw [exec, execModfield, checkAddr_allows ha, checked_ok, checkField_ok hf, checked_ok, checkFieldValue_ok hv, checked_ok]
    have hcompletes := completes_modify hs hr hmodify hb
    rwa [applyModFn_modFnOf] at hcompletes
  · rw [exec, execModfield, checkAddr_allows ha, checked_ok, checkField_error hf, checked_error, refuse_poised hs]
  · rw [exec, execModfield, checkAddr_allows ha, checked_ok, checkField_ok hf, checked_ok, checkFieldValue_error hv,
      checked_error, refuse_poised hs]

end Sys2Proof.Machine

namespace Sys2Proof.Machine

/-! ## The codec: exact conversions of frequency, mantissa and exponent, RSSI and sync word (42_parameter_codec.md) -/

/-! ### What a codec command answers -/

theorem checkByte_ok {v : Nat} (h : v ≤ 255) : checkByte v = .ok (BitVec.ofNat 8 v) := if_neg (by omega)

theorem answerCodec_ok {s : State} (hs : s.seq = .ready) (v : Value) : answerCodec (.ok v) s = .next (s.answered v) :=
  answer_ready hs v

theorem answerCodec_error {s : State} (hs : s.Poised) (k : ErrKind) :
    answerCodec (.error k) s = .next (s.after s.bus [] (.err k)) :=
  reject_poised hs k

/-- A codec command that answered a value computed it: an error never delivers an `Ok` (R121). -/
theorem ok_of_answerCodec {r : Except ErrKind Value} {s : State} {v : Value}
    (h : answerCodec r s = .next (s.answered v)) : r = .ok v := by
  have hs : s.seq = .ready := by
    by_contra hs
    rw [answerCodec_busy hs] at h
    cases h
  cases r with
  | ok w =>
    rw [answerCodec_ok hs] at h
    simpa [State.answered] using h
  | error k =>
    rw [answerCodec, reject_ready hs, Host.Outcome.next.injEq] at h
    have hout := congrArg State.outcomes h
    unfold raise at hout
    split at hout <;> simp [State.answered] at hout

/-! ### The default format records -/

section
variable {x : Nat} (hx : 1 ≤ x)
include hx

/-- The formulas `B` and `V` that data rate and deviation share, but for two constants, undo each other: `k` is `K + m` (R125). -/
theorem linear_inverse {c : Rat} (hc : c ≠ 0) (k : Rat) (e : Nat) : k * 2 ^ e * x / c * c / (x * 2 ^ e) = k := by
  have : (x : Rat) ≠ 0 := by positivity
  field_simp

/-- The common formula of data rate and deviation grows with the mantissa and with the exponent (R125). -/
theorem linear_grows {c k : Rat} (hc : 0 < c) (hk : 0 < k) (e m : Nat) :
    (k + m) * 2 ^ e * x / c < (k + (m + 1 : Nat)) * 2 ^ e * x / c ∧
    (k + m) * 2 ^ e * x / c < (k + m) * 2 ^ (e + 1) * x / c := by
  have : (0 : Rat) < x := by positivity
  refine ⟨?_, ?_⟩
  · gcongr
    omega
  · gcongr
    · norm_num
    · omega

/-- The default bandwidth falls with the mantissa and with the exponent (R125). -/
theorem fmtValue_bw_falls (e m : Nat) : fmtValue .bwDefault x e (m + 1) < fmtValue .bwDefault x e m ∧
    fmtValue .bwDefault x (e + 1) m < fmtValue .bwDefault x e m := by
  have : (0 : Rat) < x := by positivity
  simp only [fmtValue_bw]
  refine ⟨?_, ?_⟩
  · gcongr
    omega
  · gcongr
    · norm_num
    · omega

theorem biasedMantissa_fmtValue_bw (e m : Nat) : biasedMantissa .bwDefault x e (fmtValue .bwDefault x e m) = 4 + m := by
  have : (x : Rat) ≠ 0 := by positivity
  have : (4 + m : Rat) ≠ 0 := by positivity
  rw [biasedMantissa_bw, fmtValue_bw]
  field_simp

end

/-- Settles O60: two of the records share the formula of `linear_inverse` and `linear_grows`. -/
theorem defaultFormatRecords : Obligations.DefaultFormatRecords := by
  refine fun x hx => ⟨?_, fun e m t => ⟨biasedMantissa_drate x e t, fmtValue_drate x e m, biasedMantissa_dev x e t,
    fmtValue_dev x e m, biasedMantissa_bw x e t, fmtValue_bw x e m⟩, ?_, fmtValue_bw_falls hx⟩
  · simp only [List.forall_mem_cons]
    refine ⟨⟨rfl, fun e m => ?_⟩, ⟨rfl, fun e m => ?_⟩, ⟨rfl, biasedMantissa_fmtValue_bw hx⟩, List.forall_mem_nil _⟩
    · rw [biasedMantissa_drate, fmtValue_drate]
      exact linear_inverse hx (by norm_num) _ e
    · rw [biasedMantissa_dev, fmtValue_dev]
      exact linear_inverse hx (by norm_num) _ e
  · simp only [List.forall_mem_cons, fmtValue_drate, fmtValue_dev]
    exact ⟨linear_grows hx (by norm_num) (by norm_num), linear_grows hx (by norm_num) (by norm_num), List.forall_mem_nil _⟩

/-! ### Bytes put side by side -/

theorem toNat_append_byte {w : Nat} (a : BitVec w) (b : Byte) : (a ++ b).toNat = a.toNat * 256 + b.toNat := by
  rw [BitVec.toNat_append, ← Nat.shiftLeft_add_eq_or_of_lt b.isLt, Nat.shiftLeft_eq]

theorem toNat_frequencyBytes (hi mid lo : Byte) :
    (hi ++ mid ++ lo).toNat = hi.toNat * 65536 + mid.toNat * 256 + lo.toNat := by
  rw [toNat_append_byte, toNat_append_byte]
  omega

theorem splitFreq_append (hi mid lo : Byte) : splitFreq (hi ++ mid ++ lo) = .triple hi mid lo := by
  rw [splitFreq, Value.triple.injEq]
  refine ⟨?_, ?_, ?_⟩
  all_goals
    apply BitVec.eq_of_toNat_eq
    rw [BitVec.extractLsb'_toNat, toNat_frequencyBytes, Nat.shiftRight_eq_div_pow]
    omega

theorem splitSync_append (hi lo : Byte) : splitSync (hi ++ lo) = .pair hi lo := by
  rw [splitSync, Value.pair.injEq]
  refine ⟨?_, ?_⟩
  all_goals
    apply BitVec.eq_of_toNat_eq
    rw [BitVec.extractLsb'_toNat, toNat_append_byte, Nat.shiftRight_eq_div_pow]
    omega

theorem exists_frequencyBytes {n : Nat} (h : n < 2 ^ 24) : ∃ hi mid lo : Byte, (hi ++ mid ++ lo).toNat = n := by
  refine ⟨BitVec.ofNat 8 (n / 65536), BitVec.ofNat 8 (n / 256), BitVec.ofNat 8 n, ?_⟩
  simp only [toNat_frequencyBytes, BitVec.toNat_ofNat]
  omega

/-! ### Frequency -/

theorem freqDec_eq (x : Nat) (hi mid lo : Byte) :
    freqDec x hi mid lo = (hi.toNat * 65536 + mid.toNat * 256 + lo.toNat) * x / 65536 := by
  rw [freqDec, toNat_frequencyBytes]
  push_cast
  rfl

/-- A frequency word of three bytes is split into them (R123). -/
theorem freqEnc_of_word {x : Nat} {hz : Quantity} {hi mid lo : Byte} (h : freqWord x hz.val = (hi ++ mid ++ lo).toNat) :
    freqEnc x hz = .ok (.triple hi mid lo) := by
  rw [freqEnc, h, if_neg (by omega), Int.toNat_natCast, BitVec.ofNat_toNat, BitVec.setWidth_eq, splitFreq_append]

theorem freqEnc_above {x : Nat} {hz : Quantity} (h : 0xFFFFFF < freqWord x hz.val) :
    freqEnc x hz = .error (.outOfRange .above) := if_pos h

theorem freqWord_nonneg (x : Nat) (hz : Quantity) : 0 ≤ freqWord x hz.val := by
  have : 0 ≤ hz.val * 65536 / x := div_nonneg (mul_nonneg hz.nonneg (by norm_num)) x.cast_nonneg
  exact le_roundHalfUp.mpr (by push_cast; linarith)

/-- A frequency word within 24 bits is three bytes (R123). -/
theorem freqWord_bytes {x : Nat} {hz : Quantity} (h : freqWord x hz.val ≤ 0xFFFFFF) :
    ∃ hi mid lo : Byte, freqWord x hz.val = (hi ++ mid ++ lo).toNat := by
  obtain ⟨n, hn⟩ := Int.eq_ofNat_of_zero_le (freqWord_nonneg x hz)
  obtain ⟨hi, mid, lo, hbytes⟩ := exists_frequencyBytes (n := n) (by omega)
  exact ⟨hi, mid, lo, by rw [hn, hbytes]⟩

/-- The bytes a frequency was encoded to are those of its word (R123). -/
theorem freqEnc_ok {x : Nat} {hz : Quantity} {hi mid lo : Byte} (h : freqEnc x hz = .ok (.triple hi mid lo)) :
    freqWord x hz.val = (hi ++ mid ++ lo).toNat := by
  rcases lt_or_ge 0xFFFFFF (freqWord x hz.val) with habove | hfits
  · rw [freqEnc_above habove] at h
    cases h
  · obtain ⟨hi', mid', lo', hword⟩ := freqWord_bytes hfits
    rw [freqEnc_of_word hword] at h
    cases h
    exact hword

/-- The bound of R123: from it on the frequency word needs a 25th bit. -/
theorem freqWord_above_iff {x : Nat} (hx : 1 ≤ x) {hz : Rat} :
    0xFFFFFF < freqWord x hz ↔ (2 ^ 24 - 1 / 2) * x / 65536 ≤ hz := by
  have hpos : (0 : Rat) < x := by positivity
  rw [← Int.add_one_le_iff, freqWord, le_roundHalfUp, le_div_iff₀ hpos, div_le_iff₀ (by norm_num)]
  norm_num

/-- Settles O34. -/
theorem freqencSplitsWord : Obligations.FreqencSplitsWord := by
  refine fun s hz hv => ⟨fun hi mid lo hs hword => ?_, fun hs habove => ?_, fun hbelow => ?_⟩
  · rw [exec, execFreqenc, freqEnc_of_word, answerCodec_ok hs]
    rw [toNat_frequencyBytes]
    exact_mod_cast hword
  · rw [exec, execFreqenc, freqEnc_above ((freqWord_above_iff (Cfg.valid_xtal hv)).mpr habove), answerCodec_error hs]
  · have hfits := not_lt.mp (mt (freqWord_above_iff (Cfg.valid_xtal hv)).mp (not_le.mpr hbelow))
    obtain ⟨hi, mid, lo, hword⟩ := freqWord_bytes hfits
    rw [toNat_frequencyBytes] at hword
    exact ⟨hi, mid, lo, by exact_mod_cast hword⟩

/-- The word of a decoded value is the word decoded (R124). -/
theorem freqWord_freqDec {x : Nat} (hx : 1 ≤ x) (hi mid lo : Byte) :
    freqWord x (freqDec x hi mid lo) = (hi ++ mid ++ lo).toNat := by
  have : (x : Rat) ≠ 0 := by positivity
  have hword : freqDec x hi mid lo * 65536 / x = ((hi ++ mid ++ lo).toNat : Rat) := by
    rw [freqDec]
    field_simp
  rw [freqWord, hword, roundHalfUp_natCast]

/-- Rounding moves a frequency by half a step at most (R124). -/
theorem freqDec_near {x : Nat} (hx : 1 ≤ x) {hz : Rat} {hi mid lo : Byte} (h : freqWord x hz = (hi ++ mid ++ lo).toNat) :
    |freqDec x hi mid lo - hz| ≤ x / 131072 := by
  have hpos : (0 : Rat) < x := by positivity
  have hlow := le_roundHalfUp.mp h.ge
  have hhigh := roundHalfUp_lt.mp (Int.lt_add_one_of_le h.le)
  rw [le_div_iff₀ hpos] at hlow
  rw [div_lt_iff₀ hpos] at hhigh
  push_cast at hlow hhigh
  rw [freqDec, abs_le]
  constructor <;> linarith

/-- Settles O35. -/
theorem freqdecInverts : Obligations.FreqdecInverts := by
  refine fun s hi mid lo => ⟨fun hs hhi hmid hlo => ?_, fun hs h => ?_, fun hv hz h m l => ⟨fun hs hval => ?_, fun hex => ?_⟩⟩
  · rw [exec, execFreqdec, checkByte_ok hhi, checked_ok, checkByte_ok hmid, checked_ok, checkByte_ok hlo, checked_ok,
      answer_ready hs, freqDec_eq, toNat_ofNat_byte hhi, toNat_ofNat_byte hmid, toNat_ofNat_byte hlo]
    rfl
  · rw [exec, execFreqdec, ← refuse_poised hs]
    rcases Nat.lt_or_ge 255 hi with hhi | hhi
    · rw [checkByte_range hhi, checked_error]
    rw [checkByte_ok hhi, checked_ok]
    rcases Nat.lt_or_ge 255 mid with hmid | hmid
    · rw [checkByte_range hmid, checked_error]
    rw [checkByte_ok hmid, checked_ok, checkByte_range (by omega), checked_error]
  · rw [exec, execFreqenc, freqEnc_of_word, answerCodec_ok hs]
    rw [hval, freqWord_freqDec (Cfg.valid_xtal hv)]
  · exact freqDec_near (Cfg.valid_xtal hv) (freqEnc_ok (ok_of_answerCodec hex))

/-! ### The search over a record -/

section
variable {s : State} {q : Quantity} {i : Instr} {f : Fmt} {d : Trend}

/-- A command that answers what the search finds follows the search rule, whatever the record (R126). -/
theorem encodes_of_meEnc (hs : s.Poised) (hi : exec i s = answerCodec (meEnc f d s.cfg.xtalHz q) s) :
    Encodes f d s.cfg.xtalHz q.val (fun v => exec i s = .next (s.answered v))
      (fun side => exec i s = .next (s.after s.bus [] (.err (.outOfRange side)))) := by
  refine ⟨fun e m he hskip hfits hm => ?_, fun e he hskip hlow => ?_, fun hhigh => ?_, search_cases f _ q.val⟩
  · rw [hi, meEnc_fits he hm hfits hskip, answerCodec_ok hs.1]
  · rw [hi, meEnc_low he hlow hskip, answerCodec_error hs]
  · rw [hi, meEnc_high hhigh, answerCodec_error hs]

/-- A bandwidth other than 0 is searched for like the other quantities (R131). -/
theorem exec_bwenc (hq : q.val ≠ 0) (s : State) :
    exec (.bwenc q) s = answerCodec (meEnc s.cfg.bwFmt .falls s.cfg.xtalHz q) s := by
  rw [exec, execBwenc, bwEnc, if_neg hq]

/-- A bandwidth of 0 is below the range (R131). -/
theorem exec_bwenc_zero (hs : s.Poised) (hq : q.val = 0) :
    exec (.bwenc q) s = .next (s.after s.bus [] (.err (.outOfRange .below))) := by
  rw [exec, execBwenc, bwEnc, if_pos hq, answerCodec_error hs]

/-- A bandwidth that an encoder accepted is not 0. -/
theorem bwenc_accepts_ne_zero {v : Value} (h : exec (.bwenc q) s = .next (s.answered v)) : q.val ≠ 0 := by
  intro hq
  have hok := ok_of_answerCodec (r := bwEnc s.cfg.bwFmt s.cfg.xtalHz q) h
  rw [bwEnc, if_pos hq] at hok
  cases hok

end

/-! ### The search over a record whose formulas are as the spec says -/

theorem Trend.target_of_pos {t : Rat} (h : 0 < t) : (d : Trend) → d.target t
  | .grows => h.le
  | .falls => h

section
variable {f : Fmt} {d : Trend} {x : Nat} (hf : LawfulFmt f d x) (hK : f.bias = 2 ^ f.mbits)

include hK in
/-- Where `K = 2^mbits`, a mantissa is too large from a biased mantissa of `2K - 1/2` on (R125, R126). -/
theorem tooLarge_iff {e : Nat} {t : Rat} :
    (f.bias + 2 ^ f.mbits : Int) ≤ rounded f x e t ↔ 2 * (f.bias : Rat) - 1 / 2 ≤ biasedMantissa f x e t := by
  rw [rounded, le_roundHalfUp, hK]
  push_cast
  rw [two_mul]

/-- A mantissa is negative below a biased mantissa of `K - 1/2` (R126). -/
theorem negative_iff {e : Nat} {t : Rat} :
    rounded f x e t < (f.bias : Int) ↔ biasedMantissa f x e t < (f.bias : Rat) - 1 / 2 := by
  rw [rounded, roundHalfUp_lt, Int.cast_natCast]

section
include hf

/-- The biased mantissa doubles with each exponent down (R126). -/
theorem biasedMantissa_eq_pow_mul {t : Rat} (ht : d.target t) (e k : Nat) (h : e + k < 2 ^ f.ebits) :
    biasedMantissa f x e t = 2 ^ k * biasedMantissa f x (e + k) t := by
  induction k with
  | zero => simp
  | succ k ih =>
    rw [ih (by omega), ← Nat.add_assoc, hf.halves (e + k) t h ht]
    ring

/-- At a lower exponent the biased mantissa is at least twice as large (R126). -/
theorem two_mul_biasedMantissa_le {t : Rat} (ht : d.target t) {e e' : Nat} (hlt : e' < e) (he : e < 2 ^ f.ebits)
    (h0 : 0 ≤ biasedMantissa f x e t) : 2 * biasedMantissa f x e t ≤ biasedMantissa f x e' t := by
  obtain ⟨k, rfl⟩ := Nat.exists_eq_add_of_lt hlt
  rw [biasedMantissa_eq_pow_mul hf ht e' (k + 1) he, pow_succ']
  have : (1 : Rat) ≤ 2 ^ k := one_le_pow₀ (by norm_num)
  exact mul_le_mul_of_nonneg_right (by linarith) h0

include hK

/-- A negative mantissa arises only at exponent 0: above it, half of what was too large is not below `K - 1/2` (R126). -/
theorem exponent_eq_zero_of_negative {t : Rat} (ht : d.target t) {e : Nat} (he : e < 2 ^ f.ebits)
    (hskip : ∀ e' < e, (f.bias + 2 ^ f.mbits : Int) ≤ rounded f x e' t) (hlow : rounded f x e t < f.bias) : e = 0 := by
  cases e with
  | zero => rfl
  | succ e =>
    have hlarge := (tooLarge_iff hK).mp (hskip e (Nat.lt_succ_self e))
    rw [negative_iff, hf.halves e t he ht] at hlow
    linarith

/-- What is too large at the last exponent is too large at all (R126). -/
theorem tooLarge_of_last {t : Rat} (ht : d.target t)
    (hlast : (f.bias + 2 ^ f.mbits : Int) ≤ rounded f x (2 ^ f.ebits - 1) t) {e : Nat} (he : e < 2 ^ f.ebits) :
    (f.bias + 2 ^ f.mbits : Int) ≤ rounded f x e t := by
  rcases Nat.lt_or_eq_of_le (Nat.le_sub_one_of_lt he) with hlt | rfl
  · have hpos : (1 : Rat) ≤ f.bias := by exact_mod_cast hK ▸ Nat.one_le_two_pow
    rw [tooLarge_iff hK] at hlast ⊢
    have := two_mul_biasedMantissa_le hf ht hlt (by omega) (by linarith)
    linarith
  · exact hlast

/-- The value a pair stands for is encoded to the pair: at lower exponents its mantissa is too large (R133 b). -/
theorem meEnc_fmtValue {q : Quantity} {e m : Nat} (he : e < 2 ^ f.ebits) (hm : m < 2 ^ f.mbits)
    (hq : q.val = fmtValue f x e m) : meEnc f d x q = .ok (.expMant e m) := by
  have hB : biasedMantissa f x e q.val = f.bias + m := by rw [hq, hf.inverse e m he hm]
  have ht : d.target q.val := Trend.target_of_pos (by rw [hq]; exact hf.positive e m he hm) d
  refine meEnc_fits he hm ?_ fun e' hlt => ?_
  · rw [rounded, hB]
    exact_mod_cast roundHalfUp_natCast (f.bias + m)
  · have hdouble := two_mul_biasedMantissa_le hf ht hlt he (by rw [hB]; positivity)
    have hm0 : (0 : Rat) ≤ m := m.cast_nonneg
    rw [hB] at hdouble
    rw [tooLarge_iff hK]
    linarith

end

/-! ### The order of pairs and of their values -/

/-- The biased mantissa of a pair, brought to exponent 0. -/
def mantissaUnits (f : Fmt) (e m : Nat) : Nat := 2 ^ e * (f.bias + m)

include hf in
theorem biasedMantissa_zero_fmtValue {e m : Nat} (he : e < 2 ^ f.ebits) (hm : m < 2 ^ f.mbits) :
    biasedMantissa f x 0 (fmtValue f x e m) = mantissaUnits f e m := by
  have ht := Trend.target_of_pos (hf.positive e m he hm) d
  rw [biasedMantissa_eq_pow_mul hf ht 0 e (by omega), Nat.zero_add, hf.inverse e m he hm, mantissaUnits]
  push_cast
  rfl

include hf in
/-- A pair with more units stands for a larger value where the quantity grows, and for a smaller one where it falls (R126). -/
theorem fmtValue_of_mantissaUnits_lt {e m e' m' : Nat} (he : e < 2 ^ f.ebits) (hm : m < 2 ^ f.mbits) (he' : e' < 2 ^ f.ebits)
    (hm' : m' < 2 ^ f.mbits) (hlt : mantissaUnits f e m < mantissaUnits f e' m') : match d with
    | .grows => fmtValue f x e m < fmtValue f x e' m'
    | .falls => fmtValue f x e' m' < fmtValue f x e m := by
  have hpos := hf.positive e m he hm
  have hpos' := hf.positive e' m' he' hm'
  have hB : biasedMantissa f x 0 (fmtValue f x e m) < biasedMantissa f x 0 (fmtValue f x e' m') := by
    rw [biasedMantissa_zero_fmtValue hf he hm, biasedMantissa_zero_fmtValue hf he' hm']
    exact_mod_cast hlt
  cases d with
  | grows => exact not_le.mp fun hle => hB.not_ge (hf.trend 0 _ _ (by omega) hpos'.le hle)
  | falls => exact not_le.mp fun hle => hB.not_ge (hf.trend 0 _ _ (by omega) hpos hle)

section
include hK

/-- A pair with a larger exponent has more units, whatever the mantissas: `K + m` is below `2K` (R125). -/
theorem mantissaUnits_lt_of_exponent_lt {e m e' : Nat} (m' : Nat) (hm : m < 2 ^ f.mbits) (hlt : e < e') :
    mantissaUnits f e m < mantissaUnits f e' m' :=
  calc 2 ^ e * (f.bias + m)
    _ < 2 ^ e * (2 * f.bias) := by gcongr; omega
    _ = 2 ^ (e + 1) * f.bias := by ring
    _ ≤ 2 ^ e' * (f.bias + m') := by gcongr <;> omega

variable {t u : Quantity} {e m e' m' : Nat}

/-- Of two accepted targets the one with the smaller biased mantissas is encoded to the same pair or to one with fewer units
(R126). -/
theorem mantissaUnits_of_accepted (hmono : ∀ e < 2 ^ f.ebits, biasedMantissa f x e t.val ≤ biasedMantissa f x e u.val)
    (ht : meEnc f d x t = .ok (.expMant e m)) (hu : meEnc f d x u = .ok (.expMant e' m')) :
    (e = e' ∧ m = m') ∨ mantissaUnits f e m < mantissaUnits f e' m' := by
  obtain ⟨he, hm, hfits, hskip⟩ := meEnc_ok ht
  obtain ⟨he', hm', hfits', hskip'⟩ := meEnc_ok hu
  rcases Nat.lt_trichotomy e e' with hlt | rfl | hgt
  · exact .inr (mantissaUnits_lt_of_exponent_lt hK m' hm hlt)
  · have hround : rounded f x e t.val ≤ rounded f x e u.val := roundHalfUp_mono (hmono e he)
    rcases Nat.lt_or_eq_of_le (show m ≤ m' by omega) with hlt | rfl
    · exact .inr (Nat.mul_lt_mul_of_pos_left (by omega) (Nat.two_pow_pos e))
    · exact .inl ⟨rfl, rfl⟩
  · have hround : rounded f x e' t.val ≤ rounded f x e' u.val := roundHalfUp_mono (hmono e' he')
    have hlarge := hskip e' hgt
    have : (m' : Int) < 2 ^ f.mbits := by exact_mod_cast hm'
    omega

include hf

/-- The value of an accepted target's pair does not fall as the target grows (R133 c). -/
theorem fmtValue_mono_of_accepted (htarget : d.target t.val) (hle : t.val ≤ u.val)
    (ht : meEnc f d x t = .ok (.expMant e m)) (hu : meEnc f d x u = .ok (.expMant e' m')) :
    fmtValue f x e m ≤ fmtValue f x e' m' := by
  obtain ⟨he, hm, -, -⟩ := meEnc_ok ht
  obtain ⟨he', hm', -, -⟩ := meEnc_ok hu
  cases d with
  | grows =>
    rcases mantissaUnits_of_accepted hK (fun k hk => hf.trend k _ _ hk htarget hle) ht hu with ⟨rfl, rfl⟩ | hlt
    · exact le_rfl
    · exact (fmtValue_of_mantissaUnits_lt hf he hm he' hm' hlt).le
  | falls =>
    rcases mantissaUnits_of_accepted hK (fun k hk => hf.trend k _ _ hk htarget hle) hu ht with ⟨rfl, rfl⟩ | hlt
    · exact le_rfl
    · exact (fmtValue_of_mantissaUnits_lt hf he' hm' he hm hlt).le

end

end

/-- Settles O36. -/
theorem encodersTakeSmallestExponent : Obligations.EncodersTakeSmallestExponent := by
  refine fun s q hs => ⟨encodes_of_meEnc hs rfl, encodes_of_meEnc hs rfl,
    fun hq => encodes_of_meEnc hs (exec_bwenc hq s), exec_bwenc_zero hs, fun hv hf => ?_⟩
  obtain ⟨hdrate, hbw, hdev⟩ := Cfg.valid_fmts hv
  simp only [List.forall_mem_cons]
  exact ⟨fun ht _ => exponent_eq_zero_of_negative hf.drate hdrate ht, fun ht _ => exponent_eq_zero_of_negative hf.dev hdev ht,
    fun ht _ => exponent_eq_zero_of_negative hf.bw hbw ht, List.forall_mem_nil _⟩

/-- Settles O39. -/
theorem encodeAfterDecode : Obligations.EncodeAfterDecode := by
  intro s q e m hs hv hf
  obtain ⟨hdrate, hbw, hdev⟩ := Cfg.valid_fmts hv
  refine ⟨fun he hm hq => ?_, fun he hm hq => ?_, fun he hm hq => ?_⟩
  · rw [exec, execDrateenc, meEnc_fmtValue hf.drate hdrate he hm hq, answerCodec_ok hs]
  · rw [exec, execDevenc, meEnc_fmtValue hf.dev hdev he hm hq, answerCodec_ok hs]
  · have hpos := hf.bw.positive e m he hm
    rw [exec_bwenc (by rw [hq]; exact hpos.ne'), meEnc_fmtValue hf.bw hbw he hm hq, answerCodec_ok hs]

/-- Settles O40. -/
theorem decodedValueIsMonotone : Obligations.DecodedValueIsMonotone := by
  intro s q r e m e' m' _ hv hf hle
  obtain ⟨hdrate, hbw, hdev⟩ := Cfg.valid_fmts hv
  refine ⟨fun hq hr => ?_, fun hq hr => ?_, fun hq hr => ?_⟩
  · exact fmtValue_mono_of_accepted hf.drate hdrate q.nonneg hle (ok_of_answerCodec hq) (ok_of_answerCodec hr)
  · exact fmtValue_mono_of_accepted hf.dev hdev q.nonneg hle (ok_of_answerCodec hq) (ok_of_answerCodec hr)
  · have hqne := bwenc_accepts_ne_zero hq
    rw [exec_bwenc hqne] at hq
    rw [exec_bwenc (bwenc_accepts_ne_zero hr)] at hr
    exact fmtValue_mono_of_accepted hf.bw hbw (lt_of_le_of_ne q.nonneg hqne.symm) hle (ok_of_answerCodec hq)
      (ok_of_answerCodec hr)

/-! ### The ranges of the encoders under the default records -/

section
variable {s : State} {q : Quantity} {i : Instr} {f : Fmt} {d : Trend}

/-- An encoder is out of range on the low side below `K - 1/2` at the first exponent, on the high side from `2K - 1/2` on at the
last, and accepts what lies between (R126). -/
theorem encoder_range (hi : exec i s = answerCodec (meEnc f d s.cfg.xtalHz q) s) (hs : s.Poised)
    (hf : LawfulFmt f d s.cfg.xtalHz) (hK : f.bias = 2 ^ f.mbits) (ht : d.target q.val) {eMax mMax : Nat}
    (he : 2 ^ f.ebits = eMax + 1) (hm : 2 ^ f.mbits = mMax + 1) {low high : Prop}
    (hlow : biasedMantissa f s.cfg.xtalHz 0 q.val < f.bias - 1 / 2 ↔ low)
    (hhigh : 2 * f.bias - 1 / 2 ≤ biasedMantissa f s.cfg.xtalHz eMax q.val ↔ high) :
    (low → exec i s = .next (s.after s.bus [] (.err (.outOfRange (sideLow d))))) ∧
    (high → exec i s = .next (s.after s.bus [] (.err (.outOfRange (sideHigh d))))) ∧
    (¬ low → ¬ high → ∃ e m, e ≤ eMax ∧ m ≤ mMax ∧ exec i s = .next (s.answered (.expMant e m))) := by
  rw [← negative_iff] at hlow
  rw [← tooLarge_iff hK] at hhigh
  refine ⟨fun h => ?_, fun h => ?_, fun hnlow hnhigh => ?_⟩
  · rw [hi, meEnc_low (Nat.two_pow_pos _) (hlow.mpr h) fun _ h => absurd h (Nat.not_lt_zero _), answerCodec_error hs]
  · have hlast := hhigh.mpr h
    rw [show eMax = 2 ^ f.ebits - 1 by omega] at hlast
    rw [hi, meEnc_high fun e he => tooLarge_of_last hf hK ht hlast he, answerCodec_error hs]
  · rcases search_cases f s.cfg.xtalHz q.val with ⟨e, m, he, hskip, hfits, hm⟩ | ⟨e, he, hskip, hneg⟩ | hall
    · exact ⟨e, m, by omega, by omega, by rw [hi, meEnc_fits he hm hfits hskip, answerCodec_ok hs.1]⟩
    · obtain rfl := exponent_eq_zero_of_negative hf hK ht he hskip hneg
      exact absurd (hlow.mp hneg) hnlow
    · exact absurd (hhigh.mp (hall eMax (by omega))) hnhigh

end

/-- The upper bound of the default bandwidth (R131). -/
theorem biasedMantissa_bw_lt_iff {x : Nat} {t : Rat} (ht : 0 < t) :
    biasedMantissa .bwDefault x 0 t < (Fmt.bwDefault.bias : Rat) - 1 / 2 ↔ (x : Rat) / 28 < t := by
  rw [biasedMantissa_bw, show ((Fmt.bwDefault.bias : Nat) : Rat) = 4 from rfl, div_lt_iff₀ (by positivity), div_lt_iff₀ (by norm_num)]
  constructor <;> intro h <;> linarith

/-- The lower bound of the default bandwidth (R131). -/
theorem le_biasedMantissa_bw_iff {x : Nat} {t : Rat} (ht : 0 < t) :
    2 * (Fmt.bwDefault.bias : Rat) - 1 / 2 ≤ biasedMantissa .bwDefault x 3 t ↔ t ≤ (x : Rat) / 480 := by
  rw [biasedMantissa_bw, show ((Fmt.bwDefault.bias : Nat) : Rat) = 4 from rfl, le_div_iff₀ (by positivity), le_div_iff₀ (by norm_num)]
  constructor <;> intro h <;> linarith

/-- Settles O37: the bounds are those of `encoder_range` with the formulas of R125. -/
theorem encoderRanges : Obligations.EncoderRanges := by
  intro s q hs hv
  have hx := Cfg.valid_xtal hv
  refine ⟨fun hd => ?_, fun hd => ?_, fun hd => ?_⟩
  · obtain ⟨hbelow, habove, hwithin⟩ := encoder_range (i := .drateenc q) (by rw [exec, execDrateenc, hd]) hs
      (drateDefault_lawful hx) rfl q.nonneg (eMax := 15) (mMax := 255) rfl rfl
      (low := q.val * 2 ^ 28 / s.cfg.xtalHz < 255 + 1 / 2) (high := 511 + 1 / 2 ≤ q.val * 2 ^ 28 / (s.cfg.xtalHz * 2 ^ 15))
      (by rw [biasedMantissa_drate]; norm_num [Fmt.drateDefault]) (by rw [biasedMantissa_drate]; norm_num [Fmt.drateDefault])
    exact ⟨hbelow, habove, fun h1 h2 => hwithin (not_lt.mpr h1) (not_le.mpr h2)⟩
  · obtain ⟨hbelow, habove, hwithin⟩ := encoder_range (i := .devenc q) (by rw [exec, execDevenc, hd]) hs
      (devDefault_lawful hx) rfl q.nonneg (eMax := 7) (mMax := 7) rfl rfl
      (low := q.val * 2 ^ 17 / s.cfg.xtalHz < 7 + 1 / 2) (high := 15 + 1 / 2 ≤ q.val * 2 ^ 17 / (s.cfg.xtalHz * 2 ^ 7))
      (by rw [biasedMantissa_dev]; norm_num [Fmt.devDefault]) (by rw [biasedMantissa_dev]; norm_num [Fmt.devDefault])
    exact ⟨hbelow, habove, fun h1 h2 => hwithin (not_lt.mpr h1) (not_le.mpr h2)⟩
  · have hxrat : (0 : Rat) ≤ s.cfg.xtalHz := s.cfg.xtalHz.cast_nonneg
    rcases q.nonneg.eq_or_lt with hq | hq
    · refine ⟨fun h => ?_, fun _ => exec_bwenc_zero hs hq.symm, fun h => ?_⟩
      all_goals linarith
    · obtain ⟨habove, hbelow, hwithin⟩ := encoder_range (by rw [exec_bwenc hq.ne', hd]) hs (bwDefault_lawful hx) rfl hq
        (eMax := 3) (mMax := 3) rfl rfl (biasedMantissa_bw_lt_iff hq) (le_biasedMantissa_bw_iff hq)
      exact ⟨habove, hbelow, fun h1 h2 => hwithin (not_lt.mpr h2) (not_le.mpr h1)⟩

/-! ### The mantissa and exponent decoders -/

section
variable {f : Fmt} {e m : Nat} {s : State}

/-- A decoder answers the value of the pair (R128, R130, R132). -/
theorem meDec_value (hs : s.seq = .ready) (he : e < 2 ^ f.ebits) (hm : m < 2 ^ f.mbits) :
    meDec f e m s = .next (s.answered (.rational (fmtValue f s.cfg.xtalHz e m))) := by
  rw [meDec, checkExpMant, if_pos ⟨Nat.le_sub_one_of_lt he, Nat.le_sub_one_of_lt hm⟩, checked_ok, answer_ready hs]
  rfl

/-- An operand outside its field is refused (R121). -/
theorem meDec_refused (hs : s.Poised) (h : 2 ^ f.ebits ≤ e ∨ 2 ^ f.mbits ≤ m) :
    meDec f e m s = .next (s.refused .fieldValue) := by
  have he := Nat.two_pow_pos f.ebits
  have hm := Nat.two_pow_pos f.mbits
  rw [meDec, checkExpMant, if_neg (by omega), checked_error, refuse_poised hs]

/-- The two cases of a decoder by the greatest operands of its fields. -/
theorem meDec_bounds {eMax mMax : Nat} (heMax : 2 ^ f.ebits = eMax + 1) (hmMax : 2 ^ f.mbits = mMax + 1) :
    (s.seq = .ready → e ≤ eMax → m ≤ mMax →
      meDec f e m s = .next (s.answered (.rational (fmtValue f s.cfg.xtalHz e m)))) ∧
    (s.Poised → eMax < e ∨ mMax < m → meDec f e m s = .next (s.refused .fieldValue)) :=
  ⟨fun hs he hm => meDec_value hs (by omega) (by omega), fun hs h => meDec_refused hs (by omega)⟩

end

/-- Settles O38. -/
theorem decodersAreExact : Obligations.DecodersAreExact := by
  refine fun s e m => ⟨fun hs => ⟨meDec_value hs, meDec_value hs, meDec_value hs⟩,
    fun hs => ⟨meDec_refused hs, meDec_refused hs, meDec_refused hs⟩, fun hd => ?_, fun hd => ?_, fun hd => ?_⟩
  · rw [exec, execDratedec, hd, ← fmtValue_drate]
    exact meDec_bounds rfl rfl
  · rw [exec, execDevdec, hd, ← fmtValue_dev]
    exact meDec_bounds rfl rfl
  · rw [exec, execBwdec, hd, ← fmtValue_bw]
    exact meDec_bounds rfl rfl

/-! ### RSSI -/

/-- The signed reading rises by 1 from each raw byte to the next, around from 255 to 0 too, and falls by 255 from 127 to 128
(R136). -/
theorem signed8_add_one (b : Byte) : signed8 (b + 1) = if b.toNat = 127 then signed8 b - 255 else signed8 b + 1 := by
  have hnext : (b + 1).toNat = (b.toNat + 1) % 256 := BitVec.toNat_add b 1
  have := b.isLt
  simp only [signed8, hnext]
  split_ifs <;> omega

theorem exec_rssidec {s : State} (hs : s.seq = .ready) {raw : Nat} (h : raw ≤ 255) :
    exec (.rssidec raw) s = .next (s.answered (.rational (rssiDec s.cfg.rssiOffsetDb (BitVec.ofNat 8 raw)))) := by
  rw [exec, execRssidec, checkByte_ok h, checked_ok, answer_ready hs]
  rfl

/-- Settles O41. -/
theorem rssidecIsSignedHalfSteps : Obligations.RssidecIsSignedHalfSteps := by
  refine ⟨fun s raw => ⟨fun hs h => ?_, fun hs hlow hhigh => ?_, fun hs h => ?_⟩, fun offset raw => ⟨fun h => ?_, fun h => ?_⟩⟩
  · rw [exec_rssidec hs (by omega), rssiDec, signed8, toNat_ofNat_byte (by omega), if_pos h]
    rfl
  · rw [exec_rssidec hs hhigh, rssiDec, signed8, toNat_ofNat_byte hhigh, if_neg (by omega)]
    push_cast
    rfl
  · rw [exec, execRssidec, checkByte_range h, checked_error, refuse_poised hs]
  · rw [rssiDec, rssiDec, signed8_add_one, if_neg h]
    push_cast
    ring
  · rw [rssiDec, rssiDec, signed8_add_one, if_pos h]
    push_cast
    ring

/-! ### Sync word -/

/-- Settles O42. -/
theorem syncWordSplitsAndJoins : Obligations.SyncWordSplitsAndJoins := by
  refine fun s hi lo => ⟨fun hs => ?_, fun hs => ⟨hi ++ lo, toNat_append_byte hi lo, ?_⟩, fun w hs h => ?_, fun a b hs h => ?_⟩
  · rw [← toNat_append_byte, exec, execSyncenc, if_neg (by omega), answer_ready hs, BitVec.ofNat_toNat, BitVec.setWidth_eq,
      splitSync_append]
    rfl
  · rw [exec, execSyncdec, checkByte_toNat, checked_ok, checkByte_toNat, checked_ok, answer_ready hs]
    rfl
  · rw [exec, execSyncenc, if_pos h, refuse_poised hs]
  · rw [exec, execSyncdec, ← refuse_poised hs]
    rcases Nat.lt_or_ge 255 a with ha | ha
    · rw [checkByte_range ha, checked_error]
    · rw [checkByte_ok ha, checked_ok, checkByte_range (by omega), checked_error]

end Sys2Proof.Machine

namespace Sys2Proof.Machine

/-! ## The radio state machine: strobes, awaits and mode transitions (43_mode_fsm.md) -/

/-! ### Phases of a command -/

/-- The phase `p`, performed with the bus answers `as` in any state whose wait port has ended `u` waits, takes `n` steps with the
events `evs` and goes on to the phases after it. -/
def Passes (c : Cfg) (p : Phase) (u : Nat) (as : List BusAnswer) (n : Nat) (evs : List Event) : Prop :=
  ∀ (s : State) (k : Nat) (code : List Phase) (rest : List BusAnswer), s.cfg = c → s.resetIn = false → s.busOpen = false →
    u ≤ s.resumes → s.bus = as ++ rest →
    ∃ lat k', runs n (launch (p :: code) k s) =
      .next (launch code k' { s.waited u with lat := lat, bus := rest, trace := s.trace ++ evs })

/-- The phases `code`, performed with the bus answers `as` in any state whose wait port has ended `u` waits, take `n` steps with the
events `evs`, end the command with the outcome `o`, and leave the answers `rest`. -/
def Performs (c : Cfg) (code : List Phase) (u : Nat) (as rest : List BusAnswer) (n : Nat) (evs : List Event) (o : CmdOutcome) :
    Prop :=
  ∀ (s : State) (k : Nat), s.cfg = c → s.resetIn = false → s.busOpen = false → u ≤ s.resumes → s.bus = as →
    runs n (launch code k s) = .next { (s.waited u).after rest evs o with seq := .ready }

section
variable {c : Cfg} {code : List Phase} {u n : Nat} {as rest : List BusAnswer} {evs : List Event} {o : CmdOutcome}

theorem passes_strobe (a : Addr) (x : Rx1) : Passes c (.strobe a) 0 x.answers 3 (strobeEvents a x) :=
  fun _ k code _ _ hr ho _ hb => ⟨_, _, runs_startStrobe x k a code hr ho hb⟩

theorem passes_writeBurst (a : Addr) {bs : List Byte} {x : RxN} (hl : x.vs.length = bs.length) (h1 : 1 ≤ bs.length)
    (h64 : bs.length ≤ 64) : Passes c (.writeBurst a bs) 0 x.answers (bs.length + 3) (writeBurstEvents a bs x) := by
  intro s k code rest _ hr ho _ hb
  obtain ⟨lat, hrun⟩ := runs_startWriteBurst x k a bs code hr ho hl h1 h64 hb
  exact ⟨lat, _, hrun⟩

theorem passes_await {t : MachineState} {w : Awaited} (hw : w.Reaches c t) (coop : Bool) :
    Passes c (.await t coop) (w.waits coop) w.answers (w.steps coop) (w.events c coop) := by
  rintro s k code rest rfl hr ho hu hb
  obtain ⟨lat, hrun⟩ := runs_await coop t code w k hr ho hw hu hb
  exact ⟨lat, _, hrun⟩

/-- A command goes on after a phase with what the phases after it do; the waits of both have been ended. -/
theorem Passes.cons {p : Phase} {v m : Nat} {bs : List BusAnswer} {evs' : List Event} (hp : Passes c p v bs m evs')
    (h : Performs c code u as rest n evs o) : Performs c (p :: code) (v + u) (bs ++ as) rest (m + n) (evs' ++ evs) o := by
  intro s k hc hr ho hu hb
  obtain ⟨lat, k', hrun⟩ := hp s k code as hc hr ho (by omega) hb
  refine runs_trans hrun ((h _ k' (by exact hc) (by exact hr) (by exact ho) (by simp only [State.waited]; omega) rfl).trans ?_)
  simp [State.waited, State.after, Nat.sub_sub]

/-- A phase without a wait leaves the number of waits as it is. -/
theorem Passes.cons_of_no_wait {p : Phase} {m : Nat} {bs : List BusAnswer} {evs' : List Event} (hp : Passes c p 0 bs m evs')
    (h : Performs c code u as rest n evs o) : Performs c (p :: code) u (bs ++ as) rest (m + n) (evs' ++ evs) o :=
  u.zero_add ▸ hp.cons h

/-- After the last phase the command ends with `Ok()`. -/
theorem performs_nil : Performs c [] 0 rest rest 0 [] (.ok .unit) := by
  rintro s k - - - - rfl
  simp [runs, launch, endCommand, reply, scrub, State.waited, State.after]

/-- A command ends with `Ok()` when its last phase is an await that reaches its target. -/
theorem performs_await {t : MachineState} {w : Awaited} (hw : w.Reaches c t) (coop : Bool) :
    Performs c [.await t coop] (w.waits coop) (w.answers ++ rest) rest (w.steps coop) (w.events c coop) (.ok .unit) := by
  simpa using (passes_await hw coop).cons performs_nil

/-- An await that uses up its bound ends the command, whatever phases come after it (R155). -/
theorem performs_await_timeout {t : MachineState} {w : Awaited} (hw : w.TimesOut c t) (coop : Bool) :
    Performs c (.await t coop :: code) (w.waits coop) (w.answers ++ rest) rest (w.steps coop) (w.events c coop)
      (.err (.timeout t (w.before.length + 1))) := by
  rintro s k rfl hr ho hu hb
  exact runs_await_timeout coop t code w k hr ho hw hu hb

/-- A command whose last phase is a single poll ends with `Ok()` or WouldBlock, by what the poll reads (R157). -/
theorem performs_pollOnce (t : MachineState) (p : Rx2) :
    Performs c [.pollOnce t] 0 (p.answers ++ rest) rest 4 (readEvents c.regmap.fsmState p)
      (if p.reads c t then .ok .unit else .wouldBlock) := by
  rintro s k rfl hr ho - hb
  refine (runs_startRead p k s.cfg.regmap.fsmState (.pollOnce t) [] hr ho hb).trans (congrArg _ ?_)
  have hreads : stateReached s.cfg p.v t = p.reads s.cfg t := rfl
  simp only [afterTransaction, afterPollOnce, State.traded, hreads]
  split
  · rfl
  · rfl

/-- A command accepted with phases that take its bus answers completes as they do (R23). -/
theorem Performs.completes {p : Phase} {s : State} (h : Performs s.cfg (p :: code) u as rest n evs o) {i : Instr}
    (he : exec i s = accept (p :: code) s) (hp : p.opens = true) (hs : s.Poised) (hr : s.resetIn = false) (hu : u ≤ s.resumes)
    (hb : s.bus = as) : Completes i s n ((s.waited u).after rest evs o) := by
  obtain ⟨hready, hclosed⟩ := hs
  refine completes_of_accept hready he hp ((h s 0 rfl hr hclosed hu hb).trans ?_)
  rw [← hready]
  rfl

end

/-! ### The phases of mode transitions and packets -/

theorem exec_await (coop : Bool) (t : MachineState) (s : State) :
    exec (if coop then .awaitcoop t else .awaitbusy t) s = accept [.await t coop] s := by
  cases coop <;> rfl

/-- Under a waiting discipline every mode but calibrate is a strobe and an await of its terminal state (R158). -/
theorem exec_setmode_waiting {mode : RadioMode} (hm : mode ≠ .calibrate) (coop : Bool) (s : State) :
    exec (.setmode mode (.waiting coop)) s = accept [.strobe (s.cfg.modeRow mode).1, .await (s.cfg.modeRow mode).2 coop] s := by
  cases mode with
  | calibrate => contradiction
  | receive | transmit | idle => cases coop <;> rfl

theorem exec_setmode_nonblock {mode : RadioMode} (hm : mode ≠ .calibrate) (s : State) :
    exec (.setmode mode .nonblock) s = accept [.strobe (s.cfg.modeRow mode).1, .pollOnce (s.cfg.modeRow mode).2] s := by
  cases mode with
  | calibrate => contradiction
  | receive | transmit | idle => rfl

/-- Calibrate routes through Idle (R159). -/
theorem exec_setmode_calibrate (coop : Bool) (s : State) : exec (.setmode .calibrate (.waiting coop)) s =
    accept [.strobe s.cfg.regmap.cmdIdle, .await .idle coop, .strobe s.cfg.regmap.cmdCal, .await .idle coop] s := by
  cases coop <;> rfl

theorem checkDisc_waiting (coop : Bool) : checkDisc (.waiting coop) = .ok coop := by
  cases coop <;> rfl

/-- A frame of the active variant passes its check with the bytes it gives (R170). -/
theorem frameBytes_ok {c : Cfg} {f : Frame} {bs : List Byte} (h : f.Gives c bs) : frameBytes c f = .ok bs := by
  cases f with
  | fixed p =>
    obtain ⟨hmode, hl, rfl⟩ := h
    simp [frameBytes, hmode, hl]
  | var l p =>
    obtain ⟨hmode, h1, hmax, hl, rfl⟩ := h
    simp [frameBytes, hmode, h1, hmax, hl]

/-- In a valid configuration the bytes of a frame fit the FIFO, and so BUF (R21, R170). -/
theorem length_bounds_of_gives {c : Cfg} {f : Frame} {bs : List Byte} (h : f.Gives c bs) (hv : c.valid = true) :
    1 ≤ bs.length ∧ bs.length ≤ 64 := by
  have hfifo := Cfg.valid_fifo hv
  cases f with
  | fixed p =>
    obtain ⟨-, hl, rfl⟩ := h
    have := Cfg.valid_fixed hv
    omega
  | var l p =>
    obtain ⟨-, h1, hmax, hl, rfl⟩ := h
    have := Cfg.valid_var hv
    rw [List.length_cons]
    omega

theorem exec_tx_waiting {s : State} {f : Frame} {bs : List Byte} (h : f.Gives s.cfg bs) (coop : Bool) :
    exec (.tx f (.waiting coop)) s = accept [.writeBurst s.cfg.regmap.fifo bs, .strobe s.cfg.regmap.cmdTx, .await .idle coop,
      .strobe s.cfg.regmap.cmdFlushTx] s := by
  rw [exec, execTx, frameBytes_ok h, checked_ok, checkDisc_waiting, checked_ok]

/-! ### Strobes, awaits and single polls -/

/-- Settles O43. -/
theorem modestrobeIssuesOneStrobe : Obligations.ModestrobeIssuesOneStrobe := by
  intro s x rest hs hr hb
  exact ⟨completes_status hs hr rfl (fun _ _ => rfl) hb, completes_status hs hr rfl (fun _ _ => rfl) hb,
    completes_status hs hr rfl (fun _ _ => rfl) hb, completes_status hs hr rfl (fun _ _ => rfl) hb⟩

/-- Settles O44: under busy no wait is taken from the wait port. -/
theorem awaitbusyPollsUntilReached : Obligations.AwaitbusyPollsUntilReached :=
  fun s t _ _ hs hr hw hb => (performs_await hw false).completes (exec_await false t s) rfl hs hr (Nat.zero_le _) hb

/-- Settles O45. -/
theorem awaitcoopWaitsBetweenPolls : Obligations.AwaitcoopWaitsBetweenPolls :=
  fun s t _ _ hs hr hw hu hb => (performs_await hw true).completes (exec_await true t s) rfl hs hr hu hb

/-- Settles O49. -/
theorem pollstatePollsOnce : Obligations.PollstatePollsOnce :=
  fun _ t p _ hs hr hb => (performs_pollOnce t p).completes rfl rfl hs hr (Nat.zero_le _) hb

/-! ### The cooperative wait -/

/-- A poll that misses within the bound is counted, and the await goes on with a wait or the next poll (R153). -/
theorem afterPoll_pending (coop : Bool) (code : List Phase) (k : Nat) {s : State}
    (hm : stateReached s.cfg s.lat.rxb s.lat.tgt = false) (hn : ∀ n, s.cfg.maxPolls = some n → s.lat.pcnt + 1 < n) :
    afterPoll coop code k s = { s with lat := { s.lat with pcnt := s.lat.pcnt + 1 },
                                       seq := .run k (if coop then .wait code else .bus (pollJob s.cfg false code)) } := by
  simp [afterPoll, pollResult, hm, pollsUsedUp_false hn]

/-- The state in which AWAITCOOP for `t` is suspended after its first poll `p` (R156). -/
def State.suspended (s : State) (t : MachineState) (p : Rx2) (rest : List BusAnswer) : State :=
  { s with seq := .waiting 4 [], bus := rest,
           trace := s.trace ++ readEvents s.cfg.regmap.fsmState p ++ [.wait s.cfg.pollIntervalUs],
           lat := { s.lat with hdr := hdr true false s.cfg.regmap.fsmState, rxb := p.v, tgt := t, pcnt := 1 } }

/-- A first poll that misses, and does not use up the bound, suspends the cooperative await (R156). -/
theorem completes_suspended {s : State} {t : MachineState} {p : Rx2} {rest : List BusAnswer} (hs : s.Poised)
    (hr : s.resetIn = false) (hm : p.reads s.cfg t = false) (hn : ∀ n, s.cfg.maxPolls = some n → 1 < n)
    (hb : s.bus = p.answers ++ rest) : Completes (.awaitcoop t) s 5 (s.suspended t p rest) := by
  obtain ⟨hready, hclosed⟩ := hs
  refine completes_of_accept hready (exec_await true t s) rfl ?_
  have hpoll := runs_startRead p 0 s.cfg.regmap.fsmState (.poll true) [] (as := rest)
    (s := { s with lat := { s.lat with tgt := t, pcnt := 0 } }) hr hclosed hb
  rw [afterTransaction, afterPoll_pending true [] _ (by exact hm) (by exact hn)] at hpoll
  exact runs_trans (m := 4) (n := 1) hpoll (runs_one (step_wait (by exact hr) (by rfl)))

/-- Settles O46. -/
theorem cooperativeWaitSuspends : Obligations.CooperativeWaitSuspends := by
  intro s t p rest hs hr hm h1 h0 hb
  have hn : ∀ n, s.cfg.maxPolls = some n → 1 < n := by
    intro n hn
    have : n ≠ 1 := fun h => h1 (h ▸ hn)
    have : n ≠ 0 := fun h => h0 (h ▸ hn)
    omega
  have ⟨_, hclosed⟩ := hs
  refine ⟨s.suspended t p rest, completes_suspended hs hr hm hn hb, rfl, hclosed, rfl, rfl, rfl, rfl, rfl, rfl, fun hz => ?_,
    _, move_resume _, ?_⟩
  · rw [step_waiting (by exact hr) (by rfl), if_pos (by exact hz)]
  · rw [step_waiting (by exact hr) (by rfl), if_neg (Nat.succ_ne_zero _)]
    rfl

/-! ### Mode transitions -/

/-- Settles O50. -/
theorem setmodeStrobesThenPolls : Obligations.SetmodeStrobesThenPolls := by
  intro s mode xs rest hs hr hmode
  have hstrobe := passes_strobe (c := s.cfg) (s.cfg.modeRow mode).1 xs
  refine ⟨fun coop w hw hu hb => ?_, fun p hb => ?_⟩
  · have hphases := hstrobe.cons_of_no_wait (performs_await (rest := rest) hw coop)
    exact hphases.completes (exec_setmode_waiting hmode coop s) rfl hs hr hu hb
  · have hphases := hstrobe.cons_of_no_wait (performs_pollOnce (rest := rest) (s.cfg.modeRow mode).2 p)
    exact hphases.completes (exec_setmode_nonblock hmode s) rfl hs hr (Nat.zero_le _) hb

/-- Settles O51: each await is passed by itself, so the second counts its polls afresh. -/
theorem calibrateRoutesThroughIdle : Obligations.CalibrateRoutesThroughIdle := by
  intro s coop x y v w rest hs hr hv hw hu hb
  have hcal := (passes_strobe s.cfg.regmap.cmdCal y).cons_of_no_wait (performs_await (rest := rest) hw coop)
  have hphases := (passes_strobe s.cfg.regmap.cmdIdle x).cons_of_no_wait ((passes_await hv coop).cons hcal)
  exact hphases.completes (exec_setmode_calibrate coop s) rfl hs hr hu hb

/-- Settles O52. -/
theorem nonblockingCalibrateRefused : Obligations.NonblockingCalibrateRefused :=
  fun _ hs => refuse_poised hs .discipline

/-! ### The bound on polling -/

/-- Settles O47: the phases before the await that times out are passed, those after it are not performed. -/
theorem awaitTimesOutAtBound : Obligations.AwaitTimesOutAtBound := by
  intro s coop t w xs rest hs hr hw hu
  have htimeout (code : List Phase) := performs_await_timeout (code := code) (rest := rest) hw coop
  have hstrobe (a : Addr) (x : Rx1) := passes_strobe (c := s.cfg) a x
  refine ⟨fun hb => ?_, fun mode hb hmode ht => ?_, fun hb ht => ?_, fun v ys ht hv hu hb => ?_,
    fun f bs xw hvalid hf hl ht hb => ?_⟩
  · exact (htimeout []).completes (exec_await coop t s) rfl hs hr hu hb
  · subst ht
    exact ((hstrobe _ xs).cons_of_no_wait (htimeout [])).completes (exec_setmode_waiting hmode coop s) rfl hs hr hu hb
  · subst ht
    exact ((hstrobe _ xs).cons_of_no_wait (htimeout _)).completes (exec_setmode_calibrate coop s) rfl hs hr hu hb
  · subst ht
    have hcal := (hstrobe s.cfg.regmap.cmdCal ys).cons_of_no_wait (htimeout [])
    have hphases := (hstrobe s.cfg.regmap.cmdIdle xs).cons_of_no_wait ((passes_await hv coop).cons hcal)
    exact hphases.completes (exec_setmode_calibrate coop s) rfl hs hr hu hb
  · subst ht
    obtain ⟨h1, h64⟩ := length_bounds_of_gives hf hvalid
    have htx := (hstrobe s.cfg.regmap.cmdTx xs).cons_of_no_wait (htimeout [.strobe s.cfg.regmap.cmdFlushTx])
    exact ((passes_writeBurst _ hl h1 h64).cons_of_no_wait htx).completes (exec_tx_waiting hf coop) rfl hs hr hu hb

end Sys2Proof.Machine

namespace Sys2Proof.Machine

/-! ## Packet I/O: frames checked, sent and received (44_packet_io.md) -/

/-! ### Frames -/

/-- A frame that is not of the active variant, or whose length is wrong, is refused by its check (R170). -/
theorem frameBytes_error {c : Cfg} {f : Frame} (h : ∀ bs, ¬ f.Gives c bs) : frameBytes c f = .error .frame := by
  cases f with
  | fixed p =>
    cases hmode : c.packetMode with
    | fixed =>
      have hl : p.length ≠ c.fixedPktLen := fun hl => h p ⟨hmode, hl, rfl⟩
      simp [frameBytes, hmode, hl]
    | var => simp [frameBytes, hmode]
  | var l p =>
    cases hmode : c.packetMode with
    | fixed => simp [frameBytes, hmode]
    | var =>
      have hl : ¬ (1 ≤ l ∧ l ≤ c.varPktMax ∧ p.length = l) := fun ⟨h1, hmax, hl⟩ => h _ ⟨hmode, h1, hmax, hl, rfl⟩
      simp only [frameBytes, hmode, if_neg hl]

/-- Settles O53: the frame is checked first, then the discipline (R191). -/
theorem badFramesRefused : Obligations.BadFramesRefused := by
  intro s f d hs
  refine ⟨fun hbad => ⟨?_, ?_⟩, fun bs hf => ?_⟩
  · rw [exec, execTx, frameBytes_error hbad, checked_error, refuse_poised hs]
  · rw [exec, execTxstart, frameBytes_error hbad, checked_error, refuse_poised hs]
  · rw [exec, execTx, frameBytes_ok hf, checked_ok, checkDisc, checked_error, refuse_poised hs]

/-! ### Phases of sending and receiving -/

/-- With the bus closed an error only ends the command (R192). -/
theorem raise_closed {s : State} (h : s.busOpen = false) {err : ErrKind} {k : Nat} : raise err k s = endCommand (.err err) s := by
  simp [raise, h]

section
variable {c : Cfg} {code : List Phase} {rest : List BusAnswer}

/-- A command ends with `Ok()` when its last phase is a strobe. -/
theorem performs_strobe (a : Addr) (x : Rx1) :
    Performs c [.strobe a] 0 (x.answers ++ rest) rest 3 (strobeEvents a x) (.ok .unit) := by
  simpa using (passes_strobe a x).cons performs_nil

/-- A single poll that reads its target goes on with the command (R157, R174). -/
theorem passes_pollOnce {t : MachineState} {p : Rx2} (hp : p.reads c t = true) :
    Passes c (.pollOnce t) 0 p.answers 4 (readEvents c.regmap.fsmState p) := by
  rintro s k code rest rfl hr ho - hb
  have hrun := runs_startRead p k s.cfg.regmap.fsmState (.pollOnce t) code hr ho hb
  rw [afterTransaction, afterPollOnce, if_pos (by exact hp)] at hrun
  exact ⟨_, _, hrun⟩

/-- A single poll that misses its target ends the command, whatever phases come after it (R157, R174). -/
theorem performs_pollOnce_miss {t : MachineState} {p : Rx2} (hp : p.reads c t = false) :
    Performs c (.pollOnce t :: code) 0 (p.answers ++ rest) rest 4 (readEvents c.regmap.fsmState p) .wouldBlock := by
  rintro s k rfl hr ho - hb
  have hrun := runs_startRead p k s.cfg.regmap.fsmState (.pollOnce t) code hr ho hb
  rw [afterTransaction, afterPollOnce, if_neg (by exact ne_true_of_eq_false hp)] at hrun
  exact hrun

/-- A burst read and then a result taken from the bytes at the start of BUF, which are those received (R53). -/
theorem performs_readBurst {x : RxN} {n : Nat} {r : Ret} {v : Value} (a : Addr)
    (hv : ∀ lat, bufTake lat n = x.vs → retValue r lat = v) (hl : x.vs.length = n) (h1 : 1 ≤ n) (h64 : n ≤ 64) :
    Performs c [.readBurst a n, .ret r] 0 (x.answers ++ rest) rest (n + 3) (readBurstEvents a x) (.ok v) := by
  rintro s k - hr ho - hb
  obtain ⟨lat, hbuf, hrun⟩ := runs_startReadBurst x k a n [.ret r] hr ho hl h1 h64 hb
  refine hrun.trans ?_
  rw [launch, hv _ hbuf]
  rfl

/-- A quality check whose verdict is `ok` goes on with the command after its reads (R178). -/
theorem passes_check {q : CheckProc} {regs : List Addr} {xs : List Rx2} (hq : checkRun q [] xs = some (regs, false, false)) :
    Passes c (.check q) 0 (pollAnswers xs) (4 * xs.length) (checkEvents regs xs) := by
  intro s k code rest _ hr ho _ hb
  obtain ⟨lat, k', _, hrun⟩ := runs_check q code [] xs _ hq k hr ho hb
  exact ⟨lat, k', hrun.trans (congrArg _ (launch_congr code k' rfl))⟩

/-- A quality check whose verdict is an error ends the command after its reads, whatever phases come after it (R178). -/
theorem performs_check_error {q : CheckProc} {regs : List Addr} {overflow crc : Bool} {xs : List Rx2} {err : ErrKind}
    (hq : checkRun q [] xs = some (regs, overflow, crc)) (he : checkError overflow crc (xs.map Rx2.v) = some err) :
    Performs c (.check q :: code) 0 (pollAnswers xs ++ rest) rest (4 * xs.length) (checkEvents regs xs) (.err err) := by
  rintro s k - hr ho - hb
  obtain ⟨lat, k', _, hrun⟩ := runs_check q code [] xs _ hq k hr ho hb
  rw [judged, List.nil_append, he] at hrun
  exact hrun.trans (congrArg _ (raise_closed (by exact ho)))

/-- Length byte 0 is the empty packet, with no second transaction (R176). -/
theorem performs_readLen_empty {p : Rx2} (hp : p.v = 0) : Performs c [.readLen] 0 (p.answers ++ rest) rest 4
    (readEvents c.regmap.fifo p) (.ok (.packet 0 [])) := by
  rintro s k rfl hr ho - hb
  have hrun := runs_startRead p k s.cfg.regmap.fifo .len [] hr ho hb
  rw [afterTransaction, afterLen, if_pos (by exact congrArg BitVec.toNat hp)] at hrun
  exact hrun

/-- A length byte above VAR_PKT_MAX is RxOverflow of it, with no second transaction (R176). -/
theorem performs_readLen_overflow {p : Rx2} (hp : c.varPktMax < p.v.toNat) : Performs c [.readLen] 0 (p.answers ++ rest) rest 4
    (readEvents c.regmap.fifo p) (.err (.rxOverflow [p.v])) := by
  rintro s k rfl hr ho - hb
  have hrun := runs_startRead p k s.cfg.regmap.fifo .len [] hr ho hb
  rw [afterTransaction, afterLen, if_neg (by exact Nat.ne_zero_of_lt hp), if_pos (by exact hp), raise_closed (by exact ho)] at hrun
  exact hrun

/-- After any other length byte comes a burst read of as many bytes (R176). -/
theorem performs_readLen_payload {p : Rx2} {x : RxN} (hv : c.valid = true) (h0 : p.v ≠ 0) (hmax : p.v.toNat ≤ c.varPktMax)
    (hl : x.vs.length = p.v.toNat) : Performs c [.readLen] 0 (p.answers ++ (x.answers ++ rest)) rest (4 + (p.v.toNat + 3))
    (readEvents c.regmap.fifo p ++ readBurstEvents c.regmap.fifo x) (.ok (.packet p.v.toNat x.vs)) := by
  rintro s k rfl hr ho hu hb
  have hne : p.v.toNat ≠ 0 := fun h => h0 (BitVec.eq_of_toNat_eq h)
  have hfits : p.v.toNat ≤ 64 := by
    have := Cfg.valid_var hv
    have := Cfg.valid_fifo hv
    omega
  have hburst : Performs s.cfg [.readBurst s.cfg.regmap.fifo p.v.toNat, .ret (.packet p.v.toNat)] 0 (x.answers ++ rest) rest
      (p.v.toNat + 3) (readBurstEvents s.cfg.regmap.fifo x) (.ok (.packet p.v.toNat x.vs)) :=
    performs_readBurst _ (fun lat h => by rw [retValue, h]) hl (by omega) hfits
  have hrun := runs_startRead p k s.cfg.regmap.fifo .len [] hr ho hb
  rw [afterTransaction, afterLen, if_neg (by exact hne), if_neg (by exact Nat.not_lt.mpr hmax)] at hrun
  refine runs_trans hrun ((hburst (s.traded _ _ _ _) (k + 4) rfl hr ho hu rfl).trans ?_)
  simp [State.waited, State.after, State.traded]

end

/-! ### Sending -/

/-- Settles O54. -/
theorem txWritesStrobesAwaitsFlushes : Obligations.TxWritesStrobesAwaitsFlushes := by
  intro s f bs coop xw xs w xf rest hs hr hv hf hl hw hu hb
  obtain ⟨h1, h64⟩ := length_bounds_of_gives hf hv
  have hflush := (passes_await hw coop).cons (performs_strobe (rest := rest) s.cfg.regmap.cmdFlushTx xf)
  have htx := (passes_strobe s.cfg.regmap.cmdTx xs).cons_of_no_wait hflush
  have hphases := (passes_writeBurst s.cfg.regmap.fifo hl h1 h64).cons_of_no_wait htx
  exact hphases.completes (exec_tx_waiting hf coop) rfl hs hr hu hb

theorem exec_txstart {s : State} {f : Frame} {bs : List Byte} (h : f.Gives s.cfg bs) :
    exec (.txstart f) s = accept [.writeBurst s.cfg.regmap.fifo bs, .strobe s.cfg.regmap.cmdTx] s := by
  rw [exec, execTxstart, frameBytes_ok h, checked_ok]

/-- Settles O55. -/
theorem txstartWritesAndStrobes : Obligations.TxstartWritesAndStrobes := by
  intro s f bs xw xs rest hs hr hv hf hl hb
  obtain ⟨h1, h64⟩ := length_bounds_of_gives hf hv
  have hphases := (passes_writeBurst s.cfg.regmap.fifo hl h1 h64).cons_of_no_wait
    (performs_strobe (c := s.cfg) (rest := rest) s.cfg.regmap.cmdTx xs)
  exact hphases.completes (exec_txstart hf) rfl hs hr (Nat.zero_le _) hb

/-- Settles O56. -/
theorem txpollFlushesInIdle : Obligations.TxpollFlushesInIdle := by
  intro s p rest hs hr
  refine ⟨fun xf hp hb => ?_, fun hp hb => ?_⟩
  · have hphases := (passes_pollOnce hp).cons (performs_strobe (rest := rest) s.cfg.regmap.cmdFlushTx xf)
    exact hphases.completes rfl rfl hs hr (Nat.zero_le _) hb
  · exact (performs_pollOnce_miss hp).completes rfl rfl hs hr (Nat.zero_le _) hb

/-! ### Receiving -/

/-- With the pin false RX ends at its sample (R171, R175). -/
theorem completes_rx_unpinned {s : State} (hs : s.Poised) (hr : s.resetIn = false) (hpin : s.pinLevel = false) :
    Completes .rx s 1 (s.after s.bus [.pin false] .wouldBlock) := by
  obtain ⟨hready, -⟩ := hs
  refine completes_of_accept hready rfl rfl (runs_one ((step_pin (by exact hr) (by rfl)).trans (congrArg _ ?_)))
  rw [afterPin, if_neg (by exact ne_true_of_eq_false hpin)]
  simp [endCommand, reply, scrub, samplePin, emit, launch, State.after, hpin, hready]

/-- With the pin true RX goes on after its sample with the quality check and the reads of its mode (R171, R175, R176). -/
theorem Performs.completes_rx {s : State} {as rest : List BusAnswer} {n : Nat} {evs : List Event} {o : CmdOutcome}
    (h : Performs s.cfg (checkPhases s.cfg ++ receivePhases s.cfg) 0 as rest n evs o) (hs : s.Poised) (hr : s.resetIn = false)
    (hpin : s.pinLevel = true) (hb : s.bus = as) : Completes .rx s (1 + n) (s.after rest (.pin true :: evs) o) := by
  obtain ⟨hready, hclosed⟩ := hs
  refine completes_of_accept hready rfl rfl (runs_trans (runs_one (step_pin (by exact hr) (by rfl))) ?_)
  rw [afterPin, if_pos (by exact hpin)]
  refine (h (samplePin (launch (.pin :: _) 0 s)) 1 rfl hr hclosed (Nat.zero_le _) hb).trans ?_
  simp [samplePin, emit, launch, State.waited, State.after, hpin, hready]

theorem checkPhases_none {c : Cfg} (h : c.rxCheck = none) : checkPhases c = [] := by
  rw [checkPhases, h]

theorem checkPhases_some {c : Cfg} {q : CheckProc} (h : c.rxCheck = some q) : checkPhases c = [.check q] := by
  rw [checkPhases, h]

theorem receivePhases_var {c : Cfg} (h : c.packetMode = .var) : receivePhases c = [.readLen] := by
  rw [receivePhases, h]

/-- In fixed mode RX reads FIXED_PKT_LEN bytes in one burst and returns them as read (R175). -/
theorem performs_receive_fixed {c : Cfg} {x : RxN} {rest : List BusAnswer} (hv : c.valid = true) (hm : c.packetMode = .fixed)
    (hl : x.vs.length = c.fixedPktLen) : Performs c (receivePhases c) 0 (x.answers ++ rest) rest (c.fixedPktLen + 3)
    (readBurstEvents c.regmap.fifo x) (.ok (.bytes x.vs)) := by
  have ⟨h1, hmax⟩ := Cfg.valid_fixed hv
  rw [receivePhases, hm]
  exact performs_readBurst _ (fun lat h => by rw [retValue, h]) hl h1 (hmax.trans (Cfg.valid_fifo hv))

/-- Settles O57. -/
theorem rxFixedReadsOneBurst : Obligations.RxFixedReadsOneBurst := by
  intro s hs hr
  refine ⟨completes_rx_unpinned hs hr, fun x rest hpin hv hm hq hl hb => Performs.completes_rx ?_ hs hr hpin hb⟩
  rw [checkPhases_none hq]
  exact performs_receive_fixed hv hm hl

/-- Settles O58. -/
theorem rxVariableReadsLengthFirst : Obligations.RxVariableReadsLengthFirst := by
  intro s p hs hr hpin hv hm hq
  have completes {as rest n evs o} (h : Performs s.cfg [.readLen] 0 as rest n evs o) (hb : s.bus = as) :
      Completes .rx s (1 + n) (s.after rest (.pin true :: evs) o) := by
    refine Performs.completes_rx ?_ hs hr hpin hb
    rwa [checkPhases_none hq, receivePhases_var hm]
  refine ⟨fun rest h0 => completes (performs_readLen_empty h0), fun rest hmax => completes (performs_readLen_overflow hmax),
    fun x rest h0 hmax hl hb => ?_⟩
  rw [show 5 + (p.v.toNat + 3) = 1 + (4 + (p.v.toNat + 3)) by omega]
  exact completes (performs_readLen_payload hv h0 hmax hl) hb

/-- The registers a check reads in a run are among those it can read (R178). -/
theorem regs_of_checkRun {q : CheckProc} {seen : List Byte} {xs : List Rx2} {regs : List Addr} {overflow crc : Bool}
    (h : checkRun q seen xs = some (regs, overflow, crc)) : ∀ a ∈ regs, a ∈ q.regs := by
  induction q generalizing seen xs regs with
  | found o c =>
    cases xs with
    | nil => cases h; simp
    | cons x xs => cases h
  | read b rest ih =>
    cases xs with
    | nil => cases h
    | cons x xs =>
      simp only [checkRun, Option.map_eq_some_iff] at h
      obtain ⟨⟨regs', v⟩, hrest, heq⟩ := h
      cases heq
      intro a ha
      rcases List.mem_cons.mp ha with rfl | ha
      · simp [CheckProc.regs]
      · exact List.mem_cons_of_mem _ (ih hrest a ha)
  | test idx mask val yes no ihy ihn =>
    simp only [checkRun] at h
    intro a ha
    split at h
    · exact List.mem_append_left _ (ihy h a ha)
    · exact List.mem_append_right _ (ihn h a ha)

/-- Settles O59: the check is a phase like the others, passed with verdict `ok` and ending the command with an error. -/
theorem rxQualityCheckComesFirst : Obligations.RxQualityCheckComesFirst := by
  intro s q regs overflow crc xs rest hs hr hpin hv hq hrun
  have completes {as n evs o} (h : Performs s.cfg (.check q :: receivePhases s.cfg) 0 as rest n evs o) (hb : s.bus = as) :
      Completes .rx s (1 + n) (s.after rest (.pin true :: evs) o) := by
    refine Performs.completes_rx ?_ hs hr hpin hb
    rwa [checkPhases_some hq]
  refine ⟨fun a ha => Cfg.valid_check hv hq a (regs_of_checkRun hrun a ha), ?_, ?_, ?_, ?_⟩
  · rintro rfl
    exact completes (performs_check_error hrun rfl)
  · rintro rfl rfl
    exact completes (performs_check_error hrun rfl)
  · rintro x rfl rfl hm hl
    exact completes ((passes_check hrun).cons (performs_receive_fixed hv hm hl))
  · rintro p rfl rfl hm
    have goesOn {as n evs o} (h : Performs s.cfg [.readLen] 0 as rest n evs o) :
        Performs s.cfg (.check q :: receivePhases s.cfg) 0 (pollAnswers xs ++ as) rest (4 * xs.length + n)
          (checkEvents regs xs ++ evs) o := by
      rw [receivePhases_var hm]
      exact (passes_check hrun).cons h
    exact ⟨fun h0 => completes (goesOn (performs_readLen_empty h0)),
      fun hmax => completes (goesOn (performs_readLen_overflow hmax)),
      fun x h0 hmax hl => completes (goesOn (performs_readLen_payload hv h0 hmax hl))⟩

end Sys2Proof.Machine

namespace Sys2Proof.Machine

/-! ## Commands that never end: awaits without a bound (60_exceptions.md, R194, R225) -/

/-! ### The phases before an await -/

/-- The phases `before`, performed with the bus answers `as` in any state whose wait port has ended `u` waits, come to `d`
micro-operations and waits in `d + u` steps, with the events `evs`, and the command goes on with the phases after them. Unlike
`Passes` this says how far the number in RUN counts (log entry 12). -/
def Precedes (c : Cfg) (before : List Phase) (d u : Nat) (as : List BusAnswer) (evs : List Event) : Prop :=
  ∀ (s : State) (k : Nat) (code : List Phase) (rest : List BusAnswer), s.cfg = c → s.resetIn = false → s.busOpen = false →
    u ≤ s.resumes → s.bus = as ++ rest →
    ∃ lat, runs (d + u) (launch (before ++ code) k s) =
      .next (launch code (k + d) { s.waited u with lat := lat, bus := rest, trace := s.trace ++ evs })

section
variable {c : Cfg}

theorem precedes_nil : Precedes c [] 0 0 [] [] := by
  rintro s k code _ - - - - rfl
  exact ⟨s.lat, by simp [runs, State.waited]⟩

theorem precedes_strobe (a : Addr) (x : Rx1) : Precedes c [.strobe a] 3 0 x.answers (strobeEvents a x) :=
  fun _ k code _ _ hr ho _ hb => ⟨_, runs_startStrobe x k a code hr ho hb⟩

theorem precedes_writeBurst (a : Addr) {bs : List Byte} {x : RxN} (hl : x.vs.length = bs.length) (h1 : 1 ≤ bs.length)
    (h64 : bs.length ≤ 64) : Precedes c [.writeBurst a bs] (bs.length + 3) 0 x.answers (writeBurstEvents a bs x) :=
  fun _ k code _ _ hr ho _ hb => runs_startWriteBurst x k a bs code hr ho hl h1 h64 hb

/-- Each wait takes one step more than it counts in RUN (R23; log entry 1). -/
theorem Awaited.steps_eq_count_add_waits (w : Awaited) (coop : Bool) : w.steps coop = w.count coop + w.waits coop := by
  rw [Awaited.steps, Awaited.count]
  omega

theorem precedes_await {t : MachineState} {w : Awaited} (hw : w.Reaches c t) (coop : Bool) :
    Precedes c [.await t coop] (w.count coop) (w.waits coop) w.answers (w.events c coop) := by
  rintro s k code rest rfl hr ho hu hb
  rw [← w.steps_eq_count_add_waits]
  exact runs_await coop t code w k hr ho hw hu hb

/-- Phases one after the other: their micro-operations, waits, answers and events are joined. -/
theorem Precedes.append {ps qs : List Phase} {d d' u u' : Nat} {as as' : List BusAnswer} {evs evs' : List Event}
    (hp : Precedes c ps d u as evs) (hq : Precedes c qs d' u' as' evs') :
    Precedes c (ps ++ qs) (d + d') (u + u') (as ++ as') (evs ++ evs') := by
  intro s k code rest hc hr ho hu hb
  obtain ⟨lat, hrun⟩ := hp s k (qs ++ code) (as' ++ rest) hc hr ho (by omega) (by rw [hb, List.append_assoc])
  obtain ⟨lat', hrun'⟩ := hq { s.waited u with lat := lat, bus := as' ++ rest, trace := s.trace ++ evs } (k + d) code rest
    hc hr ho (Nat.le_sub_of_add_le' hu) rfl
  refine ⟨lat', ?_⟩
  rw [List.append_assoc, Nat.add_add_add_comm]
  refine runs_trans hrun (hrun'.trans ?_)
  simp [State.waited, Nat.sub_sub, Nat.add_assoc]

/-- Without a bound, a command accepted with an await that no poll ends makes its polls after the phases before the await, and
goes on polling (R194, R225). -/
theorem Precedes.pollsOn {s : State} {before code rest : List Phase} {p : Phase} {d u : Nat} {as : List BusAnswer}
    {evs : List Event} {i : Instr} {coop : Bool} {t : MachineState} {ps : List Rx2} (h : Precedes s.cfg before d u as evs)
    (he : exec i s = accept (p :: rest) s) (hcode : p :: rest = before ++ .await t coop :: code) (hp : p.opens = true)
    (hs : s.Poised) (hr : s.resetIn = false) (hn : s.cfg.maxPolls = none) (hm : ∀ x ∈ ps, x.reads s.cfg t = false)
    (hu : u + missWaits coop ps ≤ s.resumes) (hb : s.bus = as ++ pollAnswers ps) : PollsOn i s coop t ps d u evs code := by
  obtain ⟨hready, hclosed⟩ := hs
  obtain ⟨lat, hbefore⟩ := h s 0 (.await t coop :: code) (pollAnswers ps) rfl hr hclosed (by omega) hb
  obtain ⟨lat', htgt, hpcnt, hpolls⟩ := runs_polling coop t code ps (0 + d)
    (s := { s.waited u with lat := lat, bus := pollAnswers ps, trace := s.trace ++ evs }) hr hclosed hm hn
    (Nat.le_sub_of_add_le' hu) rfl
  refine ⟨lat', htgt, hpcnt, completes_of_accept hready he hp ?_⟩
  rw [hcode]
  refine runs_trans hbefore (hpolls.trans ?_)
  simp [State.waited, Nat.sub_sub]

end

/-! ### Every await -/

/-- Settles O48: each command is the phases before an await that is never answered with its target. -/
theorem awaitNeverEnds : Obligations.AwaitNeverEnds := by
  intro s coop t ps hs hr hn hm hu
  have hstrobe (a : Addr) (x : Rx1) := precedes_strobe (c := s.cfg) a x
  have hfirst : 0 + missWaits coop ps ≤ s.resumes := (Nat.zero_add _).trans_le hu
  refine ⟨fun hb => ?_, fun mode xs hmode ht hb => ?_, fun xs ht hb => ?_, fun xs ys v ht hv hwaits hb => ?_,
    fun f bs xw xs hvalid hf hl ht hb => ?_⟩
  · exact precedes_nil.pollsOn (exec_await coop t s) rfl rfl hs hr hn hm hfirst hb
  · subst ht
    exact (hstrobe _ xs).pollsOn (exec_setmode_waiting hmode coop s) rfl rfl hs hr hn hm hfirst hb
  · subst ht
    exact (hstrobe _ xs).pollsOn (exec_setmode_calibrate coop s) rfl rfl hs hr hn hm hfirst hb
  · subst ht
    have hbefore := ((hstrobe s.cfg.regmap.cmdIdle xs).append (precedes_await hv coop)).append (hstrobe s.cfg.regmap.cmdCal ys)
    rw [Nat.zero_add, List.append_assoc] at hbefore
    exact hbefore.pollsOn (exec_setmode_calibrate coop s) rfl rfl hs hr hn hm hwaits (by simpa using hb)
  · subst ht
    obtain ⟨h1, h64⟩ := length_bounds_of_gives hf hvalid
    have hbefore := (precedes_writeBurst s.cfg.regmap.fifo hl h1 h64).append (hstrobe s.cfg.regmap.cmdTx xs)
    exact hbefore.pollsOn (exec_tx_waiting hf coop) rfl rfl hs hr hn hm hfirst (by simpa using hb)

end Sys2Proof.Machine

namespace Sys2Proof.Machine

/-! ## Block reset: what a raised reset input does, and that nothing inside raises it (70_reset_and_hazards.md) -/

/-- A raised reset input is taken by the step, whatever the sequencer phase (R210). -/
theorem step_reset {s : State} (hr : s.resetIn = true) : step s = .next (blockReset s) :=
  if_pos hr

/-- No step leaves the reset input raised: a block reset takes it, and every other step finds it low and leaves it so (R210). -/
theorem step_resetIn {s t : State} (h : step s = .next t) : t.resetIn = false := by
  rcases step_goes h with ⟨_, rfl⟩ | ⟨hr, ⟨_, _, rfl⟩ | ⟨_, _, _, g⟩ | ⟨_, g⟩⟩
  · exact blockReset_resetIn s
  · exact hr
  · exact g.resetIn.trans hr
  · exact g.resetIn.trans hr

/-- Executing a command leaves the reset input as it is; outside READY there is no next state to speak of (R65, R210). -/
theorem exec_resetIn {i : Instr} {s t : State} (h : exec i s = .next t) : t.resetIn = s.resetIn := by
  by_cases hs : s.seq = .ready
  · exact (goes_exec hs h).resetIn
  · rw [exec_busy i hs] at h
    cases h

/-- Settles O7: the first part is `blockReset` written out. -/
theorem blockResetInAnyPhase : Obligations.BlockResetInAnyPhase :=
  ⟨fun _ hr => step_reset hr, fun _ _ => step_resetIn, fun _ _ _ => exec_resetIn⟩

end Sys2Proof.Machine
